-- ==== Sys2Proof/Word.lean ====
section
/-! DEFINITION. The word-level types of the block: what the spec treats as bits, and the indexes of its
register file. No behaviour stands here. -/

namespace Sys2Proof

/-- A word: 64 bits, unsigned, bit 0 least significant (R9, R13). -/
abbrev Word := BitVec 64

/-- A command word: 32 bits, bit 31 most significant (R60). -/
abbrev Command := BitVec 32

/-- A host port address: 16 bits, one address per 64-bit word (R41). -/
abbrev PortAddr := BitVec 16

/-- The 16-bit immediate of a command, an unsigned integer (R64). -/
abbrev Imm := BitVec 16

/-- A plain register field: one of the sixteen data registers `r0` to `r15` (R21, R63). -/
abbrev Reg := Fin 16

/-- A wide operand: one of the eight aligned pairs `w0` to `w7` (R23). -/
abbrev Pair := Fin 8

/-- A fixed value: a sequence of words, word 0 least significant (R14).
In a block built for `N` words every fixed value has length `N`. -/
abbrev Fixed := List Word

/-- A wide value: the pair `(lo, hi)` of fixed values (R15). -/
abbrev Wide := Fixed × Fixed

end Sys2Proof
end

