-- ==== Sys2Proof/Config.lean ====
section
/-! DEFINITION. What is fixed when a block is built, and the values the spec leaves unspecified. The word
count `N` (R10) is an argument of the whole model: it is the field `words` of `Machine.State`, so that a
theorem about every state is a theorem about every `N`. -/

namespace Sys2Proof

/-- The word width `W` in bits (R9): not a parameter. -/
def Config.wordBits : Nat := 64

/-- The number of data registers `NREG` (R12). -/
def Config.numRegs : Nat := 16

/-- The least word count a block can be built with (R10). -/
def Config.minWords : Nat := 1

/-- The greatest word count a block can be built with (R10). -/
def Config.maxWords : Nat := 1023

/-- The word count of `Machine.State.reset`.
DESIGN CHOICE (log entry 1): `N` is open in the spec; 2 is the 128-bit width, the first the document names.
Every other `N` is reached by `Machine.State.resetFor`. -/
def Config.resetWords : Nat := 2

/-- What a word of a data register or of the Montgomery bank holds after a reset TRANSACTION, which the spec
leaves unspecified (R35, R255; U1, U15 of 93_implementation_defined.md): a free value, applied to the number
of resets made before, the slot (0 to 15 the data registers, 16 to 19 the bank values `n`, `r1`, `r2`,
`ninv`) and the word index. It has no body: no proof can see its value (log entry 2). -/
opaque Config.freeWord : Nat → Nat → Nat → Word

end Sys2Proof
end

