-- ==== Sys2Proof/Syntax.lean ====
section
/-! DEFINITION. The command set ALGCORE-1 as syntax: one constructor per row of spec/opcode_table.json (R65).
Operands stand in the order of the assembly column of R65; `d` is a destination, `c` a second destination
or the third source. -/

namespace Sys2Proof

/-- The 35 commands of the block (R65). A `Pair` operand is a wide pair (R23), so an odd wide field has no
term here: the decoder refuses it. -/
inductive Instr where
  /-- `MOV rd, ra` (R95). -/
  | mov (d a : Reg)
  /-- `LDI rd, imm16` (R96). -/
  | ldi (d : Reg) (imm : Imm)
  /-- `ADDC rd, ra, rb` (R97). -/
  | addc (d a b : Reg)
  /-- `ADDW rd, ra, rb` (R98). -/
  | addw (d a b : Reg)
  /-- `SUBC rd, ra, rb` (R99). -/
  | subc (d a b : Reg)
  /-- `SUBW rd, ra, rb` (R100). -/
  | subw (d a b : Reg)
  /-- `WADD wd, wa, wb` (R101). -/
  | wadd (d a b : Pair)
  /-- `WSUB wd, wa, wb` (R102). -/
  | wsub (d a b : Pair)
  /-- `MULX wd, ra, rb` (R112). -/
  | mulx (d : Pair) (a b : Reg)
  /-- `MULC rd, ra, rb` (R113). -/
  | mulc (d a b : Reg)
  /-- `MULW rd, ra, rb` (R114). -/
  | mulw (d a b : Reg)
  /-- `DIVREM rd, rc, ra, rb` (R124): `d` quotient, `c` remainder, `a` dividend, `b` divisor. -/
  | divrem (d c a b : Reg)
  /-- `DIV rd, ra, rb` (R125). -/
  | div (d a b : Reg)
  /-- `REM rd, ra, rb` (R126). -/
  | rem (d a b : Reg)
  /-- `WDIVREM wd, rc, wa, rb` (R127): `d` quotient, `c` remainder, `a` dividend, `b` divisor. -/
  | wdivrem (d : Pair) (c : Reg) (a : Pair) (b : Reg)
  /-- `WDIV wd, wa, rb` (R128). -/
  | wdiv (d a : Pair) (b : Reg)
  /-- `WREM rd, wa, rb` (R129). -/
  | wrem (d : Reg) (a : Pair) (b : Reg)
  /-- `SHLW rd, ra, imm16` (R145). -/
  | shlw (d a : Reg) (imm : Imm)
  /-- `SHRW rd, ra, imm16` (R146). -/
  | shrw (d a : Reg) (imm : Imm)
  /-- `SHLO rd, ra, imm16` (R147). -/
  | shlo (d a : Reg) (imm : Imm)
  /-- `SHRO rd, ra, imm16` (R148). -/
  | shro (d a : Reg) (imm : Imm)
  /-- `WSHL wd, wa, imm16` (R149). -/
  | wshl (d a : Pair) (imm : Imm)
  /-- `WSHR wd, wa, imm16` (R150). -/
  | wshr (d a : Pair) (imm : Imm)
  /-- `CMP ra, rb` (R151). -/
  | cmp (a b : Reg)
  /-- `CLZ rd, ra` (R152). -/
  | clz (d a : Reg)
  /-- `BLEN rd, ra` (R153). -/
  | blen (d a : Reg)
  /-- `INV2K rd, ra, imm16` (R174). -/
  | inv2k (d a : Reg) (imm : Imm)
  /-- `MPINIT ra` (R175). -/
  | mpinit (a : Reg)
  /-- `REDC rd, wa` (R176). -/
  | redc (d : Reg) (a : Pair)
  /-- `TOMONT rd, ra` (R177). -/
  | tomont (d a : Reg)
  /-- `MMUL rd, ra, rb` (R178). -/
  | mmul (d a b : Reg)
  /-- `FROMMONT rd, ra` (R179). -/
  | frommont (d a : Reg)
  /-- `MULMOD rd, ra, rb, rc` (R193). -/
  | mulmod (d a b c : Reg)
  /-- `MODEXP rd, ra, rb, rc` (R194). -/
  | modexp (d a b c : Reg)
  /-- `MEXPM rd, ra, rb` (R195). -/
  | mexpm (d a b : Reg)
deriving DecidableEq, Repr

end Sys2Proof
end

