-- ==== Sys2Proof/WellFormed.lean ====
section
/-! DEFINITION. The value constraints of R67 on an instruction that has been read from a command word. The
other grounds on which R67 calls a word illegal (an opcode not in the table, a nonzero unused field, an odd
wide field) have no instruction term: the decoder refuses them. -/

namespace Sys2Proof

/-- `i` breaks no value constraint of R67 in a block of `n` words: `DIVREM` with `d = c`; `WDIVREM` with
`c = d` or `c = d + 1` (register numbers, `d` the even number of the pair); `INV2K` with `imm16 = 0` or
`imm16 > 64*N`. Every other command is legal with every operand (R63, R64). -/
def Instr.wellFormed (n : Nat) : Instr → Bool
  | .mov _ _ => true
  | .ldi _ _ => true
  | .addc _ _ _ => true
  | .addw _ _ _ => true
  | .subc _ _ _ => true
  | .subw _ _ _ => true
  | .wadd _ _ _ => true
  | .wsub _ _ _ => true
  | .mulx _ _ _ => true
  | .mulc _ _ _ => true
  | .mulw _ _ _ => true
  | .divrem d c _ _ => d != c
  | .div _ _ _ => true
  | .rem _ _ _ => true
  | .wdivrem d c _ _ => c.val != 2 * d.val && c.val != 2 * d.val + 1
  | .wdiv _ _ _ => true
  | .wrem _ _ _ => true
  | .shlw _ _ _ => true
  | .shrw _ _ _ => true
  | .shlo _ _ _ => true
  | .shro _ _ _ => true
  | .wshl _ _ _ => true
  | .wshr _ _ _ => true
  | .cmp _ _ => true
  | .clz _ _ => true
  | .blen _ _ => true
  | .inv2k _ _ imm => decide (1 ≤ imm.toNat) && decide (imm.toNat ≤ 64 * n)
  | .mpinit _ => true
  | .redc _ _ => true
  | .tomont _ _ => true
  | .mmul _ _ _ => true
  | .frommont _ _ => true
  | .mulmod _ _ _ _ => true
  | .modexp _ _ _ _ => true
  | .mexpm _ _ _ => true

end Sys2Proof
end

