-- ==== Sys2Proof/Decode.lean ====
section
/-! DEFINITION. The encoding of commands (30_encoding.md): the opcode table with its match and mask columns
(R65), the fields (R61), the decoder (R62, R63, R66, R69), the encoder (R65) and the host's table-word reader.
`decode` reads the row and its fields (the first half of R69); the value constraints of R67 are checked where
the command is executed, as R69 orders, by `Instr.wellFormed`'s conditions in the three meanings that have
one. -/

namespace Sys2Proof

/-- Why a word is no command (R66, R67). -/
inductive DecodeError where
  /-- The opcode byte is in no row of R65. -/
  | unassignedOpcode
  /-- A field the command's format does not use is not zero (R66). -/
  | nonzeroUnusedField
  /-- A wide field holds an odd register number (R63). -/
  | oddWideField
deriving DecidableEq, Repr

/-- One row of the opcode map (R65). -/
structure OpcodeRow where
  op : Nat
  name : String
  pattern : Command
  mask : Command
deriving DecidableEq, Repr

/-- The move and add/subtract rows of R65. -/
def opcodeRowsMoveAdd : List OpcodeRow := [
  ⟨0x10, "MOV", 0x10000000#32, 0xFF00FFFF#32⟩,
  ⟨0x11, "LDI", 0x11000000#32, 0xFF0F0000#32⟩,
  ⟨0x20, "ADDC", 0x20000000#32, 0xFF000FFF#32⟩,
  ⟨0x21, "ADDW", 0x21000000#32, 0xFF000FFF#32⟩,
  ⟨0x22, "SUBC", 0x22000000#32, 0xFF000FFF#32⟩,
  ⟨0x23, "SUBW", 0x23000000#32, 0xFF000FFF#32⟩,
  ⟨0x24, "WADD", 0x24000000#32, 0xFF111FFF#32⟩,
  ⟨0x25, "WSUB", 0x25000000#32, 0xFF111FFF#32⟩]

/-- The multiply and divide rows of R65. -/
def opcodeRowsMulDiv : List OpcodeRow := [
  ⟨0x30, "MULX", 0x30000000#32, 0xFF100FFF#32⟩,
  ⟨0x31, "MULC", 0x31000000#32, 0xFF000FFF#32⟩,
  ⟨0x32, "MULW", 0x32000000#32, 0xFF000FFF#32⟩,
  ⟨0x40, "DIVREM", 0x40000000#32, 0xFF0000FF#32⟩,
  ⟨0x41, "DIV", 0x41000000#32, 0xFF000FFF#32⟩,
  ⟨0x42, "REM", 0x42000000#32, 0xFF000FFF#32⟩,
  ⟨0x43, "WDIVREM", 0x43000000#32, 0xFF1100FF#32⟩,
  ⟨0x44, "WDIV", 0x44000000#32, 0xFF110FFF#32⟩,
  ⟨0x45, "WREM", 0x45000000#32, 0xFF010FFF#32⟩]

/-- The shift, compare and count rows of R65. -/
def opcodeRowsShift : List OpcodeRow := [
  ⟨0x50, "SHLW", 0x50000000#32, 0xFF000000#32⟩,
  ⟨0x51, "SHRW", 0x51000000#32, 0xFF000000#32⟩,
  ⟨0x52, "SHLO", 0x52000000#32, 0xFF000000#32⟩,
  ⟨0x53, "SHRO", 0x53000000#32, 0xFF000000#32⟩,
  ⟨0x54, "WSHL", 0x54000000#32, 0xFF110000#32⟩,
  ⟨0x55, "WSHR", 0x55000000#32, 0xFF110000#32⟩,
  ⟨0x56, "CMP", 0x56000000#32, 0xFFF00FFF#32⟩,
  ⟨0x57, "CLZ", 0x57000000#32, 0xFF00FFFF#32⟩,
  ⟨0x58, "BLEN", 0x58000000#32, 0xFF00FFFF#32⟩]

/-- The Montgomery and modular rows of R65. -/
def opcodeRowsMod : List OpcodeRow := [
  ⟨0x60, "INV2K", 0x60000000#32, 0xFF000000#32⟩,
  ⟨0x61, "MPINIT", 0x61000000#32, 0xFFF0FFFF#32⟩,
  ⟨0x62, "REDC", 0x62000000#32, 0xFF01FFFF#32⟩,
  ⟨0x63, "TOMONT", 0x63000000#32, 0xFF00FFFF#32⟩,
  ⟨0x64, "MMUL", 0x64000000#32, 0xFF000FFF#32⟩,
  ⟨0x65, "FROMMONT", 0x65000000#32, 0xFF00FFFF#32⟩,
  ⟨0x70, "MULMOD", 0x70000000#32, 0xFF0000FF#32⟩,
  ⟨0x71, "MODEXP", 0x71000000#32, 0xFF0000FF#32⟩,
  ⟨0x72, "MEXPM", 0x72000000#32, 0xFF000FFF#32⟩]

/-- The opcode map of R65, all 35 rows, in the table's order. -/
def opcodeTable : List OpcodeRow :=
  opcodeRowsMoveAdd ++ opcodeRowsMulDiv ++ opcodeRowsShift ++ opcodeRowsMod

/-! ## Fields of a command word (R61) -/

/-- Field `op`, bits 31:24. -/
def fieldOp (w : Command) : Nat := w.toNat / 2 ^ 24

/-- Field `d`, bits 23:20, as a plain register. -/
def fieldD (w : Command) : Reg := Fin.ofNat 16 (w.toNat / 2 ^ 20)

/-- Field `a`, bits 19:16, as a plain register. -/
def fieldA (w : Command) : Reg := Fin.ofNat 16 (w.toNat / 2 ^ 16)

/-- Field `b`, bits 15:12, as a plain register. -/
def fieldB (w : Command) : Reg := Fin.ofNat 16 (w.toNat / 2 ^ 12)

/-- Field `c`, bits 11:8, as a plain register. -/
def fieldC (w : Command) : Reg := Fin.ofNat 16 (w.toNat / 2 ^ 8)

/-- Field `d` as a wide pair: its upper three bits, the low bit being zero in a legal word (R63). -/
def fieldDW (w : Command) : Pair := Fin.ofNat 8 (w.toNat / 2 ^ 21)

/-- Field `a` as a wide pair. -/
def fieldAW (w : Command) : Pair := Fin.ofNat 8 (w.toNat / 2 ^ 17)

/-- Field `b` as a wide pair. -/
def fieldBW (w : Command) : Pair := Fin.ofNat 8 (w.toNat / 2 ^ 13)

/-- Field `imm16`, bits 15:0 (R64). -/
def fieldImm (w : Command) : Imm := BitVec.ofNat 16 w.toNat

/-- Bits `lo + len - 1` down to `lo` of `w` are zero. -/
def zeroBits (w : Command) (lo len : Nat) : Bool := w.toNat / 2 ^ lo % 2 ^ len == 0

/-- Finish decoding a format: `unused` says that every unused field is zero (R66), `even` that every wide
field is even (R63). -/
def checkFields (unused even : Bool) (i : Instr) : Except DecodeError Instr :=
  if unused then
    if even then .ok i else .error .oddWideField
  else .error .nonzeroUnusedField

/-! ## The formats (R62) -/

/-- Format `RR` (R62): `mk` takes the operands in the order of the fields used. -/
def decodeRR (mk : Reg → Reg → Instr) (w : Command) : Except DecodeError Instr :=
  checkFields (zeroBits w 0 16) true (mk (fieldD w) (fieldA w))

/-- Format `RRW` (R62): `mk` takes the operands in the order of the fields used. -/
def decodeRRW (mk : Reg → Pair → Instr) (w : Command) : Except DecodeError Instr :=
  checkFields (zeroBits w 0 16) (zeroBits w 16 1) (mk (fieldD w) (fieldAW w))

/-- Format `RI` (R62): `mk` takes the operands in the order of the fields used. -/
def decodeRI (mk : Reg → Imm → Instr) (w : Command) : Except DecodeError Instr :=
  checkFields (zeroBits w 16 4) true (mk (fieldD w) (fieldImm w))

/-- Format `RRR` (R62): `mk` takes the operands in the order of the fields used. -/
def decodeRRR (mk : Reg → Reg → Reg → Instr) (w : Command) : Except DecodeError Instr :=
  checkFields (zeroBits w 0 12) true (mk (fieldD w) (fieldA w) (fieldB w))

/-- Format `WWW` (R62): `mk` takes the operands in the order of the fields used. -/
def decodeWWW (mk : Pair → Pair → Pair → Instr) (w : Command) : Except DecodeError Instr :=
  checkFields (zeroBits w 0 12) (zeroBits w 20 1 && zeroBits w 16 1 && zeroBits w 12 1) (mk (fieldDW w) (fieldAW w) (fieldBW w))

/-- Format `WRR` (R62): `mk` takes the operands in the order of the fields used. -/
def decodeWRR (mk : Pair → Reg → Reg → Instr) (w : Command) : Except DecodeError Instr :=
  checkFields (zeroBits w 0 12) (zeroBits w 20 1) (mk (fieldDW w) (fieldA w) (fieldB w))

/-- Format `WWR` (R62): `mk` takes the operands in the order of the fields used. -/
def decodeWWR (mk : Pair → Pair → Reg → Instr) (w : Command) : Except DecodeError Instr :=
  checkFields (zeroBits w 0 12) (zeroBits w 20 1 && zeroBits w 16 1) (mk (fieldDW w) (fieldAW w) (fieldB w))

/-- Format `RWR` (R62): `mk` takes the operands in the order of the fields used. -/
def decodeRWR (mk : Reg → Pair → Reg → Instr) (w : Command) : Except DecodeError Instr :=
  checkFields (zeroBits w 0 12) (zeroBits w 16 1) (mk (fieldD w) (fieldAW w) (fieldB w))

/-- Format `RRRR` (R62): `mk` takes the operands in the order of the fields used. -/
def decodeRRRR (mk : Reg → Reg → Reg → Reg → Instr) (w : Command) : Except DecodeError Instr :=
  checkFields (zeroBits w 0 8) true (mk (fieldD w) (fieldA w) (fieldB w) (fieldC w))

/-- Format `WWRR` (R62): `mk` takes the operands in the order of the fields used. -/
def decodeWWRR (mk : Pair → Pair → Reg → Reg → Instr) (w : Command) : Except DecodeError Instr :=
  checkFields (zeroBits w 0 8) (zeroBits w 20 1 && zeroBits w 16 1) (mk (fieldDW w) (fieldAW w) (fieldB w) (fieldC w))

/-- Format `RRI` (R62): `mk` takes the operands in the order of the fields used. -/
def decodeRRI (mk : Reg → Reg → Imm → Instr) (w : Command) : Except DecodeError Instr :=
  checkFields true true (mk (fieldD w) (fieldA w) (fieldImm w))

/-- Format `WWI` (R62): `mk` takes the operands in the order of the fields used. -/
def decodeWWI (mk : Pair → Pair → Imm → Instr) (w : Command) : Except DecodeError Instr :=
  checkFields true (zeroBits w 20 1 && zeroBits w 16 1) (mk (fieldDW w) (fieldAW w) (fieldImm w))

/-- Format `AB` (R62): `mk` takes the operands in the order of the fields used. -/
def decodeAB (mk : Reg → Reg → Instr) (w : Command) : Except DecodeError Instr :=
  checkFields (zeroBits w 20 4 && zeroBits w 0 12) true (mk (fieldA w) (fieldB w))

/-- Format `A` (R62): `mk` takes the operands in the order of the fields used. -/
def decodeA (mk : Reg → Instr) (w : Command) : Except DecodeError Instr :=
  checkFields (zeroBits w 20 4 && zeroBits w 0 16) true (mk (fieldA w))

/-- The command a word encodes, or why it encodes none (R65, R66, R69). -/
def decode (w : Command) : Except DecodeError Instr :=
  match fieldOp w with
  | 0x10 => decodeRR .mov w
  | 0x11 => decodeRI .ldi w
  | 0x20 => decodeRRR .addc w
  | 0x21 => decodeRRR .addw w
  | 0x22 => decodeRRR .subc w
  | 0x23 => decodeRRR .subw w
  | 0x24 => decodeWWW .wadd w
  | 0x25 => decodeWWW .wsub w
  | 0x30 => decodeWRR .mulx w
  | 0x31 => decodeRRR .mulc w
  | 0x32 => decodeRRR .mulw w
  | 0x40 => decodeRRRR (fun d a b c => .divrem d c a b) w
  | 0x41 => decodeRRR .div w
  | 0x42 => decodeRRR .rem w
  | 0x43 => decodeWWRR (fun d a b c => .wdivrem d c a b) w
  | 0x44 => decodeWWR .wdiv w
  | 0x45 => decodeRWR .wrem w
  | 0x50 => decodeRRI .shlw w
  | 0x51 => decodeRRI .shrw w
  | 0x52 => decodeRRI .shlo w
  | 0x53 => decodeRRI .shro w
  | 0x54 => decodeWWI .wshl w
  | 0x55 => decodeWWI .wshr w
  | 0x56 => decodeAB .cmp w
  | 0x57 => decodeRR .clz w
  | 0x58 => decodeRR .blen w
  | 0x60 => decodeRRI .inv2k w
  | 0x61 => decodeA .mpinit w
  | 0x62 => decodeRRW .redc w
  | 0x63 => decodeRR .tomont w
  | 0x64 => decodeRRR .mmul w
  | 0x65 => decodeRR .frommont w
  | 0x70 => decodeRRRR .mulmod w
  | 0x71 => decodeRRRR .modexp w
  | 0x72 => decodeRRR .mexpm w
  | _ => .error .unassignedOpcode

/-! ## Encoding (R65) -/

/-- `op*2^24 + d*2^20 + a*2^16 + b*2^12 + c*2^8`: a word of a register format (R65). -/
def wordOfRegs (op d a b c : Nat) : Command :=
  BitVec.ofNat 32 (op * 2 ^ 24 + d * 2 ^ 20 + a * 2 ^ 16 + b * 2 ^ 12 + c * 2 ^ 8)

/-- `op*2^24 + d*2^20 + a*2^16 + imm16`: a word of an immediate format (R65). -/
def wordOfImm (op d a imm : Nat) : Command :=
  BitVec.ofNat 32 (op * 2 ^ 24 + d * 2 ^ 20 + a * 2 ^ 16 + imm)

/-- The opcode byte of an instruction (R65). -/
def Instr.opcode : Instr → Nat
  | .mov _ _ => 0x10
  | .ldi _ _ => 0x11
  | .addc _ _ _ => 0x20
  | .addw _ _ _ => 0x21
  | .subc _ _ _ => 0x22
  | .subw _ _ _ => 0x23
  | .wadd _ _ _ => 0x24
  | .wsub _ _ _ => 0x25
  | .mulx _ _ _ => 0x30
  | .mulc _ _ _ => 0x31
  | .mulw _ _ _ => 0x32
  | .divrem _ _ _ _ => 0x40
  | .div _ _ _ => 0x41
  | .rem _ _ _ => 0x42
  | .wdivrem _ _ _ _ => 0x43
  | .wdiv _ _ _ => 0x44
  | .wrem _ _ _ => 0x45
  | .shlw _ _ _ => 0x50
  | .shrw _ _ _ => 0x51
  | .shlo _ _ _ => 0x52
  | .shro _ _ _ => 0x53
  | .wshl _ _ _ => 0x54
  | .wshr _ _ _ => 0x55
  | .cmp _ _ => 0x56
  | .clz _ _ => 0x57
  | .blen _ _ => 0x58
  | .inv2k _ _ _ => 0x60
  | .mpinit _ => 0x61
  | .redc _ _ => 0x62
  | .tomont _ _ => 0x63
  | .mmul _ _ _ => 0x64
  | .frommont _ _ => 0x65
  | .mulmod _ _ _ _ => 0x70
  | .modexp _ _ _ _ => 0x71
  | .mexpm _ _ _ => 0x72

/-- The mnemonic of an instruction (R19, R65). -/
def Instr.mnemonic : Instr → String
  | .mov _ _ => "MOV"
  | .ldi _ _ => "LDI"
  | .addc _ _ _ => "ADDC"
  | .addw _ _ _ => "ADDW"
  | .subc _ _ _ => "SUBC"
  | .subw _ _ _ => "SUBW"
  | .wadd _ _ _ => "WADD"
  | .wsub _ _ _ => "WSUB"
  | .mulx _ _ _ => "MULX"
  | .mulc _ _ _ => "MULC"
  | .mulw _ _ _ => "MULW"
  | .divrem _ _ _ _ => "DIVREM"
  | .div _ _ _ => "DIV"
  | .rem _ _ _ => "REM"
  | .wdivrem _ _ _ _ => "WDIVREM"
  | .wdiv _ _ _ => "WDIV"
  | .wrem _ _ _ => "WREM"
  | .shlw _ _ _ => "SHLW"
  | .shrw _ _ _ => "SHRW"
  | .shlo _ _ _ => "SHLO"
  | .shro _ _ _ => "SHRO"
  | .wshl _ _ _ => "WSHL"
  | .wshr _ _ _ => "WSHR"
  | .cmp _ _ => "CMP"
  | .clz _ _ => "CLZ"
  | .blen _ _ => "BLEN"
  | .inv2k _ _ _ => "INV2K"
  | .mpinit _ => "MPINIT"
  | .redc _ _ => "REDC"
  | .tomont _ _ => "TOMONT"
  | .mmul _ _ _ => "MMUL"
  | .frommont _ _ => "FROMMONT"
  | .mulmod _ _ _ _ => "MULMOD"
  | .modexp _ _ _ _ => "MODEXP"
  | .mexpm _ _ _ => "MEXPM"

/-- The command word of an instruction (R61, R65); a wide pair `w<k>` is encoded as `2k` (R63) and an unused
field as zero (R66). -/
def encode (i : Instr) : Command :=
  match i with
  | .mov d a => wordOfRegs 0x10 d.val a.val 0 0
  | .ldi d imm => wordOfImm 0x11 d.val 0 imm.toNat
  | .addc d a b => wordOfRegs 0x20 d.val a.val b.val 0
  | .addw d a b => wordOfRegs 0x21 d.val a.val b.val 0
  | .subc d a b => wordOfRegs 0x22 d.val a.val b.val 0
  | .subw d a b => wordOfRegs 0x23 d.val a.val b.val 0
  | .wadd d a b => wordOfRegs 0x24 (2 * d.val) (2 * a.val) (2 * b.val) 0
  | .wsub d a b => wordOfRegs 0x25 (2 * d.val) (2 * a.val) (2 * b.val) 0
  | .mulx d a b => wordOfRegs 0x30 (2 * d.val) a.val b.val 0
  | .mulc d a b => wordOfRegs 0x31 d.val a.val b.val 0
  | .mulw d a b => wordOfRegs 0x32 d.val a.val b.val 0
  | .divrem d c a b => wordOfRegs 0x40 d.val a.val b.val c.val
  | .div d a b => wordOfRegs 0x41 d.val a.val b.val 0
  | .rem d a b => wordOfRegs 0x42 d.val a.val b.val 0
  | .wdivrem d c a b => wordOfRegs 0x43 (2 * d.val) (2 * a.val) b.val c.val
  | .wdiv d a b => wordOfRegs 0x44 (2 * d.val) (2 * a.val) b.val 0
  | .wrem d a b => wordOfRegs 0x45 d.val (2 * a.val) b.val 0
  | .shlw d a imm => wordOfImm 0x50 d.val a.val imm.toNat
  | .shrw d a imm => wordOfImm 0x51 d.val a.val imm.toNat
  | .shlo d a imm => wordOfImm 0x52 d.val a.val imm.toNat
  | .shro d a imm => wordOfImm 0x53 d.val a.val imm.toNat
  | .wshl d a imm => wordOfImm 0x54 (2 * d.val) (2 * a.val) imm.toNat
  | .wshr d a imm => wordOfImm 0x55 (2 * d.val) (2 * a.val) imm.toNat
  | .cmp a b => wordOfRegs 0x56 0 a.val b.val 0
  | .clz d a => wordOfRegs 0x57 d.val a.val 0 0
  | .blen d a => wordOfRegs 0x58 d.val a.val 0 0
  | .inv2k d a imm => wordOfImm 0x60 d.val a.val imm.toNat
  | .mpinit a => wordOfRegs 0x61 0 a.val 0 0
  | .redc d a => wordOfRegs 0x62 d.val (2 * a.val) 0 0
  | .tomont d a => wordOfRegs 0x63 d.val a.val 0 0
  | .mmul d a b => wordOfRegs 0x64 d.val a.val b.val 0
  | .frommont d a => wordOfRegs 0x65 d.val a.val 0 0
  | .mulmod d a b c => wordOfRegs 0x70 d.val a.val b.val c.val
  | .modexp d a b c => wordOfRegs 0x71 d.val a.val b.val c.val
  | .mexpm d a b => wordOfRegs 0x72 d.val a.val b.val 0

/-! ## Pseudo-instructions (R71) -/

/-- `CLR rd` is `LDI rd, 0`. -/
def Instr.clr (d : Reg) : Instr := .ldi d 0

/-- `SQRX wd, ra` is `MULX wd, ra, ra`. -/
def Instr.sqrx (d : Pair) (a : Reg) : Instr := .mulx d a a

/-- `MSQR rd, ra` is `MMUL rd, ra, ra`. -/
def Instr.msqr (d a : Reg) : Instr := .mmul d a a

/-! ## The host's reading of a table word -/

/-- The instruction the decoder reads from a command whose bits are the low `nbits` bits of `w`, every bit
above them zero (a command is one 32-bit word and has no byte order, R45, R60). -/
def decodeTableWord (nbits w : Nat) : Option Instr :=
  (decode (BitVec.ofNat 32 (w % 2 ^ nbits))).toOption

end Sys2Proof
end

