-- ==== Sys2Proof/Machine/State.lean ====
section
/-! DEFINITION. The state of one block (10_state.md R20) as plain data, with the host's side of the port, and
the state after reset. There is no program counter (R28) and no memory (R40). -/

namespace Sys2Proof.Machine

/-- The Montgomery parameter bank `MP` (R25): four fixed values. Whether it holds a valid set is the flag
`MPV` of the status register. -/
structure Bank where
  /-- `MP.n`, the modulus. -/
  n : Fixed
  /-- `MP.r1`, the stored residue `(MAXV mod n) + 1`. -/
  r1 : Fixed
  /-- `MP.r2`, `RADIX^2 mod n`. -/
  r2 : Fixed
  /-- `MP.ninv`, `-n^-1 mod RADIX`. -/
  ninv : Fixed
deriving DecidableEq, Repr

/-- The status register `STATUS` (R27): its named flags and fields. Its other bits read as 0 and cannot be
written (U5), so they are not stored; `Status.toWord` is the word the port shows. -/
structure Status where
  /-- bit 0: carry or borrow out of the last add or subtract command. -/
  c : Bool
  /-- bit 1: loss flag of the last overflow-reporting shift. -/
  v : Bool
  /-- bit 2: the last compare found the operands equal. -/
  eq : Bool
  /-- bit 3: the last compare found the first operand less. -/
  lt : Bool
  /-- bit 4: the last command that can report no result did so. -/
  nr : Bool
  /-- bit 5: the bank holds valid parameters. -/
  mpv : Bool
  /-- bit 8: the block has faulted. -/
  fault : Bool
  /-- bits 15:12: the cause code, 0 when `fault` is false (R231). -/
  cause : BitVec 4
deriving DecidableEq, Repr

/-- The fault causes of R231 that a command can raise. -/
inductive Cause where
  | overflow
  | divzero
  | zeromod
  | illegal
  | noparams
deriving DecidableEq, Repr

/-- The transactions a host can make (R49): the only things that happen to a block. -/
inductive Transaction where
  /-- `PortRead(addr)` (R43). -/
  | read (addr : PortAddr)
  /-- `PortWrite(addr, v)` (R44). -/
  | write (addr : PortAddr) (v : Word)
  /-- `Issue(cmd)` (R46). -/
  | issue (cmd : Command)
  /-- reset (R255). -/
  | reset
deriving DecidableEq, Repr

/-- Why a step of the model stops: NEVER. A contract violation of the block is the latched fault of R232, a next
state in which the host can go on reading; no transaction and no command stops the block in any other way
(R241, R260). So the type has no constructor, which is safe: nothing is hidden behind a stop. -/
inductive Fault where
deriving DecidableEq, Repr

/-- Why an instruction has no meaning in the model. -/
inductive Refusal where
  /-- The instruction named has no meaning yet: raised only by a refused arm of `exec`, of which there is none
  in this model. Safe: a refusal proves nothing about the block. -/
  | notModelled (mnemonic : String)
deriving DecidableEq, Repr

/-- One block and the host's side of its port. The fields `words` to `fcmd` are the block's (R20, R10); the last
three are the model's own (R33, log entries 2, 4 and 5) and no command reads or writes them. -/
structure State where
  /-- `N`, the word count the block was built with (R10); no step changes it. -/
  words : Nat
  /-- The data registers `r[0]` to `r[15]` (R21). -/
  regs : Vector Fixed 16
  /-- The Montgomery parameter bank (R25). -/
  mp : Bank
  /-- The status register (R27). -/
  status : Status
  /-- The fault command register, bits 31:0 (R30). -/
  fcmd : Command
  /-- The host's transactions not yet made, oldest first (R33, R49). -/
  pending : List Transaction
  /-- The words that port reads have returned to the host, latest first (R43). -/
  replies : List Word
  /-- How many reset transactions have been made: it selects the free values of the next one. -/
  resets : Nat
deriving DecidableEq, Repr

/-- `STATUS` after reset: 0 in every bit (R34). -/
def Status.reset : Status :=
  { c := false, v := false, eq := false, lt := false, nr := false, mpv := false, fault := false, cause := 0 }

/-- A block of `n` words right after reset (R34, R255, R257): `STATUS` and `FCMD` are 0. The data registers and
the bank, which the spec leaves unspecified (R35), hold zero: DESIGN CHOICE (log entry 3), unsafe. No transaction
is pending. -/
def State.resetFor (n : Nat) : State :=
  { words := n
    regs := Vector.replicate 16 (List.replicate n 0)
    mp := { n := List.replicate n 0, r1 := List.replicate n 0, r2 := List.replicate n 0, ninv := List.replicate n 0 }
    status := Status.reset
    fcmd := 0
    pending := []
    replies := []
    resets := 0 }

/-- The machine right after reset, with the word count of `Config.resetWords` (log entry 1). -/
def State.reset : State := State.resetFor Config.resetWords

end Sys2Proof.Machine
end

