-- ==== Sys2Proof/Machine/Operands.lean ====
section
/-! DEFINITION. Values (00_scope.md R11, R14, R15) and operand forms (30_encoding.md R63, R64): the numbers words
stand for, the words of a number, the registers of a wide pair. -/

namespace Sys2Proof.Machine

/-- `B`, the bits of a single-width value (R11). -/
def bitsOf (n : Nat) : Nat := 64 * n

/-- `RADIX = 2^B` (R11). -/
def radix (n : Nat) : Nat := 2 ^ (64 * n)

/-- `MAXV = 2^B - 1`, the all-ones value (R11). -/
def maxv (n : Nat) : Nat := radix n - 1

/-- `val(x) = x[0] + x[1]*2^64 + ...` (R14); on any word sequence, the spec's `sval`. -/
def val : Fixed → Nat
  | [] => 0
  | w :: ws => w.toNat + 2 ^ 64 * val ws

/-- The `n` words of the number `v`, word 0 first: the spec's `fix(v)` when `v < RADIX` (R14), and the words of
`v mod RADIX` for any `v`. -/
def fix : Nat → Nat → Fixed
  | 0, _ => []
  | n + 1, v => BitVec.ofNat 64 v :: fix n (v / 2 ^ 64)

/-- `zext(v)`: a small number as a fixed value (R16). -/
def zext (n v : Nat) : Fixed := fix n v

/-- `wval(lo, hi) = val(hi)*RADIX + val(lo)` (R15). -/
def wval (n : Nat) (x : Wide) : Nat := val x.2 * radix n + val x.1

/-- `wide(v)`: the pair of halves of `v` (R15), of `v mod RADIX^2` for any `v`. -/
def wide (n v : Nat) : Wide := (fix n v, fix n (v / radix n))

/-- A wide value as its 2N words, `lo` then `hi` (R15). -/
def wideWords (x : Wide) : Fixed := x.1 ++ x.2

/-- The first `n` and the next `n` words of a sequence as a wide value (R15). -/
def wideOfWords (n : Nat) (ws : Fixed) : Wide := (ws.take n, ws.drop n)

/-- Word `i` of a value; 0 past its end. -/
def wordAt (x : Fixed) (i : Nat) : Word := x.getD i 0

/-- The data register that holds the low half of a pair, `r[2k]` (R23). -/
def pairLo (k : Pair) : Reg := ⟨2 * k.val, by omega⟩

/-- The data register that holds the high half of a pair, `r[2k+1]` (R23). -/
def pairHi (k : Pair) : Reg := ⟨2 * k.val + 1, by omega⟩

/-- Bit 0 of a value's word 0 is 1: the value is odd (R166, R168). -/
def isOdd (x : Fixed) : Bool := (wordAt x 0).toNat % 2 == 1

end Sys2Proof.Machine
end

