-- ==== Sys2Proof/Machine/Flags.lean ====
section
/-! DEFINITION. The status register's word (R27), the cause codes (R231), the `FCMD` and `CONFIG` words (R30, R31), and the
flag writes of R27 and R29, one per writer. -/

namespace Sys2Proof.Machine

/-- The cause codes of R231. -/
def Cause.code : Cause → BitVec 4
  | .overflow => 1
  | .divzero => 2
  | .zeromod => 3
  | .illegal => 4
  | .noparams => 5

/-- `STATUS` as the port shows it (R27): `C` in bit 0, `V` 1, `EQ` 2, `LT` 3, `NR` 4, `MPV` 5, `FAULT` 8, `CAUSE` in
bits 15:12, every other bit 0. -/
def Status.toWord (f : Status) : Word :=
  BitVec.ofNat 64 (f.c.toNat + 2 ^ 1 * f.v.toNat + 2 ^ 2 * f.eq.toNat + 2 ^ 3 * f.lt.toNat + 2 ^ 4 * f.nr.toNat +
    2 ^ 5 * f.mpv.toNat + 2 ^ 8 * f.fault.toNat + 2 ^ 12 * f.cause.toNat)

/-- `FCMD` as the port shows it: bits 63:32 read as 0 (R30). -/
def fcmdWord (cmd : Command) : Word := cmd.zeroExtend 64

/-- `CONFIG` (R31): bits 15:0 = `N`, 23:16 = 64, 31:24 = 16, 63:32 = 0. -/
def configWord (n : Nat) : Word :=
  BitVec.ofNat 64 (n % 2 ^ 16 + 2 ^ 16 * Config.wordBits + 2 ^ 24 * Config.numRegs)

/-- `STATUS.C <- b`, by the six add and subtract commands only (R27). -/
def State.setC (s : State) (b : Bool) : State := { s with status := { s.status with c := b } }

/-- `STATUS.V <- b`, by `SHLO` and `SHRO` only (R27). -/
def State.setV (s : State) (b : Bool) : State := { s with status := { s.status with v := b } }

/-- `STATUS.EQ` and `STATUS.LT` from a three-way comparison, by `CMP` only (R27, R151). -/
def State.setCompare (s : State) (o : Ordering) : State :=
  { s with status := { s.status with eq := o == .eq, lt := o == .lt } }

/-- `STATUS.NR <- b`, by `INV2K` and `MPINIT` only (R27, R240). -/
def State.setNr (s : State) (b : Bool) : State := { s with status := { s.status with nr := b } }

end Sys2Proof.Machine
end

