-- ==== Sys2Proof/Machine/Ops.lean ====
section
/-! DEFINITION. The named operations over the register file, the bank and the fault latch, which the meanings share:
register and pair access (R16, R23), loading the bank (R26), fault entry (R232), the no-result outcome (R240) and
reset (R255). There is no memory and no return from a fault (R40, R234). -/

namespace Sys2Proof.Machine

/-- The outcome of a command or a step. -/
abbrev Result := Host.Outcome State Fault Refusal

/-- `r[i]` read (R16). -/
def State.reg (s : State) (i : Reg) : Fixed := s.regs[i]

/-- `r[i] <- v` (R16): no register is hardwired (R21). -/
def State.setReg (s : State) (i : Reg) (v : Fixed) : State := { s with regs := s.regs.set i v }

/-- `w[k]` read: `(r[2k], r[2k+1])` (R23). -/
def State.pair (s : State) (k : Pair) : Wide := (s.reg (pairLo k), s.reg (pairHi k))

/-- `w[k] <- (lo, hi)`: both halves (R16, R23). -/
def State.setPair (s : State) (k : Pair) (x : Wide) : State :=
  (s.setReg (pairLo k) x.1).setReg (pairHi k) x.2

/-- Load the bank and make it valid, all together (R26, R175). -/
def State.loadBank (s : State) (p : Bank) : State :=
  { s with mp := p, status := { s.status with mpv := true } }

/-- `raise Fault(cause)` during the command `cmd` (R232): `FAULT <- 1`, `CAUSE <- code`, `FCMD <- cmd`, and nothing
else. Control goes nowhere: there is no handler. -/
def State.raise (s : State) (cause : Cause) (cmd : Command) : State :=
  { s with status := { s.status with fault := true, cause := cause.code }, fcmd := cmd }

/-- The command `i` ends in `Fault(cause)`. The word recorded is `encode i`, which is the word that was issued,
since a legal word has every unused bit zero (R66; log entry 6). -/
def faultWith (i : Instr) (cause : Cause) (s : State) : Result := .next (s.raise cause (encode i))

/-- `NoResult` (R240): `NR <- 1` and nothing else; not a fault. -/
def noResult (s : State) : Result := .next (s.setNr true)

/-- The words of one slot (0 to 15 the data registers, 16 to 19 the bank) after the reset transaction numbered `k`:
unspecified (R35, R255), so free values (log entry 2). -/
def freeFixed (n k slot : Nat) : Fixed := (List.range n).map (Config.freeWord k slot)

/-- The reset transaction (R255): `STATUS` and `FCMD` are 0, every word of the data registers and of the bank is
unspecified. It works in every state, the faulted one too (R233). -/
def State.resetBlock (s : State) : State :=
  { s with
    regs := Vector.ofFn fun i => freeFixed s.words s.resets i.val
    mp := { n := freeFixed s.words s.resets 16, r1 := freeFixed s.words s.resets 17,
            r2 := freeFixed s.words s.resets 18, ninv := freeFixed s.words s.resets 19 }
    status := Status.reset
    fcmd := 0
    resets := s.resets + 1 }

end Sys2Proof.Machine
end

