-- ==== Sys2Proof/Machine/WordPrim.lean ====
section
/-! DEFINITION. The word primitives (40_word_primitives.md): the cells of the word-level algorithms. They are
not commands; each widens to an exact integer, computes, and splits. -/

namespace Sys2Proof.Machine

/-- `add_with_carry(a, b, cin) -> (sum, cout)` (R80). -/
def addWithCarry (a b cin : Word) : Word × Word :=
  (BitVec.ofNat 64 (a.toNat + b.toNat + cin.toNat), BitVec.ofNat 64 ((a.toNat + b.toNat + cin.toNat) / 2 ^ 64))

/-- A borrow in of any nonzero value counts as 1 (R81). -/
def borrowIn (bin : Word) : Nat := if bin = 0 then 0 else 1

/-- `sub_with_borrow(a, b, bin) -> (diff, bout)` (R81): the exact difference modulo `2^64`, and 1 when it is
negative. -/
def subWithBorrow (a b bin : Word) : Word × Word :=
  (BitVec.ofInt 64 ((a.toNat : Int) - b.toNat - borrowIn bin),
    if (a.toNat : Int) - b.toNat - borrowIn bin < 0 then 1 else 0)

/-- `mul_add_with_carry(a, b, c, cin) -> (low, high)` (R82): `a + b*c + cin` in double precision. -/
def mulAddWithCarry (a b c cin : Word) : Word × Word :=
  (BitVec.ofNat 64 (a.toNat + b.toNat * c.toNat + cin.toNat),
    BitVec.ofNat 64 ((a.toNat + b.toNat * c.toNat + cin.toNat) / 2 ^ 64))

/-- `word_shl(a, s) -> (res, ovf)` for `s < 64` (R83). -/
def wordShl (a : Word) (s : Nat) : Word × Bool :=
  (BitVec.ofNat 64 (a.toNat * 2 ^ s), decide (a.toNat * 2 ^ s / 2 ^ 64 ≠ 0))

/-- `word_shr(a, s) -> (res, ovf)` for `s < 64` (R84). -/
def wordShr (a : Word) (s : Nat) : Word × Bool :=
  (BitVec.ofNat 64 (a.toNat / 2 ^ s), decide (a.toNat % 2 ^ s ≠ 0))

/-- The bit length of a number: the least `L` with `v < 2^L` (R85, R144). -/
def bitLen (v : Nat) : Nat := if v = 0 then 0 else Nat.log2 v + 1

/-- `word_clz(a)`: `64 - len(a)` (R85). -/
def wordClz (a : Word) : Nat := 64 - bitLen a.toNat

end Sys2Proof.Machine
end

