-- ==== Sys2Proof/Machine/AddSub.lean ====
section
/-! DEFINITION. The carry-ripple adder/subtractor and data movement (41_addsub.md). Section 1 gives each function by its
integer equation, which R17 makes the meaning, and beside it the word-level ripple of the spec's pseudocode
(names ending in `Words`); that the two agree is stated in the obligations. Section 2 holds the commands. -/

namespace Sys2Proof.Machine

/-! ## Functions -/

/-- `fx_add(x, y, cin) -> (s, cout)` (R90): `val(s) = (val(x) + val(y) + cin) mod RADIX`, `cout` the quotient. -/
def fxAdd (n : Nat) (x y : Fixed) (cin : Nat) : Fixed × Nat :=
  (fix n (val x + val y + cin), (val x + val y + cin) / radix n)

/-- `fx_sub(x, y, bin) -> (s, bout)` (R91): `val(s) = (val(x) - val(y) - bin) mod RADIX`, `bout = 1` exactly when
the difference is negative. -/
def fxSub (n : Nat) (x y : Fixed) (bin : Nat) : Fixed × Nat :=
  (fix n (((val x : Int) - val y - bin) % (radix n : Int)).toNat,
    if (val x : Int) - val y - bin < 0 then 1 else 0)

/-- `wide_add(x, y) -> (s, cout)` (R92): `wval(s) = (wval(x) + wval(y)) mod RADIX^2`, `cout` the quotient. -/
def wideAdd (n : Nat) (x y : Wide) : Wide × Nat :=
  (wide n (wval n x + wval n y), (wval n x + wval n y) / (radix n) ^ 2)

/-- `wide_sub(x, y) -> (s, bout)` (R93): `wval(s) = (wval(x) - wval(y)) mod RADIX^2`, `bout = 1` exactly when
`wval(x) < wval(y)`. -/
def wideSub (n : Nat) (x y : Wide) : Wide × Nat :=
  (wide n (((wval n x : Int) - wval n y) % ((radix n) ^ 2 : Nat)).toNat, if wval n x < wval n y then 1 else 0)

/-- The ripple of R90: `add_with_carry` from the least significant word, the carry threaded upwards. -/
def fxAddWords : Fixed → Fixed → Word → Fixed × Word
  | x :: xs, y :: ys, c =>
    let (s, c1) := addWithCarry x y c
    let (ss, cout) := fxAddWords xs ys c1
    (s :: ss, cout)
  | _, _, c => ([], c)

/-- The ripple of R91: `sub_with_borrow` from the least significant word, the borrow threaded upwards. -/
def fxSubWords : Fixed → Fixed → Word → Fixed × Word
  | x :: xs, y :: ys, c =>
    let (s, c1) := subWithBorrow x y c
    let (ss, bout) := fxSubWords xs ys c1
    (s :: ss, bout)
  | _, _, c => ([], c)

/-- The chain of R92: the carry out of the low half goes into the high half. -/
def wideAddWords (x y : Wide) : Wide × Word :=
  let (sl, c) := fxAddWords x.1 y.1 0
  let (sh, cout) := fxAddWords x.2 y.2 c
  ((sl, sh), cout)

/-- The chain of R93: the borrow out of the low half goes into the high half. -/
def wideSubWords (x y : Wide) : Wide × Word :=
  let (sl, c) := fxSubWords x.1 y.1 0
  let (sh, bout) := fxSubWords x.2 y.2 c
  ((sl, sh), bout)

/-! ## Commands -/

/-- `MOV rd, ra`: `r[d] <- r[a]` (R95). -/
def execMov (d a : Reg) (s : State) : Result := .next (s.setReg d (s.reg a))

/-- `LDI rd, imm16`: `r[d] <- zext(imm16)` (R96). -/
def execLdi (d : Reg) (imm : Imm) (s : State) : Result := .next (s.setReg d (zext s.words imm.toNat))

/-- `ADDC rd, ra, rb`, checked add (R97). -/
def execAddc (d a b : Reg) (s : State) : Result :=
  let (v, c) := fxAdd s.words (s.reg a) (s.reg b) 0
  if c = 1 then faultWith (.addc d a b) .overflow s
  else .next ((s.setReg d v).setC false)

/-- `ADDW rd, ra, rb`, wrapping add (R98): `C` records the discarded carry. -/
def execAddw (d a b : Reg) (s : State) : Result :=
  let (v, c) := fxAdd s.words (s.reg a) (s.reg b) 0
  .next ((s.setReg d v).setC (c == 1))

/-- `SUBC rd, ra, rb`, checked subtract (R99). -/
def execSubc (d a b : Reg) (s : State) : Result :=
  let (v, c) := fxSub s.words (s.reg a) (s.reg b) 0
  if c = 1 then faultWith (.subc d a b) .overflow s
  else .next ((s.setReg d v).setC false)

/-- `SUBW rd, ra, rb`, wrapping subtract (R100): `C` records the borrow. -/
def execSubw (d a b : Reg) (s : State) : Result :=
  let (v, c) := fxSub s.words (s.reg a) (s.reg b) 0
  .next ((s.setReg d v).setC (c == 1))

/-- `WADD wd, wa, wb` (R101): wraps at `RADIX^2`, `C` records the carry out of the high half. -/
def execWadd (d a b : Pair) (s : State) : Result :=
  let (v, c) := wideAdd s.words (s.pair a) (s.pair b)
  .next ((s.setPair d v).setC (c == 1))

/-- `WSUB wd, wa, wb` (R102): wraps at `RADIX^2`, `C` records the borrow out of the high half. -/
def execWsub (d a b : Pair) (s : State) : Result :=
  let (v, c) := wideSub s.words (s.pair a) (s.pair b)
  .next ((s.setPair d v).setC (c == 1))

end Sys2Proof.Machine
end

