-- ==== Sys2Proof/Machine/Multiply.lean ====
section
/-! DEFINITION. The multiplier, N words by N words to 2N words (42_multiply.md). Only the exact product is
architectural (R111); the schoolbook algorithm of R110 stands beside it at word level. -/

namespace Sys2Proof.Machine

/-! ## Function -/

/-- `fx_mul(x, y) -> (lo, hi)` (R110): `wval(lo, hi) = val(x) * val(y)`, exactly. -/
def fxMul (n : Nat) (x y : Fixed) : Wide := wide n (val x * val y)

/-- One row of R110's inner loop, from `buf[i]` on: `buf[i+j] + x[i]*y[j] + carry` word by word over `y`, then
`buf[i+N] = carry`. -/
def mulRowWords : Fixed → Word → Fixed → Word → Fixed
  | b :: bs, x, y :: ys, carry =>
    let (lo, hi) := mulAddWithCarry b x y carry
    lo :: mulRowWords bs x ys hi
  | bs, _, [], carry => carry :: bs.tail
  | [], _, _ :: _, _ => []

/-- R110's outer loop over the words of `x`: word `i` of the buffer is final after the row of `x[i]`. -/
def mulRowsWords (buf : Fixed) : Fixed → Fixed → Fixed
  | [], _ => buf
  | x :: xs, ys =>
    match mulRowWords buf x ys 0 with
    | [] => []
    | b :: bs => b :: mulRowsWords bs xs ys

/-- The schoolbook multiplication of R110 over a buffer of 2N zero words. -/
def fxMulWords (n : Nat) (x y : Fixed) : Wide :=
  wideOfWords n (mulRowsWords (List.replicate (2 * n) 0) x y)

/-! ## Commands -/

/-- `MULX wd, ra, rb`, full multiply (R112). -/
def execMulx (d : Pair) (a b : Reg) (s : State) : Result :=
  .next (s.setPair d (fxMul s.words (s.reg a) (s.reg b)))

/-- `MULC rd, ra, rb`, checked multiply (R113). -/
def execMulc (d a b : Reg) (s : State) : Result :=
  let (lo, hi) := fxMul s.words (s.reg a) (s.reg b)
  if val hi ≠ 0 then faultWith (.mulc d a b) .overflow s
  else .next (s.setReg d lo)

/-- `MULW rd, ra, rb`, wrapping multiply (R114): the high half is dropped. -/
def execMulw (d a b : Reg) (s : State) : Result :=
  let (lo, _) := fxMul s.words (s.reg a) (s.reg b)
  .next (s.setReg d lo)

end Sys2Proof.Machine
end

