-- ==== Sys2Proof/Machine/ShiftCompare.lean ====
section
/-! DEFINITION. The shifter, comparator and leading-zero counter (44_shift_compare.md), over sequences of `L` words:
`L = N` for fixed values, `L = 2N` for wide values (`lo` then `hi`). The integer equations are the meaning (R17);
the word-level forms of the pseudocode stand beside them. -/

namespace Sys2Proof.Machine

/-! ## Functions -/

/-- `seq_shl(x, s)` (R140): `sval(y) = (sval(x) * 2^s) mod 2^(64*L)`; a count of `64*L` or more gives 0. -/
def seqShl (l : Nat) (x : Fixed) (s : Nat) : Fixed :=
  if s ≥ 64 * l then fix l 0 else fix l (val x * 2 ^ s)

/-- `seq_shr(x, s)` (R141): `sval(y) = sval(x) div 2^s`; a count of `64*L` or more gives 0. -/
def seqShr (l : Nat) (x : Fixed) (s : Nat) : Fixed :=
  if s ≥ 64 * l then fix l 0 else fix l (val x / 2 ^ s)

/-- `seq_shl_ovf(x, s) = (y, v)` (R142): loss is detected by shifting back and comparing. -/
def seqShlOvf (l : Nat) (x : Fixed) (s : Nat) : Fixed × Bool :=
  (seqShl l x s, decide (seqShr l (seqShl l x s) s ≠ x))

/-- `seq_shr_ovf(x, s) = (y, v)` (R142). -/
def seqShrOvf (l : Nat) (x : Fixed) (s : Nat) : Fixed × Bool :=
  (seqShr l x s, decide (seqShl l (seqShr l x s) s ≠ x))

/-- `seq_cmp(x, y)` (R143): the order of `sval(x)` and `sval(y)`; LESS, EQUAL, GREATER are `lt`, `eq`, `gt`. -/
def seqCmp (x y : Fixed) : Ordering :=
  if val x < val y then .lt else if val x = val y then .eq else .gt

/-- `seq_bitlen(x)` (R144): the least `n` with `sval(x) < 2^n`. -/
def seqBitlen (x : Fixed) : Nat := bitLen (val x)

/-- `seq_lz(x)` (R144): `64*L` less the bit length. -/
def seqLz (l : Nat) (x : Fixed) : Nat := 64 * l - seqBitlen x

/-! ## Word-level forms -/

/-- Word `i` of R140's result, with `k` the whole-word shift and `t` the sub-word shift. -/
def shlWordAt (x : Fixed) (k t i : Nat) : Word :=
  (if i ≥ k then (wordShl (wordAt x (i - k)) t).1 else 0) +
    (if t > 0 ∧ i ≥ k + 1 then BitVec.ofNat 64 ((wordAt x (i - k - 1)).toNat / 2 ^ (64 - t)) else 0)

/-- R140's word-level shift left: `s` split into whole words and a sub-word part. -/
def seqShlWords (l : Nat) (x : Fixed) (s : Nat) : Fixed :=
  if s ≥ 64 * l then List.replicate l 0
  else (List.range l).map (shlWordAt x (s / 64) (s % 64))

/-- Word `i` of R141's result. -/
def shrWordAt (l : Nat) (x : Fixed) (k t i : Nat) : Word :=
  (if i + k ≤ l - 1 then (wordShr (wordAt x (i + k)) t).1 else 0) +
    (if t > 0 ∧ i + k + 2 ≤ l then BitVec.ofNat 64 ((wordAt x (i + k + 1)).toNat * 2 ^ (64 - t)) else 0)

/-- R141's word-level shift right. -/
def seqShrWords (l : Nat) (x : Fixed) (s : Nat) : Fixed :=
  if s ≥ 64 * l then List.replicate l 0
  else (List.range l).map (shrWordAt l x (s / 64) (s % 64))

/-- R143's comparison from the most significant word down, on the words in that order. -/
def cmpFromTop : Fixed → Fixed → Ordering
  | x :: xs, y :: ys => if x.toNat < y.toNat then .lt else if y.toNat < x.toNat then .gt else cmpFromTop xs ys
  | _, _ => .eq

/-- `seq_cmp` word by word (R143). -/
def seqCmpWords (x y : Fixed) : Ordering := cmpFromTop x.reverse y.reverse

/-- R144's scan from the most significant word, on the words in that order. -/
def lzFromTop : Fixed → Nat
  | [] => 0
  | w :: ws => if w = 0 then 64 + lzFromTop ws else wordClz w

/-- `seq_lz` word by word (R144). -/
def seqLzWords (x : Fixed) : Nat := lzFromTop x.reverse

/-! ## Commands -/

/-- `SHLW rd, ra, imm16` (R145). -/
def execShlw (d a : Reg) (imm : Imm) (s : State) : Result :=
  .next (s.setReg d (seqShl s.words (s.reg a) imm.toNat))

/-- `SHRW rd, ra, imm16` (R146). -/
def execShrw (d a : Reg) (imm : Imm) (s : State) : Result :=
  .next (s.setReg d (seqShr s.words (s.reg a) imm.toNat))

/-- `SHLO rd, ra, imm16` (R147). -/
def execShlo (d a : Reg) (imm : Imm) (s : State) : Result :=
  let (y, v) := seqShlOvf s.words (s.reg a) imm.toNat
  .next ((s.setReg d y).setV v)

/-- `SHRO rd, ra, imm16` (R148). -/
def execShro (d a : Reg) (imm : Imm) (s : State) : Result :=
  let (y, v) := seqShrOvf s.words (s.reg a) imm.toNat
  .next ((s.setReg d y).setV v)

/-- `WSHL wd, wa, imm16` (R149): the shift spans the 2N words. -/
def execWshl (d a : Pair) (imm : Imm) (s : State) : Result :=
  .next (s.setPair d (wideOfWords s.words (seqShl (2 * s.words) (wideWords (s.pair a)) imm.toNat)))

/-- `WSHR wd, wa, imm16` (R150). -/
def execWshr (d a : Pair) (imm : Imm) (s : State) : Result :=
  .next (s.setPair d (wideOfWords s.words (seqShr (2 * s.words) (wideWords (s.pair a)) imm.toNat)))

/-- `CMP ra, rb` (R151). -/
def execCmp (a b : Reg) (s : State) : Result :=
  .next (s.setCompare (seqCmp (s.reg a) (s.reg b)))

/-- `CLZ rd, ra` (R152). -/
def execClz (d a : Reg) (s : State) : Result :=
  .next (s.setReg d (zext s.words (seqLz s.words (s.reg a))))

/-- `BLEN rd, ra` (R153): `B - seq_lz(r[a])`. -/
def execBlen (d a : Reg) (s : State) : Result :=
  .next (s.setReg d (zext s.words (bitsOf s.words - seqLz s.words (s.reg a))))

end Sys2Proof.Machine
end

