-- ==== Sys2Proof/Machine/Divide.lean ====
section
/-! DEFINITION. The long-division unit (43_divide.md): N by N and 2N by N, to quotient and remainder. Euclidean
division determines the pair uniquely, so the integer equations are the meaning (R17, R121); the bit-serial
algorithm of R120 stands beside them at word level. -/

namespace Sys2Proof.Machine

/-! ## Functions -/

/-- `fx_divrem(x, y) -> (q, rem)` (R122), for `val(y) != 0`. -/
def fxDivrem (n : Nat) (x y : Fixed) : Fixed × Fixed := (fix n (val x / val y), fix n (val x % val y))

/-- `wide_divrem(x, m) -> ((ql, qh), rem)` (R123), for `val(m) != 0`. -/
def wideDivrem (n : Nat) (x : Wide) (m : Fixed) : Wide × Fixed :=
  (wide n (wval n x / val m), fix n (wval n x % val m))

/-- Set bit `i` of a value: bit `i mod 64` of word `i div 64` (R120). -/
def setBit (q : Fixed) (i : Nat) : Fixed :=
  q.set (i / 64) (wordAt q (i / 64) ||| BitVec.ofNat 64 (2 ^ (i % 64)))

/-- The running values of R120's loop: quotient, remainder, shifted divisor. -/
structure DivRun where
  q : Fixed
  rem : Fixed
  t : Fixed
deriving DecidableEq, Repr

/-- One step of R120's loop at bit position `i`, over `l` words: subtract if no borrow, set the quotient bit,
shift the divisor right by one. -/
def divStepWords (l i : Nat) (run : DivRun) : DivRun :=
  let (u, bo) := fxSubWords run.rem run.t 0
  if bo = 0 then { q := setBit run.q i, rem := u, t := seqShrWords l run.t 1 }
  else { run with t := seqShrWords l run.t 1 }

/-- R120's loop from bit position `i` down to bit 0. -/
def divLoopWords (l : Nat) : Nat → DivRun → DivRun
  | 0, run => divStepWords l 0 run
  | i + 1, run => divLoopWords l i (divStepWords l (i + 1) run)

/-- The bit-serial long division `seq_divrem(x, dv)` of R120 over `l` words, for a nonzero divisor. -/
def seqDivremWords (l : Nat) (x dv : Fixed) : Fixed × Fixed :=
  let lx := seqLzWords x
  let ld := seqLzWords dv
  if ld ≥ lx then
    let run := divLoopWords l (ld - lx)
      { q := List.replicate l 0, rem := x, t := seqShlWords l dv (ld - lx) }
    (run.q, run.rem)
  else (List.replicate l 0, x)

/-- The double-width form of R123: the modulus followed by N zero words, over 2N words. -/
def wideDivremWords (n : Nat) (x : Wide) (m : Fixed) : Wide × Fixed :=
  let (q, r) := seqDivremWords (2 * n) (wideWords x) (m ++ List.replicate n 0)
  (wideOfWords n q, r.take n)

/-! ## Commands -/

/-- `DIVREM rd, rc, ra, rb` (R124): `d = c` is illegal (R67), before the divisor is looked at (R236). -/
def execDivrem (d c a b : Reg) (s : State) : Result :=
  if d = c then faultWith (.divrem d c a b) .illegal s
  else if val (s.reg b) = 0 then faultWith (.divrem d c a b) .divzero s
  else
    let (q, r) := fxDivrem s.words (s.reg a) (s.reg b)
    .next ((s.setReg d q).setReg c r)

/-- `DIV rd, ra, rb`, quotient only (R125). -/
def execDiv (d a b : Reg) (s : State) : Result :=
  if val (s.reg b) = 0 then faultWith (.div d a b) .divzero s
  else .next (s.setReg d (fxDivrem s.words (s.reg a) (s.reg b)).1)

/-- `REM rd, ra, rb`, remainder only (R126). -/
def execRem (d a b : Reg) (s : State) : Result :=
  if val (s.reg b) = 0 then faultWith (.rem d a b) .divzero s
  else .next (s.setReg d (fxDivrem s.words (s.reg a) (s.reg b)).2)

/-- `WDIVREM wd, rc, wa, rb` (R127): `c` equal to either register of the quotient pair is illegal (R67). -/
def execWdivrem (d : Pair) (c : Reg) (a : Pair) (b : Reg) (s : State) : Result :=
  if c = pairLo d ∨ c = pairHi d then faultWith (.wdivrem d c a b) .illegal s
  else if val (s.reg b) = 0 then faultWith (.wdivrem d c a b) .divzero s
  else
    let (q, r) := wideDivrem s.words (s.pair a) (s.reg b)
    .next ((s.setPair d q).setReg c r)

/-- `WDIV wd, wa, rb`, wide quotient only (R128). -/
def execWdiv (d a : Pair) (b : Reg) (s : State) : Result :=
  if val (s.reg b) = 0 then faultWith (.wdiv d a b) .divzero s
  else .next (s.setPair d (wideDivrem s.words (s.pair a) (s.reg b)).1)

/-- `WREM rd, wa, rb`, remainder of a wide value (R129). -/
def execWrem (d : Reg) (a : Pair) (b : Reg) (s : State) : Result :=
  if val (s.reg b) = 0 then faultWith (.wrem d a b) .divzero s
  else .next (s.setReg d (wideDivrem s.words (s.pair a) (s.reg b)).2)

end Sys2Proof.Machine
end

