-- ==== Sys2Proof/Machine/Montgomery.lean ====
section
/-! DEFINITION. The Montgomery REDC reduction engine (45_montgomery.md). `RADIX` is the power of two `2^(64N)`, `r1` the
stored residue (R165). The functions are the spec's pseudocode, composed of the functions of the other units. -/

namespace Sys2Proof.Machine

/-! ## Functions -/

/-- One Hensel step of R166: `x <- (x * ((2 - A*x) mod M)) mod M`, remainders non-negative. -/
def henselStep (A M x : Nat) : Nat := x * (((2 : Int) - A * x) % (M : Int)).toNat % M

/-- `x` after the steps for bits `1` to `i` of R166's loop; the step for bit `i` works modulo `2^(i+1)`. -/
def henselLift (A : Nat) : Nat → Nat
  | 0 => 1
  | i + 1 => henselStep A (2 ^ (i + 2)) (henselLift A i)

/-- `inv2k(a, k) -> x or no result` (R166), for `1 <= k <= B`: no result when `a` is even. -/
def inv2k (n : Nat) (a : Fixed) (k : Nat) : Option Fixed :=
  if isOdd a then some (fix n (henselLift (val a) (k - 1))) else none

/-- The running values of R167's loop. -/
structure BitInvRun where
  x : Nat
  b : Int
deriving DecidableEq, Repr

/-- One step of R167's bit-by-bit construction at bit `i`. -/
def bitInvStep (A i : Nat) (run : BitInvRun) : BitInvRun :=
  if run.b % 2 = 1 then { x := run.x + 2 ^ i, b := (run.b - A) / 2 } else { run with b := run.b / 2 }

/-- `k` steps of R167, from bit 0 up. -/
def bitInvLoop (A : Nat) : Nat → BitInvRun
  | 0 => { x := 0, b := 1 }
  | k + 1 => bitInvStep A k (bitInvLoop A k)

/-- The second construction of the inverse (R167), with the steps the spec supplies from general knowledge (G2);
no command uses it. -/
def inv2kBits (n : Nat) (a : Fixed) (k : Nat) : Option Fixed :=
  if isOdd a then some (fix n (bitInvLoop (val a) k).x) else none

/-- `mp_init(n) -> (n, r1, r2, ninv) or no result` (R168), `nn` the word count: no result when `n` is even. -/
def mpInit (nn : Nat) (n : Fixed) : Option Bank :=
  if isOdd n then
    let (_, rm) := fxDivrem nn (fix nn (maxv nn)) n
    let (r1, _) := fxAdd nn rm (fix nn 1) 0
    let (_, r2) := wideDivrem nn (fxMul nn r1 r1) n
    match inv2k nn n (bitsOf nn) with
    | none => none
    | some inv =>
      let (ninv, _) := fxSub nn (fix nn 0) inv 0
      some { n := n, r1 := r1, r2 := r2, ninv := ninv }
  else none

/-- `redc(MP, t) -> u` (R169). The carry `c` out of the double-width add is kept: the conditional subtraction
takes it into account. -/
def redc (nn : Nat) (mp : Bank) (t : Wide) : Fixed :=
  let (m, _) := fxMul nn t.1 mp.ninv
  let (sum, c) := wideAdd nn (fxMul nn m mp.n) t
  if c = 1 ∨ seqCmp sum.2 mp.n ≠ .lt then (fxSub nn sum.2 mp.n 0).1 else sum.2

/-- `to_monty(MP, t)` (R171). -/
def toMonty (nn : Nat) (mp : Bank) (t : Fixed) : Fixed := redc nn mp (fxMul nn t mp.r2)

/-- `monty_mul(MP, x, y)` (R172). -/
def montyMul (nn : Nat) (mp : Bank) (x y : Fixed) : Fixed := redc nn mp (fxMul nn x y)

/-- `normalize(MP, x)` (R173): the form zero-extended to a wide value, reduced. -/
def normalize (nn : Nat) (mp : Bank) (x : Fixed) : Fixed := redc nn mp (x, fix nn 0)

/-! ## Commands -/

/-- `INV2K rd, ra, imm16` (R174): `k = 0` or `k > B` is illegal (R67); an even source is no result (R240). -/
def execInv2k (d a : Reg) (imm : Imm) (s : State) : Result :=
  if imm.toNat = 0 ∨ imm.toNat > bitsOf s.words then faultWith (.inv2k d a imm) .illegal s
  else
    match inv2k s.words (s.reg a) imm.toNat with
    | none => noResult s
    | some x => .next ((s.setReg d x).setNr false)

/-- `MPINIT ra` (R175): an even modulus is no result, the bank and `MPV` keep their values. -/
def execMpinit (a : Reg) (s : State) : Result :=
  match mpInit s.words (s.reg a) with
  | none => noResult s
  | some p => .next ((s.loadBank p).setNr false)

/-- `REDC rd, wa` (R176): needs a valid bank (R238). -/
def execRedc (d : Reg) (a : Pair) (s : State) : Result :=
  if s.status.mpv = false then faultWith (.redc d a) .noparams s
  else .next (s.setReg d (redc s.words s.mp (s.pair a)))

/-- `TOMONT rd, ra` (R177). -/
def execTomont (d a : Reg) (s : State) : Result :=
  if s.status.mpv = false then faultWith (.tomont d a) .noparams s
  else .next (s.setReg d (toMonty s.words s.mp (s.reg a)))

/-- `MMUL rd, ra, rb` (R178). -/
def execMmul (d a b : Reg) (s : State) : Result :=
  if s.status.mpv = false then faultWith (.mmul d a b) .noparams s
  else .next (s.setReg d (montyMul s.words s.mp (s.reg a) (s.reg b)))

/-- `FROMMONT rd, ra` (R179). -/
def execFrommont (d a : Reg) (s : State) : Result :=
  if s.status.mpv = false then faultWith (.frommont d a) .noparams s
  else .next (s.setReg d (normalize s.words s.mp (s.reg a)))

end Sys2Proof.Machine
end

