-- ==== Sys2Proof/Machine/ModExp.lean ====
section
/-! DEFINITION. Modular multiplication and the modular exponentiation pipeline (46_modexp.md): square-and-multiply
over the exponent's bits, most significant first, directly and in Montgomery space. -/

namespace Sys2Proof.Machine

/-! ## Functions -/

/-- `mul_mod(x, y, m)` (R190), for `val(m) != 0`: the double-width product, then the wide remainder. -/
def mulMod (n : Nat) (x y m : Fixed) : Fixed := (wideDivrem n (fxMul n x y) m).2

/-- R191's loop over the exponent's bits `i - 1` down to 0. -/
def modExpLoop (n : Nat) (base e m : Fixed) : Nat → Fixed → Fixed
  | 0, acc => acc
  | i + 1, acc =>
    modExpLoop n base e m i
      (if (val e).testBit i then mulMod n (mulMod n acc acc m) base m else mulMod n acc acc m)

/-- `mod_exp(base, e, m)` (R191), for `val(m) != 0`: from `1 mod m`, over the exponent's bit length. -/
def modExp (n : Nat) (base e m : Fixed) : Fixed :=
  modExpLoop n base e m (seqBitlen e) (fxDivrem n (fix n 1) m).2

/-- R192's loop over the exponent's bits, every product in Montgomery space. -/
def mexpLoop (n : Nat) (mp : Bank) (bm e : Fixed) : Nat → Fixed → Fixed
  | 0, acc => acc
  | i + 1, acc =>
    mexpLoop n mp bm e i
      (if (val e).testBit i then montyMul n mp (montyMul n mp acc acc) bm else montyMul n mp acc acc)

/-- `mexp_monty(MP, base, e)` (R192): from `to_monty(1)`, not from the stored `r1`. -/
def mexpMonty (n : Nat) (mp : Bank) (base e : Fixed) : Fixed :=
  normalize n mp (mexpLoop n mp (toMonty n mp base) e (seqBitlen e) (toMonty n mp (fix n 1)))

/-! ## Commands -/

/-- `MULMOD rd, ra, rb, rc` (R193): the modulus is `r[c]`. -/
def execMulmod (d a b c : Reg) (s : State) : Result :=
  if val (s.reg c) = 0 then faultWith (.mulmod d a b c) .zeromod s
  else .next (s.setReg d (mulMod s.words (s.reg a) (s.reg b) (s.reg c)))

/-- `MODEXP rd, ra, rb, rc` (R194): `(r[a] ^ r[b]) mod r[c]`. -/
def execModexp (d a b c : Reg) (s : State) : Result :=
  if val (s.reg c) = 0 then faultWith (.modexp d a b c) .zeromod s
  else .next (s.setReg d (modExp s.words (s.reg a) (s.reg b) (s.reg c)))

/-- `MEXPM rd, ra, rb` (R195): the modulus is the bank's. -/
def execMexpm (d a b : Reg) (s : State) : Result :=
  if s.status.mpv = false then faultWith (.mexpm d a b) .noparams s
  else .next (s.setReg d (mexpMonty s.words s.mp (s.reg a) (s.reg b)))

end Sys2Proof.Machine
end

