-- ==== Sys2Proof/Machine/Dispatch.lean ====
section
/-! DEFINITION. One arm per command: the dispatch of a decoded instruction to its meaning (R69). -/

namespace Sys2Proof.Machine

def exec (i : Instr) (s : State) : Host.Outcome State Fault Refusal :=
  match i with
  | .mov d a => Sys2Proof.Machine.execMov d a s
  | .ldi d imm => Sys2Proof.Machine.execLdi d imm s
  | .addc d a b => Sys2Proof.Machine.execAddc d a b s
  | .addw d a b => Sys2Proof.Machine.execAddw d a b s
  | .subc d a b => Sys2Proof.Machine.execSubc d a b s
  | .subw d a b => Sys2Proof.Machine.execSubw d a b s
  | .wadd d a b => Sys2Proof.Machine.execWadd d a b s
  | .wsub d a b => Sys2Proof.Machine.execWsub d a b s
  | .mulx d a b => Sys2Proof.Machine.execMulx d a b s
  | .mulc d a b => Sys2Proof.Machine.execMulc d a b s
  | .mulw d a b => Sys2Proof.Machine.execMulw d a b s
  | .divrem d c a b => Sys2Proof.Machine.execDivrem d c a b s
  | .div d a b => Sys2Proof.Machine.execDiv d a b s
  | .rem d a b => Sys2Proof.Machine.execRem d a b s
  | .wdivrem d c a b => Sys2Proof.Machine.execWdivrem d c a b s
  | .wdiv d a b => Sys2Proof.Machine.execWdiv d a b s
  | .wrem d a b => Sys2Proof.Machine.execWrem d a b s
  | .shlw d a imm => Sys2Proof.Machine.execShlw d a imm s
  | .shrw d a imm => Sys2Proof.Machine.execShrw d a imm s
  | .shlo d a imm => Sys2Proof.Machine.execShlo d a imm s
  | .shro d a imm => Sys2Proof.Machine.execShro d a imm s
  | .wshl d a imm => Sys2Proof.Machine.execWshl d a imm s
  | .wshr d a imm => Sys2Proof.Machine.execWshr d a imm s
  | .cmp a b => Sys2Proof.Machine.execCmp a b s
  | .clz d a => Sys2Proof.Machine.execClz d a s
  | .blen d a => Sys2Proof.Machine.execBlen d a s
  | .inv2k d a imm => Sys2Proof.Machine.execInv2k d a imm s
  | .mpinit a => Sys2Proof.Machine.execMpinit a s
  | .redc d a => Sys2Proof.Machine.execRedc d a s
  | .tomont d a => Sys2Proof.Machine.execTomont d a s
  | .mmul d a b => Sys2Proof.Machine.execMmul d a b s
  | .frommont d a => Sys2Proof.Machine.execFrommont d a s
  | .mulmod d a b c => Sys2Proof.Machine.execMulmod d a b c s
  | .modexp d a b c => Sys2Proof.Machine.execModexp d a b c s
  | .mexpm d a b => Sys2Proof.Machine.execMexpm d a b s

end Sys2Proof.Machine
end

