-- ==== Sys2Proof/Machine/Port.lean ====
section
/-! DEFINITION. The host port (20_memory.md): its map, its reads and writes, the issue of a command, and what each
transaction of the host does. -/

namespace Sys2Proof.Machine

/-- `addr[15:14]` (R41). -/
def portSel (addr : PortAddr) : Nat := addr.toNat / 16384

/-- `addr[13:10]` (R41). -/
def portReg (addr : PortAddr) : Nat := addr.toNat / 1024 % 16

/-- `addr[9:0]` (R41). -/
def portIdx (addr : PortAddr) : Nat := addr.toNat % 1024

/-- The address of the command port `CMD`, `0xC000` (R42). -/
def cmdPort : PortAddr := 0xC000

/-- The bank value that `reg` selects at `sel = 1`: 0 `n`, 1 `r1`, 2 `r2`, 3 `ninv`; none beyond (R42). -/
def bankValue (mp : Bank) (reg : Nat) : Option Fixed :=
  match reg with
  | 0 => some mp.n
  | 1 => some mp.r1
  | 2 => some mp.r2
  | 3 => some mp.ninv
  | _ => none

/-- The control word that `reg` selects at `sel = 2`: 0 `STATUS`, 1 `FCMD`, 2 `CONFIG`; none beyond (R42). -/
def controlWord (s : State) (reg : Nat) : Option Word :=
  match reg with
  | 0 => some s.status.toWord
  | 1 => some (fcmdWord s.fcmd)
  | 2 => some (configWord s.words)
  | _ => none

/-- The word at a readable mapped address (R42); none for `CMD` and for every unmapped address. -/
def portWord (s : State) (addr : PortAddr) : Option Word :=
  match portSel addr with
  | 0 => if portIdx addr < s.words then some (wordAt (s.reg (Fin.ofNat 16 (portReg addr))) (portIdx addr)) else none
  | 1 =>
    if portIdx addr < s.words then (bankValue s.mp (portReg addr)).map (fun x => wordAt x (portIdx addr)) else none
  | 2 => if portIdx addr = 0 then controlWord s (portReg addr) else none
  | _ => none

/-- `PortRead(addr)` (R43): the mapped word, and 0 for `CMD` and every unmapped address, whether or not the block
has faulted. -/
def portRead (s : State) (addr : PortAddr) : Word := (portWord s addr).getD 0

/-- The data write of R44: word `idx` of `r[reg]` when the address is that of a data register word, else
nothing. -/
def writeData (s : State) (addr : PortAddr) (v : Word) : State :=
  if portSel addr = 0 ∧ portIdx addr < s.words then
    s.setReg (Fin.ofNat 16 (portReg addr)) ((s.reg (Fin.ofNat 16 (portReg addr))).set (portIdx addr) v)
  else s

/-- `Issue(cmd)` (R46, R69): nothing while the block is faulted; an undecodable word raises `Fault(ILLEGAL)`
(R67); any other is executed. -/
def issue (cmd : Command) (s : State) : Result :=
  if s.status.fault then .next s
  else
    match decode cmd with
    | .ok i => exec i s
    | .error _ => .next (s.raise .illegal cmd)

/-- `PortWrite(addr, v)` (R44); bits 63:32 of a word written to `CMD` are ignored (R46). -/
def portWrite (addr : PortAddr) (v : Word) (s : State) : Result :=
  if s.status.fault then .next s
  else if addr = cmdPort then issue (v.setWidth 32) s
  else .next (writeData s addr v)

/-- `PortRead(addr)` as a transaction: the block is unchanged (R43), the host receives the word. -/
def hostRead (addr : PortAddr) (s : State) : State := { s with replies := portRead s addr :: s.replies }

/-- One transaction of the host (R49). -/
def transact (t : Transaction) (s : State) : Result :=
  match t with
  | .read addr => .next (hostRead addr s)
  | .write addr v => portWrite addr v s
  | .issue cmd => issue cmd s
  | .reset => .next s.resetBlock

/-- The next transaction of the host, which is removed from the list; with none pending no state changes (R49). -/
def runNext (s : State) : Result :=
  match s.pending with
  | [] => .next s
  | t :: rest => transact t { s with pending := rest }

/-- The host issues the command word `cmd` next, before everything it had pending. -/
def State.placeCommand (s : State) (cmd : Command) : State := { s with pending := .issue cmd :: s.pending }

end Sys2Proof.Machine
end

