-- ==== Sys2Proof/Machine/HostSoftware.lean ====
section
/-! DEFINITION. The functions of 47_software_reference.md that run on the host: no opcode selects them and they have no state
of their own (R205). Each is written over the block's functions, as host software composes the block's commands;
the loops are the host's and carry fuel that their own termination argument bounds (log entry 10). -/

namespace Sys2Proof.Machine

/-- What a host function of the document's library ends in. -/
inductive HostResult where
  /-- A value. -/
  | value (x : Fixed)
  /-- The explicit absence of a result (R209, R230). -/
  | noResult
  /-- A command the function is made of faulted (R205). -/
  | fault (c : Cause)
  /-- An input the document leaves out (U16): the library model refuses it. -/
  | refused
deriving DecidableEq, Repr

/-! ## Greatest common divisor -/

/-- R206's loop `(a, b) -> (b, a mod b)`; `b` falls at every step. -/
def gcdLoop (n : Nat) : Nat → Fixed → Fixed → Fixed
  | 0, a, _ => a
  | fuel + 1, a, b => if val b = 0 then a else gcdLoop n fuel b (fxDivrem n a b).2

/-- Euclidean gcd (R206). -/
def hostGcd (n : Nat) (a b : Fixed) : Fixed := gcdLoop n (val b + 1) a b

/-- Zero bits below the least significant 1 bit of a nonzero number, at most `fuel` of them. -/
def tzLoop : Nat → Nat → Nat
  | 0, _ => 0
  | fuel + 1, v => if v % 2 = 1 then 0 else 1 + tzLoop fuel (v / 2)

/-- `tz(x)` of R207, for a nonzero `x`. The document gives `trailing_zeros(0)` no value (U16); this helper gives 0 there, a
DESIGN CHOICE (log entry 16) on which nothing rests: `bgcd` guards its operands and its loop strips nonzero differences
only. The library function that refuses zero is `trailingZeros`. -/
def tz (x : Fixed) : Nat := tzLoop (seqBitlen x) (val x)

/-- `trailing_zeros(x)` (R207): none for zero, which the document leaves open and U16 has a library model refuse. -/
def trailingZeros (x : Fixed) : Option Nat := if val x = 0 then none else some (tz x)

/-- `x` shifted right by its own trailing zeros (R207). -/
def stripTz (n : Nat) (x : Fixed) : Fixed := seqShr n x (tz x)

/-- R207's loop on two odd values; the larger falls at every step. -/
def bgcdLoop (n : Nat) : Nat → Fixed → Fixed → Fixed
  | 0, u, _ => u
  | fuel + 1, u, v =>
    match seqCmp u v with
    | .eq => u
    | .gt => bgcdLoop n fuel (stripTz n (fxSub n u v 0).1) v
    | .lt => bgcdLoop n fuel u (stripTz n (fxSub n v u 0).1)

/-- Binary gcd (R207), with the guards for a zero operand that the spec supplies (G3). -/
def bgcd (n : Nat) (a b : Fixed) : Fixed :=
  if val a = 0 then b
  else if val b = 0 then a
  else seqShl n (bgcdLoop n (val a + val b) (stripTz n a) (stripTz n b)) (min (tz a) (tz b))

/-- R208's coefficient-tracking loop on host integers: `coeff' = coeff_prev - quotient*coeff_cur`. -/
def extEuclidLoop : Nat → Nat → Nat → Int → Int → Int → Int → Nat × Int × Int
  | 0, r0, _, x0, _, y0, _ => (r0, x0, y0)
  | fuel + 1, r0, r1, x0, x1, y0, y1 =>
    if r1 = 0 then (r0, x0, y0)
    else extEuclidLoop fuel r1 (r0 % r1) x1 (x0 - (r0 / r1 : Nat) * x1) y1 (y0 - (r0 / r1 : Nat) * y1)

/-- Extended Euclid (R208): `(gcd, x, y)` with `a*x + b*y = gcd`. The start values `x = (1, 0)`, `y = (0, 1)` are the
usual ones, PRESUMED: the spec gives none (N8; log entry 10). -/
def extEuclid (a b : Nat) : Nat × Int × Int := extEuclidLoop (b + 1) a b 1 0 0 1

/-- Modular inverse via extended Euclid, narrow use (R208): exists iff the gcd is 1; a negative coefficient has `m`
added. -/
def modInvNarrow (a m : Nat) : Option Int :=
  let (g, x, _) := extEuclid a m
  if g = 1 then some (if x < 0 then x + m else x) else none

/-! ## Modular inverse for a general modulus -/

/-- `t2 = t0 - p`, with the modulus added back when the subtraction would underflow (R209): `CMP` decides, `SUBW` and
`ADDW` compute. -/
def modInvStep (n : Nat) (m t0 p : Fixed) : Fixed :=
  if seqCmp t0 p = .lt then (fxAdd n (fxSub n t0 p 0).1 m 0).1 else (fxSub n t0 p 0).1

/-- R209's loop; `r1` falls at every step. A zero modulus reaches `MULMOD` and faults; it is not reached when `r1` is
zero from the start (log entry 15). -/
def modInvLoop (n : Nat) (m : Fixed) : Nat → Fixed → Fixed → Fixed → Fixed → HostResult
  | 0, _, _, _, _ => .noResult
  | fuel + 1, r0, r1, t0, t1 =>
    if val r1 = 0 then (if val r0 = 1 then .value t0 else .noResult)
    else if val m = 0 then .fault .zeromod
    else
      modInvLoop n m fuel r1 (fxDivrem n r0 r1).2 t1 (modInvStep n m t0 (mulMod n (fxDivrem n r0 r1).1 t1 m))

/-- `mod_inv(a, m)` (R209), with the start values the spec supplies (G4; log entry 10). The coefficient the loop ends in is
reduced below the modulus, as R209's Meaning demands and R17 makes decide: only at `a = m = 1` does this change what
the loop gives (log entry 15). -/
def modInv (n : Nat) (a m : Fixed) : HostResult :=
  match modInvLoop n m (val a + 1) m a (fix n 0) (fix n 1) with
  | .value t => .value (fxDivrem n t m).2
  | .noResult => .noResult
  | .fault c => .fault c
  | .refused => .refused

/-! ## Formatting, parsing, construction -/

/-- The character of a decimal digit. -/
def digitChar (d : Nat) : Char := Char.ofNat (48 + d)

/-- R212's remainder digits, least significant first; the value falls at every step. -/
def decimalDigits (n : Nat) : Nat → Fixed → List Char
  | 0, _ => []
  | fuel + 1, x =>
    if val x = 0 then []
    else digitChar (val (fxDivrem n x (fix n 10)).2) :: decimalDigits n fuel (fxDivrem n x (fix n 10)).1

/-- Decimal formatting (R212), as a list of characters: no leading zeros, and zero is `0`. -/
def toDecimal (n : Nat) (x : Fixed) : List Char :=
  if val x = 0 then ['0'] else (decimalDigits n (val x) x).reverse

/-- The 64 characters of a word, most significant bit first (R213). -/
def wordBinary (w : Word) : List Char := (List.range 64).map fun i => if w.getLsbD (63 - i) then '1' else '0'

/-- Binary formatting (R213), most significant word first; the form of zero is left open (N10), so none. -/
def toBinary (x : Fixed) : Option (List Char) :=
  if val x = 0 then none else some (x.reverse.flatMap wordBinary)

/-- The value of a decimal digit; none for any other character. -/
def digitValue (ch : Char) : Option Nat :=
  if 48 ≤ ch.toNat ∧ ch.toNat ≤ 57 then some (ch.toNat - 48) else none

/-- R214's accumulation `x = x*10 + digit` by `MULC` and `ADDC`, from the first character: a value that does not fit faults
with `OVERFLOW`. A leading zero is a digit like any other: DESIGN CHOICE (N11; log entry 14). `parseDecimal` gives this
loop decimal digits only. -/
def parseLoop (n : Nat) : List Char → Fixed → HostResult
  | [], x => .value x
  | ch :: rest, x =>
    match digitValue ch with
    | none => .refused
    | some d =>
      if val (fxMul n x (fix n 10)).2 ≠ 0 then .fault .overflow
      else if (fxAdd n (fxMul n x (fix n 10)).1 (fix n d) 0).2 = 1 then .fault .overflow
      else parseLoop n rest (fxAdd n (fxMul n x (fix n 10)).1 (fix n d) 0).1

/-- Decimal parsing (R214). The document leaves open an empty string and a string with a sign or any other non-digit (N11):
refused whole, as U16 asks, before anything is accumulated, so that no `OVERFLOW` of earlier digits comes first (log
entry 14). Leading zeros, open as well (N11), are accepted and change no value: DESIGN CHOICE (log entry 14). -/
def parseDecimal (n : Nat) (str : List Char) : HostResult :=
  if str = [] ∨ (str.any fun ch => (digitValue ch).isNone) then .refused else parseLoop n str (fix n 0)

/-- Construction from a native unsigned integer, zero-extended (R215). -/
def fromNative (n : Nat) (v : Word) : Fixed := fix n v.toNat

/-- Construction from a 128-bit integer split across the first two words (R215); needs `N >= 2` (N12). -/
def fromNative128 (n : Nat) (v : BitVec 128) : Option Fixed := if 2 ≤ n then some (fix n v.toNat) else none

end Sys2Proof.Machine
end

