-- ==== Sys2Proof/Safety.lean ====
section
/-! DEFINITION. What a good state is and what a command may change, in the terms the statements use. -/

namespace Sys2Proof.Machine

/-- `x` is the fixed value of the number `v` in a block of `n` words (R14). -/
def Holds (n : Nat) (x : Fixed) (v : Nat) : Prop := x.length = n ∧ val x = v

/-- The wide value `x` is the number `v` (R15). -/
def WHolds (n : Nat) (x : Wide) (v : Nat) : Prop := x.1.length = n ∧ x.2.length = n ∧ wval n x = v

/-- `t` is `s` but for the data registers in `ds` and the status register, which is `f`: the frame of a command that does
not load the bank and does not fault. There is no memory (R40). -/
structure Writes (s t : State) (ds : List Reg) (f : Status) : Prop where
  regs : ∀ r, r ∉ ds → t.reg r = s.reg r
  status : t.status = f
  words : t.words = s.words
  mp : t.mp = s.mp
  fcmd : t.fcmd = s.fcmd
  pending : t.pending = s.pending
  replies : t.replies = s.replies
  resets : t.resets = s.resets

/-- The faulted state that `raise Fault(c)` during the command word `cmd` leaves (R232): three fields written, everything
else as it was. -/
def Faulted (s : State) (c : Cause) (cmd : Command) : State :=
  { s with status := { s.status with fault := true, cause := c.code }, fcmd := cmd }

/-- The invariant of a block: a buildable width (R10), every fixed value of that width (R21), a bank that is what
`MPINIT` derives whenever `MPV` says it is valid (R25, R26), a cause code the spec assigns (R231, U4), `CAUSE` and `FCMD`
zero exactly as R27 and R30 say while there is no fault, and never both compare flags (R29). -/
structure State.Wf (s : State) : Prop where
  minWidth : Config.minWords ≤ s.words
  maxWidth : s.words ≤ Config.maxWords
  regLength : ∀ r, (s.reg r).length = s.words
  nLength : s.mp.n.length = s.words
  r1Length : s.mp.r1.length = s.words
  r2Length : s.mp.r2.length = s.words
  ninvLength : s.mp.ninv.length = s.words
  bankValid : s.status.mpv = true → mpInit s.words s.mp.n = some s.mp
  causeAssigned : s.status.cause.toNat ≤ 5
  causeZero : s.status.fault = false → s.status.cause = 0
  causeNonzero : s.status.fault = true → s.status.cause ≠ 0
  fcmdZero : s.status.fault = false → s.fcmd = 0
  compareFlags : (s.status.eq && s.status.lt) = false

/-- The causes other than `ILLEGAL` that a command can raise: R231's column "raised by". -/
def causesOf : Instr → List Cause
  | .addc _ _ _ | .subc _ _ _ | .mulc _ _ _ => [.overflow]
  | .divrem _ _ _ _ | .div _ _ _ | .rem _ _ _ | .wdivrem _ _ _ _ | .wdiv _ _ _ | .wrem _ _ _ => [.divzero]
  | .mulmod _ _ _ _ | .modexp _ _ _ _ => [.zeromod]
  | .redc _ _ | .tomont _ _ | .mmul _ _ _ | .frommont _ _ | .mexpm _ _ _ => [.noparams]
  | .mov _ _ | .ldi _ _ | .addw _ _ _ | .subw _ _ _ | .wadd _ _ _ | .wsub _ _ _ | .mulx _ _ _ | .mulw _ _ _
  | .shlw _ _ _ | .shrw _ _ _ | .shlo _ _ _ | .shro _ _ _ | .wshl _ _ _ | .wshr _ _ _ | .cmp _ _ | .clz _ _
  | .blen _ _ | .inv2k _ _ _ | .mpinit _ => []

/-- The command word `cmd` is illegal in a block of `n` words (R67): it matches no row, or breaks its row's value
constraint. -/
def IllegalWord (n : Nat) (cmd : Command) : Prop :=
  match decode cmd with
  | .ok i => i.wellFormed n = false
  | .error _ => True

/-- The fault latch tells the truth about its command: the cause recorded is one that the recorded command word can raise
(R231, R235). -/
def FaultRecord (s : State) : Prop :=
  s.status.fault = true →
    ∃ c : Cause, s.status.cause = c.code ∧
      ((c = .illegal ∧ IllegalWord s.words s.fcmd) ∨
        ∃ i, decode s.fcmd = .ok i ∧ i.wellFormed s.words = true ∧ c ∈ causesOf i)

/-- The destination registers of a command (R62, R65); a wide destination is two registers (R23). -/
def destsOf : Instr → List Reg
  | .mov d _ | .ldi d _ | .addc d _ _ | .addw d _ _ | .subc d _ _ | .subw d _ _ | .mulc d _ _ | .mulw d _ _
  | .div d _ _ | .rem d _ _ | .wrem d _ _ | .shlw d _ _ | .shrw d _ _ | .shlo d _ _ | .shro d _ _ | .clz d _
  | .blen d _ | .inv2k d _ _ | .redc d _ | .tomont d _ | .mmul d _ _ | .frommont d _ | .mulmod d _ _ _
  | .modexp d _ _ _ | .mexpm d _ _ => [d]
  | .wadd d _ _ | .wsub d _ _ | .mulx d _ _ | .wdiv d _ _ | .wshl d _ _ | .wshr d _ _ => [pairLo d, pairHi d]
  | .divrem d c _ _ => [d, c]
  | .wdivrem d c _ _ => [pairLo d, pairHi d, c]
  | .cmp _ _ | .mpinit _ => []

end Sys2Proof.Machine
end

