-- ==== Sys2Proof/Certificates/Slice0/Obligations.lean ====
section
/-! DEFINITION. The statements for the provers, from the numbered rules of spec/. Every statement about a command
holds for every word count `N` (the field `words`), for every operand, and gives the whole next state: the result, the
flags and the frame (`Writes`), or the faulted state (`Faulted`). `State.Wf` is the invariant of
`EveryStepKeepsTheBlockWellFormed`. -/

open Sys2Proof Sys2Proof.Machine

/-! ## Encoding -/

/-- R61 to R66: decoding the word of any instruction gives that instruction back, with every operand. -/
def Obligations.DecodeOfEncodeIsTheInstruction : Prop :=
  ∀ i : Instr, decode (encode i) = .ok i

/-- R66, R68: every word that decodes is the word of the instruction it decodes to, so no bit of a legal word is
dropped and the word `FCMD` records is the word issued. -/
def Obligations.EncodeOfDecodeIsTheWord : Prop :=
  ∀ (w : Command) (i : Instr), decode w = .ok i → encode i = w

/-- R65, R66, R69: the decoder reads a word as the command of a row exactly when the row's mask and match columns say so,
and the word matches at most one row. -/
def Obligations.DecoderAgreesWithTheOpcodeTable : Prop :=
  (∀ w : Command, ∀ r ∈ opcodeTable,
    (w &&& r.mask = r.pattern ↔ ∃ i, decode w = .ok i ∧ i.opcode = r.op ∧ i.mnemonic = r.name)) ∧
  (∀ w : Command, ∀ r ∈ opcodeTable, ∀ q ∈ opcodeTable,
    w &&& r.mask = r.pattern → w &&& q.mask = q.pattern → r = q) ∧
  (∀ (w : Command) (i : Instr), decode w = .ok i → ∃ r ∈ opcodeTable, w &&& r.mask = r.pattern)

/-- Words written out from R61 and R65 decode to the commands they stand for; words R67 calls illegal decode to none. -/
def Obligations.SampleWordsDecodeAsTheTableSays : Prop :=
  decode 0x10310000 = .ok (.mov 3 1) ∧ decode 0x1120FFFF = .ok (.ldi 2 65535) ∧
  decode 0x20201000 = .ok (.addc 2 0 1) ∧ decode 0x24402000 = .ok (.wadd 2 0 1) ∧
  decode 0x30401000 = .ok (.mulx 2 0 1) ∧ decode 0x40201300 = .ok (.divrem 2 3 0 1) ∧
  decode 0x43402600 = .ok (.wdivrem 2 6 0 2) ∧ decode 0x45702000 = .ok (.wrem 7 0 2) ∧
  decode 0x54400040 = .ok (.wshl 2 0 64) ∧ decode 0x56001000 = .ok (.cmp 0 1) ∧
  decode 0x60210040 = .ok (.inv2k 2 1 64) ∧ decode 0x61010000 = .ok (.mpinit 1) ∧
  decode 0x62640000 = .ok (.redc 6 2) ∧ decode 0x70301200 = .ok (.mulmod 3 0 1 2) ∧
  decode 0x72301000 = .ok (.mexpm 3 0 1) ∧
  decode 0x00000000 = .error .unassignedOpcode ∧ decode 0xFFFFFFFF = .error .unassignedOpcode ∧
  decode 0x26001000 = .error .unassignedOpcode ∧ decode 0x10310001 = .error .nonzeroUnusedField ∧
  decode 0x56101000 = .error .nonzeroUnusedField ∧ decode 0x24502000 = .error .oddWideField ∧
  decode 0x62650000 = .error .oddWideField

/-! ## The step, the port and the fault latch -/

/-- R46, R49, R69: when the host's next transaction issues a word, directly or by a write to `CMD` whose bits 31:0 are that
word, and the block is not faulted, a step takes the transaction from the list and executes the decoded command. -/
def Obligations.StepRunsTheDecodedInstruction : Prop :=
  ∀ (s : State) (w : Command) (i : Instr) (rest : List Transaction),
    s.status.fault = false → decode w = .ok i →
    (s.pending = .issue w :: rest → step s = exec i { s with pending := rest }) ∧
    (∀ v : Word, v.setWidth 32 = w → s.pending = .write 0xC000 v :: rest →
      step s = exec i { s with pending := rest })

/-- R67, R237: issuing a word that matches no row, or that breaks its row's value constraint, raises `Fault(ILLEGAL)` with
the word in `FCMD` and changes no other state. -/
def Obligations.IllegalCommandWordFaults : Prop :=
  ∀ (s : State) (w : Command) (rest : List Transaction),
    s.status.fault = false → s.pending = .issue w :: rest → IllegalWord s.words w →
    step s = .next (Faulted { s with pending := rest } .illegal w)

/-- R67: a command that breaks its value constraint (`DIVREM` with `d = c`; `WDIVREM` with `c` in the quotient pair; `INV2K`
with `k = 0` or `k > 64*N`) raises `Fault(ILLEGAL)` in every state, whatever its operands hold. -/
def Obligations.BrokenValueConstraintFaults : Prop :=
  ∀ (i : Instr) (s : State), i.wellFormed s.words = false → exec i s = .next (Faulted s .illegal (encode i))

/-- R232: a command whose execution faults writes `FAULT`, `CAUSE` and `FCMD` (its own word) and nothing else. -/
def Obligations.FaultEntryWritesOnlyTheLatch : Prop :=
  ∀ (s t : State) (w : Command) (rest : List Transaction),
    s.status.fault = false → s.pending = .issue w :: rest → step s = .next t → t.status.fault = true →
    ∃ c : Cause, t = Faulted { s with pending := rest } c w

/-- R233: while `FAULT = 1` an issue and a port write do nothing and a port read answers as ever, so that `FAULT`, `CAUSE` and
`FCMD` keep the first fault; a reset clears the latch. -/
def Obligations.FaultedBlockOnlyAnswersReads : Prop :=
  ∀ (s : State) (rest : List Transaction), s.status.fault = true →
    (∀ w, s.pending = .issue w :: rest → step s = .next { s with pending := rest }) ∧
    (∀ addr v, s.pending = .write addr v :: rest → step s = .next { s with pending := rest }) ∧
    (∀ addr, s.pending = .read addr :: rest →
      step s = .next { s with pending := rest, replies := portRead { s with pending := rest } addr :: s.replies }) ∧
    (s.pending = .reset :: rest → ∃ t, step s = .next t ∧ t.status.fault = false ∧ t.status.cause = 0 ∧ t.fcmd = 0)

/-- R42, R43: what a port read returns at every address: the word of a data register, of the bank, `STATUS`, `FCMD`,
`CONFIG`, and 0 at `CMD` and at every unmapped address, faulted or not. As a transaction it changes nothing of the block: the
host receives the word. -/
def Obligations.PortReadFollowsThePortMap : Prop :=
  ∀ s : State, s.words ≤ 1023 →
    (∀ (g : Reg) (i : Nat), i < s.words → portRead s (BitVec.ofNat 16 (1024 * g.val + i)) = (s.reg g).getD i 0) ∧
    (∀ i : Nat, i < s.words →
      portRead s (BitVec.ofNat 16 (16384 + i)) = s.mp.n.getD i 0 ∧
      portRead s (BitVec.ofNat 16 (16384 + 1024 + i)) = s.mp.r1.getD i 0 ∧
      portRead s (BitVec.ofNat 16 (16384 + 2048 + i)) = s.mp.r2.getD i 0 ∧
      portRead s (BitVec.ofNat 16 (16384 + 3072 + i)) = s.mp.ninv.getD i 0) ∧
    portRead s 0x8000 = s.status.toWord ∧ portRead s 0x8400 = s.fcmd.setWidth 64 ∧
    portRead s 0x8800 = configWord s.words ∧ portRead s 0xC000 = 0 ∧
    (∀ addr : PortAddr, (∀ (g : Reg) (i : Nat), i < s.words → addr.toNat ≠ 1024 * g.val + i) →
      (∀ j i : Nat, j < 4 → i < s.words → addr.toNat ≠ 16384 + 1024 * j + i) →
      addr ≠ 0x8000 → addr ≠ 0x8400 → addr ≠ 0x8800 → portRead s addr = 0) ∧
    (∀ (addr : PortAddr) (rest : List Transaction), s.pending = .read addr :: rest →
      step s = .next { s with pending := rest, replies := portRead s addr :: s.replies })

/-- R44: a port write does nothing in a faulted block; to `CMD` it issues bits 31:0 of the word; to a data register word it
changes exactly that word; to any other address it does nothing. -/
def Obligations.PortWriteIssuesOrChangesOneWord : Prop :=
  ∀ (s : State) (v : Word) (rest : List Transaction), s.Wf →
    (∀ addr, s.status.fault = true → s.pending = .write addr v :: rest →
      step s = .next { s with pending := rest }) ∧
    (s.pending = .write 0xC000 v :: rest → step s = step { s with pending := .issue (v.setWidth 32) :: rest }) ∧
    (∀ (g : Reg) (i : Nat), s.status.fault = false → i < s.words →
      s.pending = .write (BitVec.ofNat 16 (1024 * g.val + i)) v :: rest →
      ∃ t, step s = .next t ∧ t.reg g = (s.reg g).set i v ∧ Writes { s with pending := rest } t [g] s.status) ∧
    (∀ addr : PortAddr, s.status.fault = false → addr ≠ 0xC000 →
      (∀ (g : Reg) (i : Nat), i < s.words → addr.toNat ≠ 1024 * g.val + i) →
      s.pending = .write addr v :: rest → step s = .next { s with pending := rest })

/-- R27, R30, R31: the layout of `STATUS` (named bits and fields in their places, every other bit 0), of `FCMD` and of
`CONFIG`. -/
def Obligations.ControlWordLayouts : Prop :=
  (∀ f : Status,
    f.toWord.getLsbD 0 = f.c ∧ f.toWord.getLsbD 1 = f.v ∧ f.toWord.getLsbD 2 = f.eq ∧ f.toWord.getLsbD 3 = f.lt ∧
    f.toWord.getLsbD 4 = f.nr ∧ f.toWord.getLsbD 5 = f.mpv ∧ f.toWord.extractLsb' 6 2 = 0 ∧
    f.toWord.getLsbD 8 = f.fault ∧ f.toWord.extractLsb' 9 3 = 0 ∧ f.toWord.extractLsb' 12 4 = f.cause ∧
    f.toWord.extractLsb' 16 48 = 0) ∧
  (∀ cmd : Command, (fcmdWord cmd).extractLsb' 0 32 = cmd ∧ (fcmdWord cmd).extractLsb' 32 32 = 0) ∧
  (∀ n : Nat, n ≤ 1023 →
    (configWord n).extractLsb' 0 16 = BitVec.ofNat 16 n ∧ (configWord n).extractLsb' 16 8 = 64 ∧
    (configWord n).extractLsb' 24 8 = 16 ∧ (configWord n).extractLsb' 32 32 = 0)

/-- R34, R255: a reset transaction, in every state and the faulted one too, leaves `STATUS` and `FCMD` reading 0 in every bit and
`CONFIG` its constant value; the data registers and the bank hold fixed values of the block's width of which nothing is said.
The statement holds for every value of the words the spec leaves unspecified. -/
def Obligations.ResetTransactionClearsStatusAndFcmd : Prop :=
  ∀ (s : State) (rest : List Transaction), s.pending = .reset :: rest →
    ∃ t, step s = .next t ∧ portRead t 0x8000 = 0 ∧ portRead t 0x8400 = 0 ∧ portRead t 0x8800 = configWord s.words ∧
      t.status.c = false ∧ t.status.v = false ∧ t.status.eq = false ∧ t.status.lt = false ∧ t.status.nr = false ∧
      t.status.mpv = false ∧ t.status.fault = false ∧ t.status.cause = 0 ∧ t.fcmd = 0 ∧
      t.words = s.words ∧ t.pending = rest ∧ t.replies = s.replies ∧
      (∀ r, (t.reg r).length = s.words) ∧ t.mp.n.length = s.words ∧ t.mp.r1.length = s.words ∧
      t.mp.r2.length = s.words ∧ t.mp.ninv.length = s.words

/-- R34 and the invariant at reset: for every width the spec allows, the state after reset has `STATUS = 0` and `FCMD = 0` at
the port and meets the invariant. That its registers hold zero is the model's choice (log entry 3) and is not used. -/
def Obligations.ResetStateIsWellFormed : Prop :=
  (∀ n : Nat, 1 ≤ n → n ≤ 1023 →
    portRead (State.resetFor n) 0x8000 = 0 ∧ portRead (State.resetFor n) 0x8400 = 0 ∧
    (State.resetFor n).words = n ∧ (State.resetFor n).Wf ∧ FaultRecord (State.resetFor n)) ∧
  State.reset.Wf ∧ FaultRecord State.reset

/-- The invariant (R10, R21, R25, R26, R27, R29, R30, R231): every step from a well-formed state, whatever the host does, leaves
a well-formed state of the same width. -/
def Obligations.EveryStepKeepsTheBlockWellFormed : Prop :=
  ∀ s t : State, s.Wf → step s = .next t → t.Wf ∧ t.words = s.words

/-- R231, R235, R239: every step keeps the fault latch true to its command: the recorded cause is one that the recorded word
can raise, and it is `ILLEGAL` exactly for illegal words. -/
def Obligations.EveryStepKeepsTheFaultRecord : Prop :=
  ∀ s t : State, FaultRecord s → step s = .next t → FaultRecord t

/-- R49, R245, R260: every step answers a next state (no transaction and no command stops or hangs the block), and with no
transaction pending no state changes. -/
def Obligations.EveryStepAnswersAndIdleKeepsState : Prop :=
  (∀ s : State, ∃ t, step s = .next t) ∧ (∀ s : State, s.pending = [] → step s = .next s)

/-! ## Whole-block rules -/

/-- R26, R255: a step changes the bank or `MPV` only when the host resets, or when it issues (directly or by a write to `CMD`) an
`MPINIT` that succeeds, which writes all four values and `MPV` together. -/
def Obligations.OnlyMpinitAndResetWriteTheBank : Prop :=
  ∀ s t : State, step s = .next t →
    (t.mp = s.mp ∧ t.status.mpv = s.status.mpv) ∨ (∃ rest, s.pending = .reset :: rest) ∨
    (∃ (a : Reg) (w : Command) (rest : List Transaction), s.status.fault = false ∧ decode w = .ok (.mpinit a) ∧
      (s.pending = .issue w :: rest ∨ ∃ v : Word, v.setWidth 32 = w ∧ s.pending = .write 0xC000 v :: rest) ∧
      mpInit s.words (s.reg a) = some t.mp ∧ t.status.mpv = true)

/-- R27, R29: each flag is written only by the commands of its row, and a command that faults writes none. -/
def Obligations.FlagsAreWrittenOnlyByTheirCommands : Prop :=
  ∀ (i : Instr) (s t : State), s.status.fault = false → exec i s = .next t →
    (i.mnemonic ∉ ["ADDC", "ADDW", "SUBC", "SUBW", "WADD", "WSUB"] ∨ t.status.fault = true →
      t.status.c = s.status.c) ∧
    (i.mnemonic ∉ ["SHLO", "SHRO"] ∨ t.status.fault = true → t.status.v = s.status.v) ∧
    (i.mnemonic ∉ ["CMP"] ∨ t.status.fault = true → t.status.eq = s.status.eq ∧ t.status.lt = s.status.lt) ∧
    (i.mnemonic ∉ ["INV2K", "MPINIT"] ∨ t.status.fault = true → t.status.nr = s.status.nr) ∧
    (i.mnemonic ∉ ["MPINIT"] ∨ t.status.fault = true → t.status.mpv = s.status.mpv)

/-- R21, R24, R32: a command changes no data register but its destinations, and nothing of the state beyond the registers, the
bank, `STATUS` and `FCMD`. -/
def Obligations.OnlyDestinationsChangeAmongRegisters : Prop :=
  ∀ (i : Instr) (s t : State), exec i s = .next t →
    (∀ r, r ∉ destsOf i → t.reg r = s.reg r) ∧ t.words = s.words ∧ t.pending = s.pending ∧
    t.replies = s.replies ∧ t.resets = s.resets

/-- R231, R241: a legal command that is not in the column "raised by" of R231 never faults, in any state. -/
def Obligations.CommandsOutsideTheCauseTableNeverFault : Prop :=
  ∀ (i : Instr) (s : State), causesOf i = [] → i.wellFormed s.words = true →
    ∃ t, exec i s = .next t ∧ t.status.fault = s.status.fault ∧ t.status.cause = s.status.cause ∧ t.fcmd = s.fcmd

/-! ## Move, add, subtract -/

/-- R95, R96: `MOV` copies a register; `LDI` loads the zero-extended immediate. -/
def Obligations.MovAndLdiWriteTheirDestination : Prop :=
  (∀ (d a : Reg) (s : State), decode (wordOfRegs 0x10 d.val a.val 0 0) = .ok (.mov d a) ∧
    ∃ t, exec (.mov d a) s = .next t ∧ t.reg d = s.reg a ∧ Writes s t [d] s.status) ∧
  (∀ (d : Reg) (imm : Imm) (s : State), s.Wf → decode (wordOfImm 0x11 d.val 0 imm.toNat) = .ok (.ldi d imm) ∧
    ∃ t, exec (.ldi d imm) s = .next t ∧ Holds s.words (t.reg d) imm.toNat ∧ Writes s t [d] s.status)

/-- R97, R99: `ADDC` and `SUBC` write the exact result and `C = 0`, or fault with `OVERFLOW` when a final carry or borrow
remains. -/
def Obligations.AddcAndSubcFaultOnCarryOrBorrow : Prop :=
  ∀ (d a b : Reg) (s : State), s.Wf →
    (decode (wordOfRegs 0x20 d.val a.val b.val 0) = .ok (.addc d a b) ∧
      (val (s.reg a) + val (s.reg b) < radix s.words →
        ∃ t, exec (.addc d a b) s = .next t ∧ Holds s.words (t.reg d) (val (s.reg a) + val (s.reg b)) ∧
          Writes s t [d] { s.status with c := false }) ∧
      (radix s.words ≤ val (s.reg a) + val (s.reg b) →
        exec (.addc d a b) s = .next (Faulted s .overflow (wordOfRegs 0x20 d.val a.val b.val 0)))) ∧
    (decode (wordOfRegs 0x22 d.val a.val b.val 0) = .ok (.subc d a b) ∧
      (val (s.reg b) ≤ val (s.reg a) →
        ∃ t, exec (.subc d a b) s = .next t ∧ Holds s.words (t.reg d) (val (s.reg a) - val (s.reg b)) ∧
          Writes s t [d] { s.status with c := false }) ∧
      (val (s.reg a) < val (s.reg b) →
        exec (.subc d a b) s = .next (Faulted s .overflow (wordOfRegs 0x22 d.val a.val b.val 0))))

/-- R98, R100: `ADDW` and `SUBW` write the sum and the difference modulo `RADIX` and record the final carry or borrow in `C`. -/
def Obligations.AddwAndSubwWrapAndRecordTheCarry : Prop :=
  ∀ (d a b : Reg) (s : State), s.Wf →
    (decode (wordOfRegs 0x21 d.val a.val b.val 0) = .ok (.addw d a b) ∧
      ∃ t, exec (.addw d a b) s = .next t ∧
        Holds s.words (t.reg d) ((val (s.reg a) + val (s.reg b)) % radix s.words) ∧
        Writes s t [d] { s.status with c := decide (radix s.words ≤ val (s.reg a) + val (s.reg b)) }) ∧
    (decode (wordOfRegs 0x23 d.val a.val b.val 0) = .ok (.subw d a b) ∧
      ∃ t, exec (.subw d a b) s = .next t ∧ (t.reg d).length = s.words ∧
        (val (t.reg d) : Int) = ((val (s.reg a) : Int) - val (s.reg b)) % (radix s.words : Int) ∧
        Writes s t [d] { s.status with c := decide (val (s.reg a) < val (s.reg b)) })

/-- R101, R102: `WADD` and `WSUB` work modulo `RADIX^2` across both halves and record the carry or borrow in `C`. -/
def Obligations.WaddAndWsubWrapAcrossBothHalves : Prop :=
  ∀ (d a b : Pair) (s : State), s.Wf →
    (decode (wordOfRegs 0x24 (2 * d.val) (2 * a.val) (2 * b.val) 0) = .ok (.wadd d a b) ∧
      ∃ t, exec (.wadd d a b) s = .next t ∧
        WHolds s.words (t.pair d)
          ((wval s.words (s.pair a) + wval s.words (s.pair b)) % (radix s.words) ^ 2) ∧
        Writes s t [pairLo d, pairHi d] { s.status with
          c := decide ((radix s.words) ^ 2 ≤ wval s.words (s.pair a) + wval s.words (s.pair b)) }) ∧
    (decode (wordOfRegs 0x25 (2 * d.val) (2 * a.val) (2 * b.val) 0) = .ok (.wsub d a b) ∧
      ∃ t, exec (.wsub d a b) s = .next t ∧ (t.pair d).1.length = s.words ∧ (t.pair d).2.length = s.words ∧
        (wval s.words (t.pair d) : Int) =
          ((wval s.words (s.pair a) : Int) - wval s.words (s.pair b)) % ((radix s.words) ^ 2 : Nat) ∧
        Writes s t [pairLo d, pairHi d] { s.status with
          c := decide (wval s.words (s.pair a) < wval s.words (s.pair b)) })

/-! ## Multiply and divide -/

/-- R112: `MULX` writes the exact double-width product to the pair. -/
def Obligations.MulxWritesTheFullProduct : Prop :=
  ∀ (d : Pair) (a b : Reg) (s : State), s.Wf →
    decode (wordOfRegs 0x30 (2 * d.val) a.val b.val 0) = .ok (.mulx d a b) ∧
    ∃ t, exec (.mulx d a b) s = .next t ∧
      WHolds s.words (t.pair d) (val (s.reg a) * val (s.reg b)) ∧ Writes s t [pairLo d, pairHi d] s.status

/-- R113, R114: `MULC` writes the product or faults with `OVERFLOW` when it does not fit; `MULW` writes it modulo `RADIX`. -/
def Obligations.MulcChecksAndMulwWraps : Prop :=
  ∀ (d a b : Reg) (s : State), s.Wf →
    (decode (wordOfRegs 0x31 d.val a.val b.val 0) = .ok (.mulc d a b) ∧
      (val (s.reg a) * val (s.reg b) < radix s.words →
        ∃ t, exec (.mulc d a b) s = .next t ∧ Holds s.words (t.reg d) (val (s.reg a) * val (s.reg b)) ∧
          Writes s t [d] s.status) ∧
      (radix s.words ≤ val (s.reg a) * val (s.reg b) →
        exec (.mulc d a b) s = .next (Faulted s .overflow (wordOfRegs 0x31 d.val a.val b.val 0)))) ∧
    (decode (wordOfRegs 0x32 d.val a.val b.val 0) = .ok (.mulw d a b) ∧
      ∃ t, exec (.mulw d a b) s = .next t ∧
        Holds s.words (t.reg d) (val (s.reg a) * val (s.reg b) % radix s.words) ∧ Writes s t [d] s.status)

/-- R124: `DIVREM` with two different destinations writes the quotient and remainder of the Euclidean division, faults with
`DIVZERO` on a zero divisor, and is `ILLEGAL` when the destinations are the same register, whatever the divisor. -/
def Obligations.DivremDividesOrFaults : Prop :=
  ∀ (d c a b : Reg) (s : State), s.Wf →
    decode (wordOfRegs 0x40 d.val a.val b.val c.val) = .ok (.divrem d c a b) ∧
    (d = c → exec (.divrem d c a b) s = .next (Faulted s .illegal (wordOfRegs 0x40 d.val a.val b.val c.val))) ∧
    (d ≠ c → val (s.reg b) = 0 →
      exec (.divrem d c a b) s = .next (Faulted s .divzero (wordOfRegs 0x40 d.val a.val b.val c.val))) ∧
    (d ≠ c → val (s.reg b) ≠ 0 →
      ∃ t, exec (.divrem d c a b) s = .next t ∧
        val (s.reg a) = val (t.reg d) * val (s.reg b) + val (t.reg c) ∧ val (t.reg c) < val (s.reg b) ∧
        (t.reg d).length = s.words ∧ (t.reg c).length = s.words ∧ Writes s t [d, c] s.status)

/-- R125, R126: `DIV` writes the floor quotient, `REM` the remainder; both fault with `DIVZERO` on a zero divisor. -/
def Obligations.DivAndRemDivideOrFault : Prop :=
  ∀ (d a b : Reg) (s : State), s.Wf →
    decode (wordOfRegs 0x41 d.val a.val b.val 0) = .ok (.div d a b) ∧
    decode (wordOfRegs 0x42 d.val a.val b.val 0) = .ok (.rem d a b) ∧
    (val (s.reg b) = 0 →
      exec (.div d a b) s = .next (Faulted s .divzero (wordOfRegs 0x41 d.val a.val b.val 0)) ∧
      exec (.rem d a b) s = .next (Faulted s .divzero (wordOfRegs 0x42 d.val a.val b.val 0))) ∧
    (val (s.reg b) ≠ 0 →
      (∃ t, exec (.div d a b) s = .next t ∧ Holds s.words (t.reg d) (val (s.reg a) / val (s.reg b)) ∧
        Writes s t [d] s.status) ∧
      (∃ t, exec (.rem d a b) s = .next t ∧ Holds s.words (t.reg d) (val (s.reg a) % val (s.reg b)) ∧
        Writes s t [d] s.status))

/-- R127: `WDIVREM` writes the 2N-word quotient and the N-word remainder, faults with `DIVZERO` on a zero divisor, and is
`ILLEGAL` when the remainder register is in the quotient pair; a word with an odd wide field decodes to no command. -/
def Obligations.WdivremDividesOrFaults : Prop :=
  ∀ (d : Pair) (c : Reg) (a : Pair) (b : Reg) (s : State), s.Wf →
    decode (wordOfRegs 0x43 (2 * d.val) (2 * a.val) b.val c.val) = .ok (.wdivrem d c a b) ∧
    (c = pairLo d ∨ c = pairHi d → exec (.wdivrem d c a b) s =
      .next (Faulted s .illegal (wordOfRegs 0x43 (2 * d.val) (2 * a.val) b.val c.val))) ∧
    (c ≠ pairLo d → c ≠ pairHi d → val (s.reg b) = 0 → exec (.wdivrem d c a b) s =
      .next (Faulted s .divzero (wordOfRegs 0x43 (2 * d.val) (2 * a.val) b.val c.val))) ∧
    (c ≠ pairLo d → c ≠ pairHi d → val (s.reg b) ≠ 0 →
      ∃ t, exec (.wdivrem d c a b) s = .next t ∧
        wval s.words (s.pair a) = wval s.words (t.pair d) * val (s.reg b) + val (t.reg c) ∧
        val (t.reg c) < val (s.reg b) ∧ (t.pair d).1.length = s.words ∧ (t.pair d).2.length = s.words ∧
        (t.reg c).length = s.words ∧ Writes s t [pairLo d, pairHi d, c] s.status) ∧
    (∀ w : Command, fieldOp w = 0x43 → w.getLsbD 20 = true ∨ w.getLsbD 16 = true → ∃ e, decode w = .error e)

/-- R128, R129: `WDIV` writes the 2N-word quotient, `WREM` the N-word remainder of a wide value; both fault with `DIVZERO` on a
zero divisor. -/
def Obligations.WdivAndWremDivideOrFault : Prop :=
  ∀ (a : Pair) (b : Reg) (s : State), s.Wf →
    (∀ d : Pair, decode (wordOfRegs 0x44 (2 * d.val) (2 * a.val) b.val 0) = .ok (.wdiv d a b) ∧
      (val (s.reg b) = 0 → exec (.wdiv d a b) s =
        .next (Faulted s .divzero (wordOfRegs 0x44 (2 * d.val) (2 * a.val) b.val 0))) ∧
      (val (s.reg b) ≠ 0 → ∃ t, exec (.wdiv d a b) s = .next t ∧
        WHolds s.words (t.pair d) (wval s.words (s.pair a) / val (s.reg b)) ∧
        Writes s t [pairLo d, pairHi d] s.status)) ∧
    (∀ d : Reg, decode (wordOfRegs 0x45 d.val (2 * a.val) b.val 0) = .ok (.wrem d a b) ∧
      (val (s.reg b) = 0 → exec (.wrem d a b) s =
        .next (Faulted s .divzero (wordOfRegs 0x45 d.val (2 * a.val) b.val 0))) ∧
      (val (s.reg b) ≠ 0 → ∃ t, exec (.wrem d a b) s = .next t ∧
        Holds s.words (t.reg d) (wval s.words (s.pair a) % val (s.reg b)) ∧ Writes s t [d] s.status))

/-! ## Shift, compare, count -/

/-- R145, R146: `SHLW` and `SHRW` shift by any count, drop what leaves the value and write no flag. -/
def Obligations.ShlwAndShrwShiftLogically : Prop :=
  ∀ (d a : Reg) (imm : Imm) (s : State), s.Wf →
    (decode (wordOfImm 0x50 d.val a.val imm.toNat) = .ok (.shlw d a imm) ∧
      ∃ t, exec (.shlw d a imm) s = .next t ∧
        Holds s.words (t.reg d) (val (s.reg a) * 2 ^ imm.toNat % radix s.words) ∧ Writes s t [d] s.status) ∧
    (decode (wordOfImm 0x51 d.val a.val imm.toNat) = .ok (.shrw d a imm) ∧
      ∃ t, exec (.shrw d a imm) s = .next t ∧
        Holds s.words (t.reg d) (val (s.reg a) / 2 ^ imm.toNat) ∧ Writes s t [d] s.status)

/-- R142, R147, R148: `SHLO` and `SHRO` give the same values and set `V` exactly when a 1 bit was shifted out. -/
def Obligations.ShloAndShroReportLoss : Prop :=
  ∀ (d a : Reg) (imm : Imm) (s : State), s.Wf →
    (decode (wordOfImm 0x52 d.val a.val imm.toNat) = .ok (.shlo d a imm) ∧
      ∃ t, exec (.shlo d a imm) s = .next t ∧
        Holds s.words (t.reg d) (val (s.reg a) * 2 ^ imm.toNat % radix s.words) ∧
        Writes s t [d] { s.status with v := decide (radix s.words ≤ val (s.reg a) * 2 ^ imm.toNat) }) ∧
    (decode (wordOfImm 0x53 d.val a.val imm.toNat) = .ok (.shro d a imm) ∧
      ∃ t, exec (.shro d a imm) s = .next t ∧
        Holds s.words (t.reg d) (val (s.reg a) / 2 ^ imm.toNat) ∧
        Writes s t [d] { s.status with v := decide (val (s.reg a) % 2 ^ imm.toNat ≠ 0) })

/-- R149, R150: `WSHL` and `WSHR` shift across the full 2N-word span. -/
def Obligations.WshlAndWshrSpanBothHalves : Prop :=
  ∀ (d a : Pair) (imm : Imm) (s : State), s.Wf →
    (decode (wordOfImm 0x54 (2 * d.val) (2 * a.val) imm.toNat) = .ok (.wshl d a imm) ∧
      ∃ t, exec (.wshl d a imm) s = .next t ∧
        WHolds s.words (t.pair d) (wval s.words (s.pair a) * 2 ^ imm.toNat % (radix s.words) ^ 2) ∧
        Writes s t [pairLo d, pairHi d] s.status) ∧
    (decode (wordOfImm 0x55 (2 * d.val) (2 * a.val) imm.toNat) = .ok (.wshr d a imm) ∧
      ∃ t, exec (.wshr d a imm) s = .next t ∧
        WHolds s.words (t.pair d) (wval s.words (s.pair a) / 2 ^ imm.toNat) ∧
        Writes s t [pairLo d, pairHi d] s.status)

/-- R151: `CMP` sets `EQ` on equal operands and `LT` when the first is less, by the unsigned values, and writes no register. -/
def Obligations.CmpSetsEqAndLt : Prop :=
  ∀ (a b : Reg) (s : State), s.Wf →
    decode (wordOfRegs 0x56 0 a.val b.val 0) = .ok (.cmp a b) ∧
    ∃ t, exec (.cmp a b) s = .next t ∧
      Writes s t [] { s.status with
        eq := decide (s.reg a = s.reg b), lt := decide (val (s.reg a) < val (s.reg b)) }

/-- R152, R153: `CLZ` writes the number of zero bits above the most significant 1 bit, `BLEN` the bit length. -/
def Obligations.ClzAndBlenCountBits : Prop :=
  ∀ (d a : Reg) (s : State), s.Wf →
    decode (wordOfRegs 0x57 d.val a.val 0 0) = .ok (.clz d a) ∧
    decode (wordOfRegs 0x58 d.val a.val 0 0) = .ok (.blen d a) ∧
    ∃ t u, exec (.clz d a) s = .next t ∧ exec (.blen d a) s = .next u ∧
      Writes s t [d] s.status ∧ Writes s u [d] s.status ∧
      (t.reg d).length = s.words ∧ (u.reg d).length = s.words ∧
      val (t.reg d) + val (u.reg d) = 64 * s.words ∧ val (s.reg a) < 2 ^ val (u.reg d) ∧
      (∀ m, val (s.reg a) < 2 ^ m → val (u.reg d) ≤ m)

/-! ## Montgomery engine and modular pipeline -/

/-- R174: `INV2K` writes the inverse modulo `2^k` and `NR = 0`; an even source sets `NR = 1` and writes nothing else; a `k`
outside `1..64*N` is `ILLEGAL`. -/
def Obligations.Inv2kInvertsOddValues : Prop :=
  ∀ (d a : Reg) (imm : Imm) (s : State), s.Wf →
    decode (wordOfImm 0x60 d.val a.val imm.toNat) = .ok (.inv2k d a imm) ∧
    (imm.toNat = 0 ∨ 64 * s.words < imm.toNat → exec (.inv2k d a imm) s =
      .next (Faulted s .illegal (wordOfImm 0x60 d.val a.val imm.toNat))) ∧
    (1 ≤ imm.toNat → imm.toNat ≤ 64 * s.words → val (s.reg a) % 2 = 0 →
      exec (.inv2k d a imm) s = .next { s with status := { s.status with nr := true } }) ∧
    (1 ≤ imm.toNat → imm.toNat ≤ 64 * s.words → val (s.reg a) % 2 = 1 →
      ∃ t, exec (.inv2k d a imm) s = .next t ∧ (t.reg d).length = s.words ∧ val (t.reg d) < 2 ^ imm.toNat ∧
        val (s.reg a) * val (t.reg d) % 2 ^ imm.toNat = 1 ∧ Writes s t [d] { s.status with nr := false })

/-- R168, R175: `MPINIT` on an odd modulus loads the bank with the modulus, the constants derived from it, and sets `MPV`; on an
even modulus, zero included, it sets `NR = 1` and writes nothing else. -/
def Obligations.MpinitDerivesTheParameters : Prop :=
  ∀ (a : Reg) (s : State), s.Wf →
    decode (wordOfRegs 0x61 0 a.val 0 0) = .ok (.mpinit a) ∧
    (val (s.reg a) % 2 = 0 → exec (.mpinit a) s = .next { s with status := { s.status with nr := true } }) ∧
    (val (s.reg a) % 2 = 1 →
      ∃ p : Bank, exec (.mpinit a) s =
          .next { s with mp := p, status := { s.status with mpv := true, nr := false } } ∧
        p.n = s.reg a ∧ Holds s.words p.r1 (maxv s.words % val (s.reg a) + 1) ∧
        (1 < val (s.reg a) → val p.r1 = radix s.words % val (s.reg a)) ∧
        Holds s.words p.r2 ((radix s.words) ^ 2 % val (s.reg a)) ∧ p.ninv.length = s.words ∧
        val (s.reg a) * val p.ninv % radix s.words = radix s.words - 1)

/-- R169, R170, R176: `REDC` faults with `NOPARAMS` while the bank is not valid. With a valid bank it completes on every operand with
what `redc` computes, which is congruent to `t * RADIX^-1` modulo `n`, and below `n` when `t < n * RADIX`. A word with an odd
wide field decodes to no command. -/
def Obligations.RedcReducesModuloTheBank : Prop :=
  ∀ (d : Reg) (a : Pair) (s : State), s.Wf →
    decode (wordOfRegs 0x62 d.val (2 * a.val) 0 0) = .ok (.redc d a) ∧
    (s.status.mpv = false →
      exec (.redc d a) s = .next (Faulted s .noparams (wordOfRegs 0x62 d.val (2 * a.val) 0 0))) ∧
    (s.status.mpv = true →
      ∃ t, exec (.redc d a) s = .next t ∧ t.reg d = redc s.words s.mp (s.pair a) ∧ (t.reg d).length = s.words ∧
        val (t.reg d) * radix s.words % val s.mp.n = wval s.words (s.pair a) % val s.mp.n ∧
        (wval s.words (s.pair a) < val s.mp.n * radix s.words → val (t.reg d) < val s.mp.n) ∧
        Writes s t [d] s.status) ∧
    (∀ w : Command, fieldOp w = 0x62 → w.getLsbD 16 = true → ∃ e, decode w = .error e)

/-- R171, R173, R177, R179: `TOMONT` and `FROMMONT` fault with `NOPARAMS` while the bank is not valid. With a valid bank `TOMONT` gives
`t * RADIX mod n` for every `t`, and `FROMMONT` gives the value below `n` that is `x * RADIX^-1` modulo `n`. -/
def Obligations.TomontAndFrommontConvert : Prop :=
  ∀ (d a : Reg) (s : State), s.Wf →
    (decode (wordOfRegs 0x63 d.val a.val 0 0) = .ok (.tomont d a) ∧
      (s.status.mpv = false →
        exec (.tomont d a) s = .next (Faulted s .noparams (wordOfRegs 0x63 d.val a.val 0 0))) ∧
      (s.status.mpv = true → ∃ t, exec (.tomont d a) s = .next t ∧
        Holds s.words (t.reg d) (val (s.reg a) * radix s.words % val s.mp.n) ∧ Writes s t [d] s.status)) ∧
    (decode (wordOfRegs 0x65 d.val a.val 0 0) = .ok (.frommont d a) ∧
      (s.status.mpv = false →
        exec (.frommont d a) s = .next (Faulted s .noparams (wordOfRegs 0x65 d.val a.val 0 0))) ∧
      (s.status.mpv = true → ∃ t, exec (.frommont d a) s = .next t ∧ (t.reg d).length = s.words ∧
        val (t.reg d) * radix s.words % val s.mp.n = val (s.reg a) % val s.mp.n ∧ val (t.reg d) < val s.mp.n ∧
        Writes s t [d] s.status))

/-- R172, R178: `MMUL` faults with `NOPARAMS` while the bank is not valid. With a valid bank it completes on every operand with what
`monty_mul` computes, which is congruent to `x * y * RADIX^-1` modulo `n`, and below `n` when the product is below `n * RADIX`. -/
def Obligations.MmulMultipliesInMontgomerySpace : Prop :=
  ∀ (d a b : Reg) (s : State), s.Wf →
    decode (wordOfRegs 0x64 d.val a.val b.val 0) = .ok (.mmul d a b) ∧
    (s.status.mpv = false →
      exec (.mmul d a b) s = .next (Faulted s .noparams (wordOfRegs 0x64 d.val a.val b.val 0))) ∧
    (s.status.mpv = true →
      ∃ t, exec (.mmul d a b) s = .next t ∧ t.reg d = montyMul s.words s.mp (s.reg a) (s.reg b) ∧
        (t.reg d).length = s.words ∧
        val (t.reg d) * radix s.words % val s.mp.n = val (s.reg a) * val (s.reg b) % val s.mp.n ∧
        (val (s.reg a) * val (s.reg b) < val s.mp.n * radix s.words → val (t.reg d) < val s.mp.n) ∧
        Writes s t [d] s.status)

/-- R190, R193: `MULMOD` gives `(x * y) mod m`, and faults with `ZEROMOD` on a zero modulus. -/
def Obligations.MulmodMultipliesModulo : Prop :=
  ∀ (d a b c : Reg) (s : State), s.Wf →
    decode (wordOfRegs 0x70 d.val a.val b.val c.val) = .ok (.mulmod d a b c) ∧
    (val (s.reg c) = 0 →
      exec (.mulmod d a b c) s = .next (Faulted s .zeromod (wordOfRegs 0x70 d.val a.val b.val c.val))) ∧
    (val (s.reg c) ≠ 0 → ∃ t, exec (.mulmod d a b c) s = .next t ∧
      Holds s.words (t.reg d) (val (s.reg a) * val (s.reg b) % val (s.reg c)) ∧ Writes s t [d] s.status)

/-- R191, R194: `MODEXP` gives `(base ^ e) mod m`, with `x^0 = 1`, and faults with `ZEROMOD` on a zero modulus. -/
def Obligations.ModexpExponentiatesModulo : Prop :=
  ∀ (d a b c : Reg) (s : State), s.Wf →
    decode (wordOfRegs 0x71 d.val a.val b.val c.val) = .ok (.modexp d a b c) ∧
    (val (s.reg c) = 0 →
      exec (.modexp d a b c) s = .next (Faulted s .zeromod (wordOfRegs 0x71 d.val a.val b.val c.val))) ∧
    (val (s.reg c) ≠ 0 → ∃ t, exec (.modexp d a b c) s = .next t ∧
      Holds s.words (t.reg d) (val (s.reg a) ^ val (s.reg b) % val (s.reg c)) ∧ Writes s t [d] s.status)

/-- R192, R195: `MEXPM` faults with `NOPARAMS` while the bank is not valid; with a valid bank it gives `(base ^ e) mod n` through
Montgomery space. -/
def Obligations.MexpmExponentiatesThroughMontgomerySpace : Prop :=
  ∀ (d a b : Reg) (s : State), s.Wf →
    decode (wordOfRegs 0x72 d.val a.val b.val 0) = .ok (.mexpm d a b) ∧
    (s.status.mpv = false →
      exec (.mexpm d a b) s = .next (Faulted s .noparams (wordOfRegs 0x72 d.val a.val b.val 0))) ∧
    (s.status.mpv = true → ∃ t, exec (.mexpm d a b) s = .next t ∧
      Holds s.words (t.reg d) (val (s.reg a) ^ val (s.reg b) % val s.mp.n) ∧ Writes s t [d] s.status)

/-! ## The document's algorithms compute the meanings -/

/-- R80 to R85: the word primitives lose nothing: each result and its carry, borrow, high word or flag is the exact integer
result. -/
def Obligations.WordPrimitivesAreExact : Prop :=
  ∀ a b c cin : Word,
    (addWithCarry a b cin).1.toNat + 2 ^ 64 * (addWithCarry a b cin).2.toNat = a.toNat + b.toNat + cin.toNat ∧
    ((subWithBorrow a b cin).1.toNat : Int) - 2 ^ 64 * (subWithBorrow a b cin).2.toNat =
      (a.toNat : Int) - b.toNat - (if cin = 0 then 0 else 1) ∧
    (mulAddWithCarry a b c cin).1.toNat + 2 ^ 64 * (mulAddWithCarry a b c cin).2.toNat =
      a.toNat + b.toNat * c.toNat + cin.toNat ∧
    (∀ k < 64, (wordShl a k).1.toNat = a.toNat * 2 ^ k % 2 ^ 64 ∧
      (wordShl a k).2 = decide (2 ^ 64 ≤ a.toNat * 2 ^ k) ∧ (wordShr a k).1.toNat = a.toNat / 2 ^ k ∧
      (wordShr a k).2 = decide (a.toNat % 2 ^ k ≠ 0)) ∧
    (a = 0 → wordClz a = 64) ∧ (a ≠ 0 → 2 ^ (63 - wordClz a) ≤ a.toNat ∧ a.toNat < 2 ^ (64 - wordClz a))

/-- R90 to R93: the ripple of carries or borrows through the words, and from the low half into the high half, computes the
integer sum and difference, for every `N`. -/
def Obligations.RippleChainsComputeSumAndDifference : Prop :=
  (∀ (n : Nat) (x y : Fixed) (cin : Nat), x.length = n → y.length = n → cin ≤ 1 →
    fxAddWords x y (BitVec.ofNat 64 cin) = ((fxAdd n x y cin).1, BitVec.ofNat 64 (fxAdd n x y cin).2) ∧
    fxSubWords x y (BitVec.ofNat 64 cin) = ((fxSub n x y cin).1, BitVec.ofNat 64 (fxSub n x y cin).2)) ∧
  (∀ (n : Nat) (x y : Wide), x.1.length = n → x.2.length = n → y.1.length = n → y.2.length = n →
    wideAddWords x y = ((wideAdd n x y).1, BitVec.ofNat 64 (wideAdd n x y).2) ∧
    wideSubWords x y = ((wideSub n x y).1, BitVec.ofNat 64 (wideSub n x y).2))

/-- R110, R111: schoolbook accumulation over all word pairs computes the exact double-width product, for every `N`. -/
def Obligations.SchoolbookMultiplicationIsTheProduct : Prop :=
  ∀ (n : Nat) (x y : Fixed), x.length = n → y.length = n → fxMulWords n x y = fxMul n x y

/-- R120 to R123: bit-serial long division computes the Euclidean quotient and remainder, over N words and with a 2N-word
dividend, for every `N`. -/
def Obligations.BitSerialDivisionIsEuclidean : Prop :=
  (∀ (n : Nat) (x y : Fixed), x.length = n → y.length = n → val y ≠ 0 → seqDivremWords n x y = fxDivrem n x y) ∧
  (∀ (n : Nat) (x : Wide) (m : Fixed), x.1.length = n → x.2.length = n → m.length = n → val m ≠ 0 →
    wideDivremWords n x m = wideDivrem n x m)

/-- R140, R141, R143, R144: the word-level shifts, comparison and leading-zero count compute their integer meanings, over any
number of words. -/
def Obligations.WordLevelShiftsAndScansAreExact : Prop :=
  ∀ (l : Nat) (x y : Fixed), x.length = l → y.length = l →
    (∀ k, seqShlWords l x k = seqShl l x k ∧ seqShrWords l x k = seqShr l x k) ∧
    seqCmpWords x y = seqCmp x y ∧ seqLzWords x = seqLz l x

/-- R166, R167: the Hensel lifting and the bit-by-bit construction agree for every source and every `k` in range. -/
def Obligations.BitByBitInverseAgreesWithHenselLifting : Prop :=
  ∀ (n k : Nat) (a : Fixed), a.length = n → 1 ≤ k → k ≤ 64 * n → inv2kBits n a k = inv2k n a k

/-! ## Laws over command sequences -/

/-- R103: adding and then subtracting the same register gives the first operand back, checked when the sum fits and wrapping
always. -/
def Obligations.SubtractUndoesAdd : Prop :=
  ∀ (r d a b : Reg) (s : State), s.Wf → r ≠ b →
    (val (s.reg a) + val (s.reg b) < radix s.words →
      ∃ t u, exec (.addc r a b) s = .next t ∧ exec (.subc d r b) t = .next u ∧ u.reg d = s.reg a ∧
        u.status.fault = s.status.fault) ∧
    (∃ t u, exec (.addw r a b) s = .next t ∧ exec (.subw d r b) t = .next u ∧ u.reg d = s.reg a)

/-- R130: after `DIVREM` by a nonzero divisor, `MULC` and `ADDC` rebuild the dividend without a fault and `CMP` finds the remainder
less than the divisor. -/
def Obligations.DivisionIdentityHoldsInCommands : Prop :=
  ∀ (q r a b p : Reg) (s : State), s.Wf → s.status.fault = false → val (s.reg b) ≠ 0 →
    q ≠ r → q ≠ b → r ≠ b → p ≠ r → p ≠ b →
    ∃ s1 s2 s3 s4, exec (.divrem q r a b) s = .next s1 ∧ exec (.mulc p q b) s1 = .next s2 ∧
      exec (.addc p p r) s2 = .next s3 ∧ exec (.cmp r b) s3 = .next s4 ∧
      s4.reg p = s.reg a ∧ s4.status.lt = true ∧ s4.status.fault = false

/-- R154: a value with at least `k` leading zero bits comes back from `SHLO` and `SHRW`, with `V = 0`; and `SHRW` then `SHLW` gives the
source back exactly when its low `k` bits are zero. -/
def Obligations.ShiftRoundTripsRecoverTheSource : Prop :=
  ∀ (r d a : Reg) (k : Imm) (s : State), s.Wf →
    (k.toNat ≤ seqLz s.words (s.reg a) →
      ∃ t u, exec (.shlo r a k) s = .next t ∧ t.status.v = false ∧ exec (.shrw d r k) t = .next u ∧
        u.reg d = s.reg a) ∧
    (∃ t u, exec (.shrw r a k) s = .next t ∧ exec (.shlw d r k) t = .next u ∧
      (u.reg d = s.reg a ↔ val (s.reg a) % 2 ^ k.toNat = 0))

/-- R180: with a valid bank, `TOMONT` then `FROMMONT` leaves the source reduced modulo `n`. -/
def Obligations.MontgomeryRoundTripReduces : Prop :=
  ∀ (r d a : Reg) (s : State), s.Wf → s.status.mpv = true →
    ∃ t u, exec (.tomont r a) s = .next t ∧ exec (.frommont d r) t = .next u ∧
      Holds s.words (u.reg d) (val (s.reg a) % val s.mp.n)

/-- R181: with a valid bank, `TOMONT`, `TOMONT`, `MMUL`, `FROMMONT` leave the value that `MULMOD` with the same modulus leaves,
`(a * b) mod n`, when the first conversion overwrites neither the second source nor is overwritten by the second. For every
choice of registers the path completes, and leaves the product modulo `n` of the values converted last into its two factors. -/
def Obligations.MontgomeryMultiplyMatchesMulmod : Prop :=
  ∀ (x y z d a b m : Reg) (s : State), s.Wf → s.status.mpv = true → s.reg m = s.mp.n →
    ∃ s1 s2 s3 s4 t, exec (.tomont x a) s = .next s1 ∧ exec (.tomont y b) s1 = .next s2 ∧
      exec (.mmul z x y) s2 = .next s3 ∧ exec (.frommont d z) s3 = .next s4 ∧
      exec (.mulmod d a b m) s = .next t ∧
      (x ≠ b → x ≠ y → s4.reg d = t.reg d ∧ val (s4.reg d) = val (s.reg a) * val (s.reg b) % val s.mp.n) ∧
      val (s4.reg d) =
        (if x = y then val (s1.reg b) else val (s.reg a)) * val (s1.reg b) % val s.mp.n

/-- R182: after a successful `INV2K rd, ra, k`, the low `k` bits of `r[a] * r[d]`, kept by `MULW`, `SHLW` and `SHRW`, are 1. -/
def Obligations.InverseTimesSourceIsOneInCommands : Prop :=
  ∀ (d a r : Reg) (k : Imm) (s : State), s.Wf → a ≠ d → 1 ≤ k.toNat → k.toNat ≤ 64 * s.words →
    val (s.reg a) % 2 = 1 →
    ∃ s1 s2 s3 s4, exec (.inv2k d a k) s = .next s1 ∧ exec (.mulw r a d) s1 = .next s2 ∧
      exec (.shlw r r (BitVec.ofNat 16 (64 * s.words - k.toNat))) s2 = .next s3 ∧
      exec (.shrw r r (BitVec.ofNat 16 (64 * s.words - k.toNat))) s3 = .next s4 ∧ val (s4.reg r) = 1

/-- R196: with a valid bank, `MEXPM` and `MODEXP` with the bank's modulus leave the same value, `(base ^ e) mod n`, for all
bases and exponents. -/
def Obligations.TheTwoExponentiationPipelinesAgree : Prop :=
  ∀ (d a b m : Reg) (s : State), s.Wf → s.status.mpv = true → s.reg m = s.mp.n →
    ∃ t u, exec (.mexpm d a b) s = .next t ∧ exec (.modexp d a b m) s = .next u ∧ t.reg d = u.reg d ∧
      Holds s.words (t.reg d) (val (s.reg a) ^ val (s.reg b) % val s.mp.n)

/-! ## Host software -/

/-- R209, R210: for every nonzero modulus, 1 included, `mod_inv` returns the `x` below the modulus with `(a*x) mod m = 1 mod m`
exactly when the operands are coprime, and no result otherwise; it does not fault. A zero modulus faults with `ZEROMOD`
when `a` is nonzero; when both are zero the loop does not run and there is no result, which is the model's reading (log
entry 15). The start values of the loop are those the spec supplies from general knowledge (G4; log entry 10). -/
def Obligations.ModInvReturnsTheInverseOrNone : Prop :=
  ∀ (n : Nat) (a m : Fixed), 1 ≤ n → a.length = n → m.length = n →
    (val m ≠ 0 → Nat.gcd (val a) (val m) = 1 → ∃ x, modInv n a m = .value x ∧ x.length = n ∧ val x < val m ∧
      val a * val x % val m = 1 % val m) ∧
    (val m ≠ 0 → Nat.gcd (val a) (val m) ≠ 1 → modInv n a m = .noResult) ∧
    (val m = 0 → val a ≠ 0 → modInv n a m = .fault .zeromod) ∧
    (val m = 0 → val a = 0 → modInv n a m = .noResult)

/-- R206, R207, R211: Euclidean gcd, binary gcd and extended Euclid give the same greatest common divisor, and extended Euclid's
coefficients satisfy `a*x + b*y = gcd`. The start values of extended Euclid are the model's (log entry 10). -/
def Obligations.TheThreeGcdAlgorithmsAgree : Prop :=
  ∀ (n : Nat) (a b : Fixed), a.length = n → b.length = n →
    val (hostGcd n a b) = Nat.gcd (val a) (val b) ∧ val (bgcd n a b) = Nat.gcd (val a) (val b) ∧
    (extEuclid (val a) (val b)).1 = Nat.gcd (val a) (val b) ∧
    (val a : Int) * (extEuclid (val a) (val b)).2.1 + (val b : Int) * (extEuclid (val a) (val b)).2.2 =
      Nat.gcd (val a) (val b)

/-- R212, R214, R216: parsing the decimal form of a value gives the value back, for every value of every width. -/
def Obligations.ParsingTheDecimalFormGivesTheValue : Prop :=
  ∀ (n : Nat) (x : Fixed), 1 ≤ n → x.length = n → parseDecimal n (toDecimal n x) = .value x
end

