-- ==== Sys2Proof/Laws/State.lean ====
section
/-! SUPPORT. One lemma per field per update of the state, and what reading a register gives after a write. -/

namespace Sys2Proof.Machine

namespace State

variable (s : State)
@[simp] theorem setReg_words (r : Reg) (v : Fixed) : (s.setReg r v).words = s.words := rfl
@[simp] theorem setReg_regs (r : Reg) (v : Fixed) : (s.setReg r v).regs = s.regs.set r v := rfl
@[simp] theorem setReg_mp (r : Reg) (v : Fixed) : (s.setReg r v).mp = s.mp := rfl
@[simp] theorem setReg_status (r : Reg) (v : Fixed) : (s.setReg r v).status = s.status := rfl
@[simp] theorem setReg_fcmd (r : Reg) (v : Fixed) : (s.setReg r v).fcmd = s.fcmd := rfl
@[simp] theorem setReg_pending (r : Reg) (v : Fixed) : (s.setReg r v).pending = s.pending := rfl
@[simp] theorem setReg_replies (r : Reg) (v : Fixed) : (s.setReg r v).replies = s.replies := rfl
@[simp] theorem setReg_resets (r : Reg) (v : Fixed) : (s.setReg r v).resets = s.resets := rfl

@[simp] theorem setC_words (b : Bool) : (s.setC b).words = s.words := rfl
@[simp] theorem setC_regs (b : Bool) : (s.setC b).regs = s.regs := rfl
@[simp] theorem setC_mp (b : Bool) : (s.setC b).mp = s.mp := rfl
@[simp] theorem setC_status (b : Bool) : (s.setC b).status = { s.status with c := b } := rfl
@[simp] theorem setC_fcmd (b : Bool) : (s.setC b).fcmd = s.fcmd := rfl
@[simp] theorem setC_pending (b : Bool) : (s.setC b).pending = s.pending := rfl
@[simp] theorem setC_replies (b : Bool) : (s.setC b).replies = s.replies := rfl
@[simp] theorem setC_resets (b : Bool) : (s.setC b).resets = s.resets := rfl

@[simp] theorem setV_words (b : Bool) : (s.setV b).words = s.words := rfl
@[simp] theorem setV_regs (b : Bool) : (s.setV b).regs = s.regs := rfl
@[simp] theorem setV_mp (b : Bool) : (s.setV b).mp = s.mp := rfl
@[simp] theorem setV_status (b : Bool) : (s.setV b).status = { s.status with v := b } := rfl
@[simp] theorem setV_fcmd (b : Bool) : (s.setV b).fcmd = s.fcmd := rfl
@[simp] theorem setV_pending (b : Bool) : (s.setV b).pending = s.pending := rfl
@[simp] theorem setV_replies (b : Bool) : (s.setV b).replies = s.replies := rfl
@[simp] theorem setV_resets (b : Bool) : (s.setV b).resets = s.resets := rfl

@[simp] theorem setNr_words (b : Bool) : (s.setNr b).words = s.words := rfl
@[simp] theorem setNr_regs (b : Bool) : (s.setNr b).regs = s.regs := rfl
@[simp] theorem setNr_mp (b : Bool) : (s.setNr b).mp = s.mp := rfl
@[simp] theorem setNr_status (b : Bool) : (s.setNr b).status = { s.status with nr := b } := rfl
@[simp] theorem setNr_fcmd (b : Bool) : (s.setNr b).fcmd = s.fcmd := rfl
@[simp] theorem setNr_pending (b : Bool) : (s.setNr b).pending = s.pending := rfl
@[simp] theorem setNr_replies (b : Bool) : (s.setNr b).replies = s.replies := rfl
@[simp] theorem setNr_resets (b : Bool) : (s.setNr b).resets = s.resets := rfl

@[simp] theorem setCompare_words (o : Ordering) : (s.setCompare o).words = s.words := rfl
@[simp] theorem setCompare_regs (o : Ordering) : (s.setCompare o).regs = s.regs := rfl
@[simp] theorem setCompare_mp (o : Ordering) : (s.setCompare o).mp = s.mp := rfl
@[simp] theorem setCompare_status (o : Ordering) : (s.setCompare o).status = { s.status with eq := o == .eq, lt := o == .lt } := rfl
@[simp] theorem setCompare_fcmd (o : Ordering) : (s.setCompare o).fcmd = s.fcmd := rfl
@[simp] theorem setCompare_pending (o : Ordering) : (s.setCompare o).pending = s.pending := rfl
@[simp] theorem setCompare_replies (o : Ordering) : (s.setCompare o).replies = s.replies := rfl
@[simp] theorem setCompare_resets (o : Ordering) : (s.setCompare o).resets = s.resets := rfl

@[simp] theorem loadBank_words (p : Bank) : (s.loadBank p).words = s.words := rfl
@[simp] theorem loadBank_regs (p : Bank) : (s.loadBank p).regs = s.regs := rfl
@[simp] theorem loadBank_mp (p : Bank) : (s.loadBank p).mp = p := rfl
@[simp] theorem loadBank_status (p : Bank) : (s.loadBank p).status = { s.status with mpv := true } := rfl
@[simp] theorem loadBank_fcmd (p : Bank) : (s.loadBank p).fcmd = s.fcmd := rfl
@[simp] theorem loadBank_pending (p : Bank) : (s.loadBank p).pending = s.pending := rfl
@[simp] theorem loadBank_replies (p : Bank) : (s.loadBank p).replies = s.replies := rfl
@[simp] theorem loadBank_resets (p : Bank) : (s.loadBank p).resets = s.resets := rfl

@[simp] theorem raise_words (c : Cause) (cmd : Command) : (s.raise c cmd).words = s.words := rfl
@[simp] theorem raise_regs (c : Cause) (cmd : Command) : (s.raise c cmd).regs = s.regs := rfl
@[simp] theorem raise_mp (c : Cause) (cmd : Command) : (s.raise c cmd).mp = s.mp := rfl
@[simp] theorem raise_status (c : Cause) (cmd : Command) : (s.raise c cmd).status = { s.status with fault := true, cause := c.code } := rfl
@[simp] theorem raise_fcmd (c : Cause) (cmd : Command) : (s.raise c cmd).fcmd = cmd := rfl
@[simp] theorem raise_pending (c : Cause) (cmd : Command) : (s.raise c cmd).pending = s.pending := rfl
@[simp] theorem raise_replies (c : Cause) (cmd : Command) : (s.raise c cmd).replies = s.replies := rfl
@[simp] theorem raise_resets (c : Cause) (cmd : Command) : (s.raise c cmd).resets = s.resets := rfl

@[simp] theorem placeCommand_words (cmd : Command) : (s.placeCommand cmd).words = s.words := rfl
@[simp] theorem placeCommand_regs (cmd : Command) : (s.placeCommand cmd).regs = s.regs := rfl
@[simp] theorem placeCommand_mp (cmd : Command) : (s.placeCommand cmd).mp = s.mp := rfl
@[simp] theorem placeCommand_status (cmd : Command) : (s.placeCommand cmd).status = s.status := rfl
@[simp] theorem placeCommand_fcmd (cmd : Command) : (s.placeCommand cmd).fcmd = s.fcmd := rfl
@[simp] theorem placeCommand_pending (cmd : Command) : (s.placeCommand cmd).pending = .issue cmd :: s.pending := rfl
@[simp] theorem placeCommand_replies (cmd : Command) : (s.placeCommand cmd).replies = s.replies := rfl
@[simp] theorem placeCommand_resets (cmd : Command) : (s.placeCommand cmd).resets = s.resets := rfl

@[simp] theorem setPair_words (k : Pair) (x : Wide) : (s.setPair k x).words = s.words := rfl
@[simp] theorem setPair_mp (k : Pair) (x : Wide) : (s.setPair k x).mp = s.mp := rfl
@[simp] theorem setPair_status (k : Pair) (x : Wide) : (s.setPair k x).status = s.status := rfl
@[simp] theorem setPair_fcmd (k : Pair) (x : Wide) : (s.setPair k x).fcmd = s.fcmd := rfl
@[simp] theorem setPair_pending (k : Pair) (x : Wide) : (s.setPair k x).pending = s.pending := rfl
@[simp] theorem setPair_replies (k : Pair) (x : Wide) : (s.setPair k x).replies = s.replies := rfl
@[simp] theorem setPair_resets (k : Pair) (x : Wide) : (s.setPair k x).resets = s.resets := rfl

@[simp] theorem resetBlock_words : s.resetBlock.words = s.words := rfl
@[simp] theorem resetBlock_pending : s.resetBlock.pending = s.pending := rfl
@[simp] theorem resetBlock_replies : s.resetBlock.replies = s.replies := rfl
@[simp] theorem resetBlock_status : s.resetBlock.status = Status.reset := rfl
@[simp] theorem resetBlock_fcmd : s.resetBlock.fcmd = 0 := rfl
@[simp] theorem resetBlock_resets : s.resetBlock.resets = s.resets + 1 := rfl

@[simp] theorem reg_setC (b : Bool) (r : Reg) : (s.setC b).reg r = s.reg r := rfl
@[simp] theorem reg_setV (b : Bool) (r : Reg) : (s.setV b).reg r = s.reg r := rfl
@[simp] theorem reg_setNr (b : Bool) (r : Reg) : (s.setNr b).reg r = s.reg r := rfl
@[simp] theorem reg_setCompare (o : Ordering) (r : Reg) : (s.setCompare o).reg r = s.reg r := rfl
@[simp] theorem reg_loadBank (p : Bank) (r : Reg) : (s.loadBank p).reg r = s.reg r := rfl
@[simp] theorem reg_raise (c : Cause) (cmd : Command) (r : Reg) : (s.raise c cmd).reg r = s.reg r := rfl
@[simp] theorem reg_placeCommand (cmd : Command) (r : Reg) : (s.placeCommand cmd).reg r = s.reg r := rfl

@[simp] theorem reg_setReg_self (r : Reg) (v : Fixed) : (s.setReg r v).reg r = v := by
  simp [reg, setReg]

theorem reg_setReg_of_ne (v : Fixed) {r q : Reg} (h : q ≠ r) : (s.setReg r v).reg q = s.reg q := by
  have h' : (r : Nat) ≠ q := fun e => h (Fin.ext e.symm)
  simp [reg, setReg, h']

theorem reg_setReg (r q : Reg) (v : Fixed) : (s.setReg r v).reg q = if q = r then v else s.reg q := by
  split
  · next h => rw [h, reg_setReg_self]
  · next h => exact reg_setReg_of_ne s v h

theorem setReg_reg_self (r : Reg) : s.setReg r (s.reg r) = s := by
  simp [reg, setReg]

@[simp] theorem reg_setPair_lo (k : Pair) (x : Wide) : (s.setPair k x).reg (pairLo k) = x.1 := by
  rw [setPair, reg_setReg_of_ne _ _ (by simp [pairLo, pairHi, Fin.ext_iff]), reg_setReg_self]

@[simp] theorem reg_setPair_hi (k : Pair) (x : Wide) : (s.setPair k x).reg (pairHi k) = x.2 := by
  rw [setPair, reg_setReg_self]

theorem reg_setPair_of_ne (x : Wide) {k : Pair} {q : Reg} (hl : q ≠ pairLo k) (hh : q ≠ pairHi k) :
    (s.setPair k x).reg q = s.reg q := by
  rw [setPair, reg_setReg_of_ne _ _ hh, reg_setReg_of_ne _ _ hl]

@[simp] theorem pair_setPair_self (k : Pair) (x : Wide) : (s.setPair k x).pair k = x := by
  simp [pair]

theorem reg_resetFor (n : Nat) (r : Reg) : (resetFor n).reg r = List.replicate n 0 := by
  simp [reg, resetFor]

@[simp] theorem reg_resetBlock (r : Reg) : s.resetBlock.reg r = freeFixed s.words s.resets r.val := by
  simp [reg, resetBlock]

end State

@[simp] theorem length_freeFixed (n k slot : Nat) : (freeFixed n k slot).length = n := by
  simp [freeFixed]

end Sys2Proof.Machine
end

