-- ==== Sys2Proof/Laws/Values.lean ====
section
/-! SUPPORT. Small lemmas of the value functions (R11, R14, R15): `val` and `fix` are inverse to each other below
`RADIX`, and the same for wide values. -/

namespace Sys2Proof.Machine

theorem radix_pos (n : Nat) : 0 < radix n := Nat.two_pow_pos _

@[simp] theorem radix_zero : radix 0 = 1 := rfl

theorem radix_succ (n : Nat) : radix (n + 1) = 2 ^ 64 * radix n := by
  rw [radix, radix, Nat.mul_add, Nat.pow_add, Nat.mul_comm]

theorem radix_add (m n : Nat) : radix (m + n) = radix m * radix n := by
  simp [radix, Nat.mul_add, Nat.pow_add]

theorem radix_two_mul (n : Nat) : radix (2 * n) = radix n ^ 2 := by
  rw [two_mul, radix_add, sq]

theorem one_lt_radix {n : Nat} (h : 1 ≤ n) : 1 < radix n :=
  Nat.one_lt_two_pow (by omega)

@[simp] theorem val_nil : val [] = 0 := rfl

@[simp] theorem val_cons (w : Word) (ws : Fixed) : val (w :: ws) = w.toNat + 2 ^ 64 * val ws := rfl

theorem val_lt (x : Fixed) : val x < radix x.length := by
  induction x with
  | nil => simp
  | cons w ws ih =>
    have hw := w.isLt
    rw [List.length_cons, radix_succ, val_cons]
    have : 2 ^ 64 * (val ws + 1) ≤ 2 ^ 64 * radix ws.length := Nat.mul_le_mul_left _ ih
    omega

theorem val_append (x y : Fixed) : val (x ++ y) = val x + radix x.length * val y := by
  induction x with
  | nil => simp
  | cons w ws ih =>
    simp only [List.cons_append, val_cons, ih, List.length_cons, radix_succ]
    ring

theorem val_injective {x y : Fixed} (hl : x.length = y.length) (hv : val x = val y) : x = y := by
  induction x generalizing y with
  | nil => exact (List.length_eq_zero_iff.mp hl.symm).symm
  | cons a as ih =>
    cases y with
    | nil => simp at hl
    | cons b bs =>
      have ha := a.isLt
      have hb := b.isLt
      rw [val_cons, val_cons] at hv
      have hab : a = b := BitVec.eq_of_toNat_eq (by omega)
      rw [hab, ih (by simpa using hl) (by omega)]

@[simp] theorem length_fix (n v : Nat) : (fix n v).length = n := by
  induction n generalizing v with
  | zero => rfl
  | succ n ih => simp [fix, ih]

theorem val_fix (n v : Nat) : val (fix n v) = v % radix n := by
  induction n generalizing v with
  | zero => simp [fix, Nat.mod_one]
  | succ n ih =>
    rw [fix, val_cons, ih, radix_succ, BitVec.toNat_ofNat, Nat.mod_mul]

theorem val_fix_of_lt {n v : Nat} (h : v < radix n) : val (fix n v) = v := by
  rw [val_fix, Nat.mod_eq_of_lt h]

theorem fix_mod_radix (n v : Nat) : fix n (v % radix n) = fix n v :=
  val_injective (by simp) (by rw [val_fix, val_fix, Nat.mod_mod])

@[simp] theorem fix_val (x : Fixed) : fix x.length (val x) = x :=
  val_injective (by simp) (by rw [val_fix_of_lt (val_lt x)])

theorem fix_val_of_length {n : Nat} {x : Fixed} (h : x.length = n) : fix n (val x) = x := by
  subst h; exact fix_val x

theorem val_lt_of_length {n : Nat} {x : Fixed} (h : x.length = n) : val x < radix n := by
  subst h; exact val_lt x

@[simp] theorem val_replicate_zero (n : Nat) : val (List.replicate n 0#64) = 0 := by
  induction n with
  | zero => rfl
  | succ n ih => simp [List.replicate_succ, ih]

theorem fix_zero (n : Nat) : fix n 0 = List.replicate n 0#64 :=
  val_injective (by simp) (by rw [val_fix, Nat.zero_mod, val_replicate_zero])

@[simp] theorem length_zext (n v : Nat) : (zext n v).length = n := length_fix n v

theorem val_zext (n v : Nat) : val (zext n v) = v % radix n := val_fix n v

@[simp] theorem length_wide_fst (n v : Nat) : (wide n v).1.length = n := length_fix n v

@[simp] theorem length_wide_snd (n v : Nat) : (wide n v).2.length = n := length_fix n _

theorem wval_wide (n v : Nat) : wval n (wide n v) = v % (radix n) ^ 2 := by
  rw [wval, wide, val_fix, val_fix, sq, Nat.mod_mul]
  ring

theorem wval_lt {n : Nat} {x : Wide} (hl : x.1.length = n) (hh : x.2.length = n) :
    wval n x < (radix n) ^ 2 := by
  have h1 := val_lt_of_length hl
  have h2 := val_lt_of_length hh
  have h3 : (val x.2 + 1) * radix n ≤ radix n * radix n := Nat.mul_le_mul_right _ h2
  rw [wval, sq]
  rw [Nat.add_mul, Nat.one_mul] at h3
  omega

theorem wval_wide_of_lt {n v : Nat} (h : v < (radix n) ^ 2) : wval n (wide n v) = v := by
  rw [wval_wide, Nat.mod_eq_of_lt h]

theorem wval_fst {n : Nat} {x : Wide} (hl : x.1.length = n) : wval n x % radix n = val x.1 := by
  rw [wval, Nat.mul_add_mod_self_right, Nat.mod_eq_of_lt (val_lt_of_length hl)]

theorem wval_snd {n : Nat} {x : Wide} (hl : x.1.length = n) : wval n x / radix n = val x.2 := by
  rw [wval, Nat.mul_comm, Nat.mul_add_div (radix_pos n), Nat.div_eq_of_lt (val_lt_of_length hl), Nat.add_zero]

theorem val_wideWords {n : Nat} {x : Wide} (hl : x.1.length = n) : val (wideWords x) = wval n x := by
  rw [wideWords, val_append, hl, wval]
  ring

theorem pairLo_ne_pairHi (k : Pair) : pairLo k ≠ pairHi k := by
  simp [pairLo, pairHi, Fin.ext_iff]

theorem pairLo_injective {j k : Pair} (h : pairLo j = pairLo k) : j = k := by
  rw [pairLo, pairLo, Fin.mk.injEq] at h
  exact Fin.ext (by omega)

theorem isOdd_eq {x : Fixed} : isOdd x = decide (val x % 2 = 1) := by
  cases x with
  | nil => rfl
  | cons w ws =>
    have h : val (w :: ws) % 2 = w.toNat % 2 := by rw [val_cons]; omega
    rw [h, isOdd, wordAt, List.getD_cons_zero]
    rfl

end Sys2Proof.Machine
end

