-- ==== Sys2Proof/Laws/Exec.lean ====
section
/-! SUPPORT. What each shared operation does, once: the transactions and the issue of a command, the outcomes a meaning can
end in, the frames of register writes, and the integer meaning of each arithmetic function. -/

namespace Sys2Proof.Machine

/-! ## Steps and transactions -/

theorem step_of_no_transaction {s : State} (h : s.pending = []) : step s = .next s := by
  simp [step, runNext, h]

theorem step_of_transaction {s : State} {t : Transaction} {rest : List Transaction} (h : s.pending = t :: rest) :
    step s = transact t { s with pending := rest } := by
  simp [step, runNext, h]

theorem issue_of_faulted {s : State} (h : s.status.fault = true) (cmd : Command) : issue cmd s = .next s := by
  simp [issue, h]

theorem issue_of_decoded {s : State} (h : s.status.fault = false) {cmd : Command} {i : Instr}
    (hd : decode cmd = .ok i) : issue cmd s = exec i s := by
  simp [issue, h, hd]

theorem issue_of_undecoded {s : State} (h : s.status.fault = false) {cmd : Command} {e : DecodeError}
    (hd : decode cmd = .error e) : issue cmd s = .next (Faulted s .illegal cmd) := by
  simp [issue, h, hd, State.raise, Faulted]

theorem portWrite_of_faulted {s : State} (h : s.status.fault = true) (addr : PortAddr) (v : Word) :
    portWrite addr v s = .next s := by
  simp [portWrite, h]

theorem portWrite_cmd (s : State) (v : Word) : portWrite cmdPort v s = issue (v.setWidth 32) s := by
  by_cases h : s.status.fault = true <;> simp [portWrite, issue, h]

theorem portWrite_of_ne_cmd {s : State} (h : s.status.fault = false) {addr : PortAddr} (ha : addr ≠ cmdPort)
    (v : Word) : portWrite addr v s = .next (writeData s addr v) := by
  simp [portWrite, h, ha]

/-! ## Outcomes and frames -/

theorem faultWith_eq (i : Instr) (c : Cause) (s : State) : faultWith i c s = .next (Faulted s c (encode i)) := rfl

theorem noResult_eq (s : State) : noResult s = .next { s with status := { s.status with nr := true } } := rfl

theorem writes_setReg (s : State) (d : Reg) (v : Fixed) : Writes s (s.setReg d v) [d] s.status where
  regs r h := State.reg_setReg_of_ne s v (by simpa using h)
  status := rfl
  words := rfl
  mp := rfl
  fcmd := rfl
  pending := rfl
  replies := rfl
  resets := rfl

theorem writes_setPair (s : State) (d : Pair) (x : Wide) :
    Writes s (s.setPair d x) [pairLo d, pairHi d] s.status where
  regs r h := by
    simp only [List.mem_cons, List.not_mem_nil, or_false, not_or] at h
    exact State.reg_setPair_of_ne s x h.1 h.2
  status := rfl
  words := rfl
  mp := rfl
  fcmd := rfl
  pending := rfl
  replies := rfl
  resets := rfl

/-- Flags set after the registers: the frame keeps its registers and has the new status. -/
theorem Writes.withStatus {s t : State} {ds : List Reg} {f : Status} (h : Writes s t ds f) (g : Status) :
    Writes s { t with status := g } ds g :=
  { regs := h.regs, status := rfl, words := h.words, mp := h.mp, fcmd := h.fcmd, pending := h.pending,
    replies := h.replies, resets := h.resets }

/-- A second destination after the first. -/
theorem Writes.setReg {s t : State} {ds : List Reg} {f : Status} (h : Writes s t ds f) (d : Reg) (v : Fixed) :
    Writes s (t.setReg d v) (ds ++ [d]) f where
  regs r hr := by
    simp only [List.mem_append, List.mem_singleton, not_or] at hr
    rw [State.reg_setReg_of_ne t v hr.2, h.regs r hr.1]
  status := h.status
  words := h.words
  mp := h.mp
  fcmd := h.fcmd
  pending := h.pending
  replies := h.replies
  resets := h.resets

theorem holds_fix {n v : Nat} (h : v < radix n) : Holds n (fix n v) v := ⟨length_fix n v, val_fix_of_lt h⟩

theorem wHolds_wide {n v : Nat} (h : v < (radix n) ^ 2) : WHolds n (wide n v) v :=
  ⟨length_fix n v, length_fix n _, wval_wide_of_lt h⟩

/-! ## The integer meaning of the functions -/

@[simp] theorem length_fxAdd (n : Nat) (x y : Fixed) (c : Nat) : (fxAdd n x y c).1.length = n := length_fix _ _

@[simp] theorem length_fxSub (n : Nat) (x y : Fixed) (c : Nat) : (fxSub n x y c).1.length = n := length_fix _ _

theorem val_fxAdd (n : Nat) (x y : Fixed) (c : Nat) : val (fxAdd n x y c).1 = (val x + val y + c) % radix n :=
  val_fix _ _

/-- A carry out of at most one (R90). -/
theorem carry_fxAdd_le {n : Nat} {x y : Fixed} (hx : x.length = n) (hy : y.length = n) {c : Nat} (hc : c ≤ 1) :
    (fxAdd n x y c).2 ≤ 1 := by
  have h1 := val_lt_of_length hx
  have h2 := val_lt_of_length hy
  rw [fxAdd, ← Nat.lt_succ_iff, Nat.div_lt_iff_lt_mul (radix_pos n)]
  omega

/-- The final carry of `ADDC` and `ADDW` is 1 exactly when the sum does not fit (R97, R98). -/
theorem carry_fxAdd_eq_one {n : Nat} {x y : Fixed} (hx : x.length = n) (hy : y.length = n) :
    (fxAdd n x y 0).2 = 1 ↔ radix n ≤ val x + val y := by
  have h := carry_fxAdd_le hx hy (c := 0) (by omega)
  have hp := Nat.div_pos_iff (a := val x + val y) (b := radix n)
  have hr := radix_pos n
  rw [fxAdd, Nat.add_zero] at *
  omega

theorem val_fxSub (n : Nat) (x y : Fixed) (c : Nat) :
    (val (fxSub n x y c).1 : Int) = ((val x : Int) - val y - c) % (radix n : Int) := by
  have hr : (0 : Int) < radix n := by exact_mod_cast radix_pos n
  have h0 := Int.emod_nonneg ((val x : Int) - val y - c) (ne_of_gt hr)
  have h1 := Int.emod_lt_of_pos ((val x : Int) - val y - c) hr
  rw [fxSub, val_fix_of_lt (by omega), Int.toNat_of_nonneg h0]

/-- The final borrow of `SUBC` and `SUBW` is 1 exactly when the difference is negative (R99, R100). -/
theorem borrow_fxSub_eq_one (n : Nat) (x y : Fixed) : (fxSub n x y 0).2 = 1 ↔ val x < val y := by
  simp only [fxSub, Nat.cast_zero, sub_zero]
  split <;> omega

theorem wval_fxMul {n : Nat} {x y : Fixed} (hx : x.length = n) (hy : y.length = n) :
    wval n (fxMul n x y) = val x * val y := by
  refine wval_wide_of_lt ?_
  rw [sq]
  exact Nat.mul_lt_mul'' (val_lt_of_length hx) (val_lt_of_length hy)

theorem val_fxDivrem {n : Nat} {x : Fixed} (hx : x.length = n) (y : Fixed) :
    val (fxDivrem n x y).1 = val x / val y ∧ val (fxDivrem n x y).2 = val x % val y := by
  have h := val_lt_of_length hx
  have hm : val x % val y ≤ val x := Nat.mod_le _ _
  have hd : val x / val y ≤ val x := Nat.div_le_self _ _
  exact ⟨val_fix_of_lt (by omega), val_fix_of_lt (by omega)⟩

/-- The remainder of a wide division fits N words when the modulus does (R123). -/
theorem val_wideDivrem_snd {n : Nat} {x : Wide} {m : Fixed} (hm : m.length = n) (h0 : val m ≠ 0) :
    val (wideDivrem n x m).2 = wval n x % val m :=
  val_fix_of_lt (lt_trans (Nat.mod_lt _ (Nat.pos_of_ne_zero h0)) (val_lt_of_length hm))

theorem wval_wideDivrem_fst {n : Nat} {x : Wide} (hl : x.1.length = n) (hh : x.2.length = n) (m : Fixed) :
    wval n (wideDivrem n x m).1 = wval n x / val m :=
  wval_wide_of_lt (lt_of_le_of_lt (Nat.div_le_self _ _) (wval_lt hl hh))

/-- A wide value is the words of its halves: `wval` of the cut is the value of the whole (R15). -/
theorem wval_wideOfWords {n : Nat} {ws : Fixed} (h : ws.length = 2 * n) : wval n (wideOfWords n ws) = val ws := by
  conv_rhs => rw [← List.take_append_drop n ws, val_append]
  rw [wval, wideOfWords, List.length_take, h, min_eq_left (by omega)]
  ring

@[simp] theorem length_seqShl (l : Nat) (x : Fixed) (k : Nat) : (seqShl l x k).length = l := by
  rw [seqShl]; split <;> exact length_fix _ _

@[simp] theorem length_seqShr (l : Nat) (x : Fixed) (k : Nat) : (seqShr l x k).length = l := by
  rw [seqShr]; split <;> exact length_fix _ _

/-- A count of `64*L` or more needs no case of its own in the integer meaning (R140). -/
theorem val_seqShl (l : Nat) (x : Fixed) (k : Nat) : val (seqShl l x k) = val x * 2 ^ k % radix l := by
  rw [seqShl]
  split
  · next h =>
    obtain ⟨j, rfl⟩ := Nat.exists_eq_add_of_le h
    rw [val_fix, Nat.zero_mod, Nat.pow_add, radix, Nat.mul_left_comm, Nat.mul_mod_right]
  · exact val_fix _ _

/-- A count of `64*L` or more needs no case of its own in the integer meaning (R141). -/
theorem val_seqShr {l : Nat} {x : Fixed} (hx : x.length = l) (k : Nat) : val (seqShr l x k) = val x / 2 ^ k := by
  have h0 := val_lt_of_length hx
  rw [seqShr]
  split
  · next h =>
    have : radix l ≤ 2 ^ k := Nat.pow_le_pow_right (by omega) h
    rw [val_fix, Nat.zero_mod, Nat.div_eq_of_lt (by omega)]
  · exact val_fix_of_lt (lt_of_le_of_lt (Nat.div_le_self _ _) h0)

theorem seqCmp_eq_lt (x y : Fixed) : seqCmp x y = .lt ↔ val x < val y := by
  simp only [seqCmp]
  split
  · simpa
  · split <;> simp_all

theorem seqCmp_eq_eq (x y : Fixed) : seqCmp x y = .eq ↔ val x = val y := by
  simp only [seqCmp]
  split
  · simp; omega
  · split <;> simp_all

theorem val_mulMod {n : Nat} {x y m : Fixed} (hx : x.length = n) (hy : y.length = n) (hm : m.length = n)
    (h0 : val m ≠ 0) : val (mulMod n x y m) = val x * val y % val m := by
  rw [mulMod, val_wideDivrem_snd hm h0, wval_fxMul hx hy]

@[simp] theorem length_redc (n : Nat) (mp : Bank) (t : Wide) : (redc n mp t).length = n := by
  simp only [redc]
  split <;> simp [wideAdd]

/-! ## Host software -/

/-- `trailing_zeros` of a nonzero value is what binary gcd strips by; zero is refused (R207, U16). -/
theorem trailingZeros_of_ne_zero {x : Fixed} (h : val x ≠ 0) : trailingZeros x = some (tz x) := by
  simp [trailingZeros, h]

theorem trailingZeros_of_zero {x : Fixed} (h : val x = 0) : trailingZeros x = none := by
  simp [trailingZeros, h]

/-- What `mod_inv` returns is the loop's coefficient reduced by the modulus, so it is below a nonzero modulus (R209). -/
theorem modInv_of_loop {n : Nat} {a m t : Fixed}
    (h : modInvLoop n m (val a + 1) m a (fix n 0) (fix n 1) = .value t) :
    modInv n a m = .value (fxDivrem n t m).2 := by
  simp [modInv, h]

theorem modInv_of_no_result {n : Nat} {a m : Fixed}
    (h : modInvLoop n m (val a + 1) m a (fix n 0) (fix n 1) = .noResult) : modInv n a m = .noResult := by
  simp [modInv, h]

theorem modInvLoop_of_zero_modulus {n : Nat} {a m : Fixed} (hm : val m = 0) (ha : val a ≠ 0) :
    modInvLoop n m (val a + 1) m a (fix n 0) (fix n 1) = .fault .zeromod := by
  simp [modInvLoop, hm, ha]

/-- A string of decimal digits goes to the accumulation (R214). -/
theorem parseDecimal_of_digits {n : Nat} {str : List Char} (h0 : str ≠ [])
    (h : ∀ ch ∈ str, digitValue ch ≠ none) : parseDecimal n str = parseLoop n str (fix n 0) := by
  have h' : ¬ (str.any fun ch => (digitValue ch).isNone) = true := by
    simpa [Option.isNone_iff_eq_none] using h
  simp [parseDecimal, h0, h']

end Sys2Proof.Machine
end

