-- ==== Sys2Proof/Laws/PerInstr.lean ====
section
/-! SUPPORT. The statements made for every instruction, one lemma per constructor. `EncodeOpcode`: the opcode byte of an
instruction's command word is its own opcode of R65, whatever its operands. -/

namespace Sys2Proof.Laws

/-- The top byte of a register-format word is the opcode it was built from (R61, R65). -/
theorem fieldOp_wordOfRegs {op d a b c : Nat} (ho : op < 256) (hd : d < 16) (ha : a < 16) (hb : b < 16)
    (hc : c < 16) : fieldOp (wordOfRegs op d a b c) = op := by
  simp only [fieldOp, wordOfRegs, BitVec.toNat_ofNat]
  omega

/-- The top byte of an immediate-format word is the opcode it was built from (R61, R65). -/
theorem fieldOp_wordOfImm {op d a imm : Nat} (ho : op < 256) (hd : d < 16) (ha : a < 16) (hi : imm < 65536) :
    fieldOp (wordOfImm op d a imm) = op := by
  simp only [fieldOp, wordOfImm, BitVec.toNat_ofNat]
  omega

/-- The opcode byte of the word of `i` is the opcode of `i` (R61, R65). -/
def EncodeOpcode.Statement (i : Instr) : Prop := fieldOp (encode i) = i.opcode

theorem EncodeOpcode.mov (d : Reg) (a : Reg) : EncodeOpcode.Statement (.mov d a) :=
  fieldOp_wordOfRegs (by omega) (by omega) (by omega) (by omega) (by omega)

theorem EncodeOpcode.ldi (d : Reg) (imm : Imm) : EncodeOpcode.Statement (.ldi d imm) :=
  fieldOp_wordOfImm (by omega) (by omega) (by omega) (by omega)

theorem EncodeOpcode.addc (d : Reg) (a : Reg) (b : Reg) : EncodeOpcode.Statement (.addc d a b) :=
  fieldOp_wordOfRegs (by omega) (by omega) (by omega) (by omega) (by omega)

theorem EncodeOpcode.addw (d : Reg) (a : Reg) (b : Reg) : EncodeOpcode.Statement (.addw d a b) :=
  fieldOp_wordOfRegs (by omega) (by omega) (by omega) (by omega) (by omega)

theorem EncodeOpcode.subc (d : Reg) (a : Reg) (b : Reg) : EncodeOpcode.Statement (.subc d a b) :=
  fieldOp_wordOfRegs (by omega) (by omega) (by omega) (by omega) (by omega)

theorem EncodeOpcode.subw (d : Reg) (a : Reg) (b : Reg) : EncodeOpcode.Statement (.subw d a b) :=
  fieldOp_wordOfRegs (by omega) (by omega) (by omega) (by omega) (by omega)

theorem EncodeOpcode.wadd (d : Pair) (a : Pair) (b : Pair) : EncodeOpcode.Statement (.wadd d a b) :=
  fieldOp_wordOfRegs (by omega) (by omega) (by omega) (by omega) (by omega)

theorem EncodeOpcode.wsub (d : Pair) (a : Pair) (b : Pair) : EncodeOpcode.Statement (.wsub d a b) :=
  fieldOp_wordOfRegs (by omega) (by omega) (by omega) (by omega) (by omega)

theorem EncodeOpcode.mulx (d : Pair) (a : Reg) (b : Reg) : EncodeOpcode.Statement (.mulx d a b) :=
  fieldOp_wordOfRegs (by omega) (by omega) (by omega) (by omega) (by omega)

theorem EncodeOpcode.mulc (d : Reg) (a : Reg) (b : Reg) : EncodeOpcode.Statement (.mulc d a b) :=
  fieldOp_wordOfRegs (by omega) (by omega) (by omega) (by omega) (by omega)

theorem EncodeOpcode.mulw (d : Reg) (a : Reg) (b : Reg) : EncodeOpcode.Statement (.mulw d a b) :=
  fieldOp_wordOfRegs (by omega) (by omega) (by omega) (by omega) (by omega)

theorem EncodeOpcode.divrem (d : Reg) (c : Reg) (a : Reg) (b : Reg) : EncodeOpcode.Statement (.divrem d c a b) :=
  fieldOp_wordOfRegs (by omega) (by omega) (by omega) (by omega) (by omega)

theorem EncodeOpcode.div (d : Reg) (a : Reg) (b : Reg) : EncodeOpcode.Statement (.div d a b) :=
  fieldOp_wordOfRegs (by omega) (by omega) (by omega) (by omega) (by omega)

theorem EncodeOpcode.rem (d : Reg) (a : Reg) (b : Reg) : EncodeOpcode.Statement (.rem d a b) :=
  fieldOp_wordOfRegs (by omega) (by omega) (by omega) (by omega) (by omega)

theorem EncodeOpcode.wdivrem (d : Pair) (c : Reg) (a : Pair) (b : Reg) : EncodeOpcode.Statement (.wdivrem d c a b) :=
  fieldOp_wordOfRegs (by omega) (by omega) (by omega) (by omega) (by omega)

theorem EncodeOpcode.wdiv (d : Pair) (a : Pair) (b : Reg) : EncodeOpcode.Statement (.wdiv d a b) :=
  fieldOp_wordOfRegs (by omega) (by omega) (by omega) (by omega) (by omega)

theorem EncodeOpcode.wrem (d : Reg) (a : Pair) (b : Reg) : EncodeOpcode.Statement (.wrem d a b) :=
  fieldOp_wordOfRegs (by omega) (by omega) (by omega) (by omega) (by omega)

theorem EncodeOpcode.shlw (d : Reg) (a : Reg) (imm : Imm) : EncodeOpcode.Statement (.shlw d a imm) :=
  fieldOp_wordOfImm (by omega) (by omega) (by omega) (by omega)

theorem EncodeOpcode.shrw (d : Reg) (a : Reg) (imm : Imm) : EncodeOpcode.Statement (.shrw d a imm) :=
  fieldOp_wordOfImm (by omega) (by omega) (by omega) (by omega)

theorem EncodeOpcode.shlo (d : Reg) (a : Reg) (imm : Imm) : EncodeOpcode.Statement (.shlo d a imm) :=
  fieldOp_wordOfImm (by omega) (by omega) (by omega) (by omega)

theorem EncodeOpcode.shro (d : Reg) (a : Reg) (imm : Imm) : EncodeOpcode.Statement (.shro d a imm) :=
  fieldOp_wordOfImm (by omega) (by omega) (by omega) (by omega)

theorem EncodeOpcode.wshl (d : Pair) (a : Pair) (imm : Imm) : EncodeOpcode.Statement (.wshl d a imm) :=
  fieldOp_wordOfImm (by omega) (by omega) (by omega) (by omega)

theorem EncodeOpcode.wshr (d : Pair) (a : Pair) (imm : Imm) : EncodeOpcode.Statement (.wshr d a imm) :=
  fieldOp_wordOfImm (by omega) (by omega) (by omega) (by omega)

theorem EncodeOpcode.cmp (a : Reg) (b : Reg) : EncodeOpcode.Statement (.cmp a b) :=
  fieldOp_wordOfRegs (by omega) (by omega) (by omega) (by omega) (by omega)

theorem EncodeOpcode.clz (d : Reg) (a : Reg) : EncodeOpcode.Statement (.clz d a) :=
  fieldOp_wordOfRegs (by omega) (by omega) (by omega) (by omega) (by omega)

theorem EncodeOpcode.blen (d : Reg) (a : Reg) : EncodeOpcode.Statement (.blen d a) :=
  fieldOp_wordOfRegs (by omega) (by omega) (by omega) (by omega) (by omega)

theorem EncodeOpcode.inv2k (d : Reg) (a : Reg) (imm : Imm) : EncodeOpcode.Statement (.inv2k d a imm) :=
  fieldOp_wordOfImm (by omega) (by omega) (by omega) (by omega)

theorem EncodeOpcode.mpinit (a : Reg) : EncodeOpcode.Statement (.mpinit a) :=
  fieldOp_wordOfRegs (by omega) (by omega) (by omega) (by omega) (by omega)

theorem EncodeOpcode.redc (d : Reg) (a : Pair) : EncodeOpcode.Statement (.redc d a) :=
  fieldOp_wordOfRegs (by omega) (by omega) (by omega) (by omega) (by omega)

theorem EncodeOpcode.tomont (d : Reg) (a : Reg) : EncodeOpcode.Statement (.tomont d a) :=
  fieldOp_wordOfRegs (by omega) (by omega) (by omega) (by omega) (by omega)

theorem EncodeOpcode.mmul (d : Reg) (a : Reg) (b : Reg) : EncodeOpcode.Statement (.mmul d a b) :=
  fieldOp_wordOfRegs (by omega) (by omega) (by omega) (by omega) (by omega)

theorem EncodeOpcode.frommont (d : Reg) (a : Reg) : EncodeOpcode.Statement (.frommont d a) :=
  fieldOp_wordOfRegs (by omega) (by omega) (by omega) (by omega) (by omega)

theorem EncodeOpcode.mulmod (d : Reg) (a : Reg) (b : Reg) (c : Reg) : EncodeOpcode.Statement (.mulmod d a b c) :=
  fieldOp_wordOfRegs (by omega) (by omega) (by omega) (by omega) (by omega)

theorem EncodeOpcode.modexp (d : Reg) (a : Reg) (b : Reg) (c : Reg) : EncodeOpcode.Statement (.modexp d a b c) :=
  fieldOp_wordOfRegs (by omega) (by omega) (by omega) (by omega) (by omega)

theorem EncodeOpcode.mexpm (d : Reg) (a : Reg) (b : Reg) : EncodeOpcode.Statement (.mexpm d a b) :=
  fieldOp_wordOfRegs (by omega) (by omega) (by omega) (by omega) (by omega)

end Sys2Proof.Laws
end

