-- ==== Sys2Proof/Machine/Assembler.lean ====
section
/-! DEFINITION. The listing syntax of 30_encoding.md (R70): the text of a command and of a host directive. Text only; it
gives no command a meaning. -/

namespace Sys2Proof.Machine

/-- `r0` to `r15` (R19, R70). -/
def regText (r : Reg) : String := "r" ++ toString r.val

/-- `w0` to `w7` (R19, R70). -/
def pairText (k : Pair) : String := "w" ++ toString k.val

/-- An immediate in decimal (R70). -/
def immText (imm : Imm) : String := toString imm.toNat

/-- The operands of a command in the order of R65's assembly column. -/
def operandTexts (i : Instr) : List String :=
  match i with
  | .mov d a => [regText d, regText a]
  | .ldi d imm => [regText d, immText imm]
  | .addc d a b => [regText d, regText a, regText b]
  | .addw d a b => [regText d, regText a, regText b]
  | .subc d a b => [regText d, regText a, regText b]
  | .subw d a b => [regText d, regText a, regText b]
  | .wadd d a b => [pairText d, pairText a, pairText b]
  | .wsub d a b => [pairText d, pairText a, pairText b]
  | .mulx d a b => [pairText d, regText a, regText b]
  | .mulc d a b => [regText d, regText a, regText b]
  | .mulw d a b => [regText d, regText a, regText b]
  | .divrem d c a b => [regText d, regText c, regText a, regText b]
  | .div d a b => [regText d, regText a, regText b]
  | .rem d a b => [regText d, regText a, regText b]
  | .wdivrem d c a b => [pairText d, regText c, pairText a, regText b]
  | .wdiv d a b => [pairText d, pairText a, regText b]
  | .wrem d a b => [regText d, pairText a, regText b]
  | .shlw d a imm => [regText d, regText a, immText imm]
  | .shrw d a imm => [regText d, regText a, immText imm]
  | .shlo d a imm => [regText d, regText a, immText imm]
  | .shro d a imm => [regText d, regText a, immText imm]
  | .wshl d a imm => [pairText d, pairText a, immText imm]
  | .wshr d a imm => [pairText d, pairText a, immText imm]
  | .cmp a b => [regText a, regText b]
  | .clz d a => [regText d, regText a]
  | .blen d a => [regText d, regText a]
  | .inv2k d a imm => [regText d, regText a, immText imm]
  | .mpinit a => [regText a]
  | .redc d a => [regText d, pairText a]
  | .tomont d a => [regText d, regText a]
  | .mmul d a b => [regText d, regText a, regText b]
  | .frommont d a => [regText d, regText a]
  | .mulmod d a b c => [regText d, regText a, regText b, regText c]
  | .modexp d a b c => [regText d, regText a, regText b, regText c]
  | .mexpm d a b => [regText d, regText a, regText b]

/-- One command per line: the mnemonic, then the operands separated by commas (R70). -/
def assembly (i : Instr) : String := i.mnemonic ++ " " ++ ", ".intercalate (operandTexts i)

/-- A transaction as a line of a listing (R70): a command word by its assembly, or as illegal data when it decodes to
none, and the directives `.wr`, `.rd`, `.reset`. -/
def listingLine (t : Transaction) : String :=
  match t with
  | .read addr => ".rd " ++ toString addr.toNat
  | .write addr v => ".wr " ++ toString addr.toNat ++ ", " ++ toString v.toNat
  | .issue cmd =>
    match decode cmd with
    | .ok i => assembly i
    | .error _ => "; illegal command word " ++ toString cmd.toNat
  | .reset => ".reset"

end Sys2Proof.Machine
end

