-- ==== Sys2Proof/Tests/Slice0.lean ====
section
/-! SUPPORT. Tests. Expected values come from spec/: the encoding formula of 30_encoding.md R61, R62 and R65, the vectors of
95_test_vectors.md, and the rules named. The last section shows, for each obligation with hypotheses, states and operands
that meet them. -/

namespace Sys2Proof.Tests
open Sys2Proof Sys2Proof.Machine

/-! ## Decoding: one word for every row of R65, its fields written out in bits -/

/-- `MOV rd, ra`: 00010000 0101 1001 0000 0000 00000000. -/
theorem test_decode_mov : decode 0b00010000_0101_1001_0000_0000_00000000 = .ok (.mov 5 9) := by decide

/-- `LDI rd, imm16`: 00010001 0101 0000 1010101111001101. -/
theorem test_decode_ldi : decode 0b00010001_0101_0000_1010101111001101 = .ok (.ldi 5 0xABCD) := by decide

/-- `ADDC rd, ra, rb`: 00100000 0101 1001 1100 0000 00000000. -/
theorem test_decode_addc : decode 0b00100000_0101_1001_1100_0000_00000000 = .ok (.addc 5 9 12) := by decide

/-- `ADDW rd, ra, rb`: 00100001 0101 1001 1100 0000 00000000. -/
theorem test_decode_addw : decode 0b00100001_0101_1001_1100_0000_00000000 = .ok (.addw 5 9 12) := by decide

/-- `SUBC rd, ra, rb`: 00100010 0101 1001 1100 0000 00000000. -/
theorem test_decode_subc : decode 0b00100010_0101_1001_1100_0000_00000000 = .ok (.subc 5 9 12) := by decide

/-- `SUBW rd, ra, rb`: 00100011 0101 1001 1100 0000 00000000. -/
theorem test_decode_subw : decode 0b00100011_0101_1001_1100_0000_00000000 = .ok (.subw 5 9 12) := by decide

/-- `WADD wd, wa, wb`: 00100100 0110 1010 1100 0000 00000000. -/
theorem test_decode_wadd : decode 0b00100100_0110_1010_1100_0000_00000000 = .ok (.wadd 3 5 6) := by decide

/-- `WSUB wd, wa, wb`: 00100101 0110 1010 1100 0000 00000000. -/
theorem test_decode_wsub : decode 0b00100101_0110_1010_1100_0000_00000000 = .ok (.wsub 3 5 6) := by decide

/-- `MULX wd, ra, rb`: 00110000 0110 1001 1100 0000 00000000. -/
theorem test_decode_mulx : decode 0b00110000_0110_1001_1100_0000_00000000 = .ok (.mulx 3 9 12) := by decide

/-- `MULC rd, ra, rb`: 00110001 0101 1001 1100 0000 00000000. -/
theorem test_decode_mulc : decode 0b00110001_0101_1001_1100_0000_00000000 = .ok (.mulc 5 9 12) := by decide

/-- `MULW rd, ra, rb`: 00110010 0101 1001 1100 0000 00000000. -/
theorem test_decode_mulw : decode 0b00110010_0101_1001_1100_0000_00000000 = .ok (.mulw 5 9 12) := by decide

/-- `DIVREM rd, rc, ra, rb`: 01000000 0101 1001 1100 0011 00000000. -/
theorem test_decode_divrem : decode 0b01000000_0101_1001_1100_0011_00000000 = .ok (.divrem 5 3 9 12) := by decide

/-- `DIV rd, ra, rb`: 01000001 0101 1001 1100 0000 00000000. -/
theorem test_decode_div : decode 0b01000001_0101_1001_1100_0000_00000000 = .ok (.div 5 9 12) := by decide

/-- `REM rd, ra, rb`: 01000010 0101 1001 1100 0000 00000000. -/
theorem test_decode_rem : decode 0b01000010_0101_1001_1100_0000_00000000 = .ok (.rem 5 9 12) := by decide

/-- `WDIVREM wd, rc, wa, rb`: 01000011 0110 1010 1100 0011 00000000. -/
theorem test_decode_wdivrem : decode 0b01000011_0110_1010_1100_0011_00000000 = .ok (.wdivrem 3 3 5 12) := by decide

/-- `WDIV wd, wa, rb`: 01000100 0110 1010 1100 0000 00000000. -/
theorem test_decode_wdiv : decode 0b01000100_0110_1010_1100_0000_00000000 = .ok (.wdiv 3 5 12) := by decide

/-- `WREM rd, wa, rb`: 01000101 0101 1010 1100 0000 00000000. -/
theorem test_decode_wrem : decode 0b01000101_0101_1010_1100_0000_00000000 = .ok (.wrem 5 5 12) := by decide

/-- `SHLW rd, ra, imm16`: 01010000 0101 1001 1010101111001101. -/
theorem test_decode_shlw : decode 0b01010000_0101_1001_1010101111001101 = .ok (.shlw 5 9 0xABCD) := by decide

/-- `SHRW rd, ra, imm16`: 01010001 0101 1001 1010101111001101. -/
theorem test_decode_shrw : decode 0b01010001_0101_1001_1010101111001101 = .ok (.shrw 5 9 0xABCD) := by decide

/-- `SHLO rd, ra, imm16`: 01010010 0101 1001 1010101111001101. -/
theorem test_decode_shlo : decode 0b01010010_0101_1001_1010101111001101 = .ok (.shlo 5 9 0xABCD) := by decide

/-- `SHRO rd, ra, imm16`: 01010011 0101 1001 1010101111001101. -/
theorem test_decode_shro : decode 0b01010011_0101_1001_1010101111001101 = .ok (.shro 5 9 0xABCD) := by decide

/-- `WSHL wd, wa, imm16`: 01010100 0110 1010 1010101111001101. -/
theorem test_decode_wshl : decode 0b01010100_0110_1010_1010101111001101 = .ok (.wshl 3 5 0xABCD) := by decide

/-- `WSHR wd, wa, imm16`: 01010101 0110 1010 1010101111001101. -/
theorem test_decode_wshr : decode 0b01010101_0110_1010_1010101111001101 = .ok (.wshr 3 5 0xABCD) := by decide

/-- `CMP ra, rb`: 01010110 0000 1001 1100 0000 00000000. -/
theorem test_decode_cmp : decode 0b01010110_0000_1001_1100_0000_00000000 = .ok (.cmp 9 12) := by decide

/-- `CLZ rd, ra`: 01010111 0101 1001 0000 0000 00000000. -/
theorem test_decode_clz : decode 0b01010111_0101_1001_0000_0000_00000000 = .ok (.clz 5 9) := by decide

/-- `BLEN rd, ra`: 01011000 0101 1001 0000 0000 00000000. -/
theorem test_decode_blen : decode 0b01011000_0101_1001_0000_0000_00000000 = .ok (.blen 5 9) := by decide

/-- `INV2K rd, ra, imm16`: 01100000 0101 1001 1010101111001101. -/
theorem test_decode_inv2k : decode 0b01100000_0101_1001_1010101111001101 = .ok (.inv2k 5 9 0xABCD) := by decide

/-- `MPINIT ra`: 01100001 0000 1001 0000 0000 00000000. -/
theorem test_decode_mpinit : decode 0b01100001_0000_1001_0000_0000_00000000 = .ok (.mpinit 9) := by decide

/-- `REDC rd, wa`: 01100010 0101 1010 0000 0000 00000000. -/
theorem test_decode_redc : decode 0b01100010_0101_1010_0000_0000_00000000 = .ok (.redc 5 5) := by decide

/-- `TOMONT rd, ra`: 01100011 0101 1001 0000 0000 00000000. -/
theorem test_decode_tomont : decode 0b01100011_0101_1001_0000_0000_00000000 = .ok (.tomont 5 9) := by decide

/-- `MMUL rd, ra, rb`: 01100100 0101 1001 1100 0000 00000000. -/
theorem test_decode_mmul : decode 0b01100100_0101_1001_1100_0000_00000000 = .ok (.mmul 5 9 12) := by decide

/-- `FROMMONT rd, ra`: 01100101 0101 1001 0000 0000 00000000. -/
theorem test_decode_frommont : decode 0b01100101_0101_1001_0000_0000_00000000 = .ok (.frommont 5 9) := by decide

/-- `MULMOD rd, ra, rb, rc`: 01110000 0101 1001 1100 0011 00000000. -/
theorem test_decode_mulmod : decode 0b01110000_0101_1001_1100_0011_00000000 = .ok (.mulmod 5 9 12 3) := by decide

/-- `MODEXP rd, ra, rb, rc`: 01110001 0101 1001 1100 0011 00000000. -/
theorem test_decode_modexp : decode 0b01110001_0101_1001_1100_0011_00000000 = .ok (.modexp 5 9 12 3) := by decide

/-- `MEXPM rd, ra, rb`: 01110010 0101 1001 1100 0000 00000000. -/
theorem test_decode_mexpm : decode 0b01110010_0101_1001_1100_0000_00000000 = .ok (.mexpm 5 9 12) := by decide

/-! ## Illegal words (R66, R67; 95_test_vectors.md section 3.7) -/

theorem test_decode_refuses_all_zero_and_all_one :
    decode 0x00000000 = .error .unassignedOpcode ∧ decode 0xFFFFFFFF = .error .unassignedOpcode := by decide

theorem test_decode_refuses_unassigned_opcodes :
    decode 0x12000000 = .error .unassignedOpcode ∧ decode 0x33201000 = .error .unassignedOpcode ∧
    decode 0x59200000 = .error .unassignedOpcode ∧ decode 0x73301200 = .error .unassignedOpcode := by decide

theorem test_decode_refuses_unused_fields :
    decode 0x10311000 = .error .nonzeroUnusedField ∧ decode 0x11210005 = .error .nonzeroUnusedField ∧
    decode 0x20201100 = .error .nonzeroUnusedField ∧ decode 0x40201301 = .error .nonzeroUnusedField := by decide

theorem test_decode_refuses_odd_wide_fields :
    decode 0x24412000 = .error .oddWideField ∧ decode 0x24403000 = .error .oddWideField ∧
    decode 0x30301000 = .error .oddWideField ∧ decode 0x43412600 = .error .oddWideField ∧
    decode 0x45612000 = .error .oddWideField ∧ decode 0x54500001 = .error .oddWideField := by decide

/-! ## Well-formedness: an ill-formed term for each check of R67, refused -/

theorem test_wellFormed_refuses_divrem_same_destinations : (Instr.divrem 2 2 0 1).wellFormed 1 = false := by decide

theorem test_wellFormed_refuses_wdivrem_low : (Instr.wdivrem 2 4 0 2).wellFormed 1 = false := by decide

theorem test_wellFormed_refuses_wdivrem_high : (Instr.wdivrem 2 5 0 2).wellFormed 1 = false := by decide

theorem test_wellFormed_refuses_inv2k_zero : (Instr.inv2k 2 0 0).wellFormed 1 = false := by decide

theorem test_wellFormed_refuses_inv2k_beyond_width : (Instr.inv2k 2 0 65).wellFormed 1 = false := by decide

theorem test_wellFormed_accepts :
    (Instr.divrem 2 3 0 1).wellFormed 1 = true ∧ (Instr.wdivrem 2 6 0 2).wellFormed 1 = true ∧
    (Instr.inv2k 2 0 64).wellFormed 1 = true ∧ (Instr.inv2k 2 0 65).wellFormed 2 = true := by decide

/-! ## Small states -/

/-- A block of `n` words with these registers set, the others zero. -/
def st (n : Nat) (l : List (Reg × Fixed)) : State := l.foldl (fun s p => s.setReg p.1 p.2) (State.resetFor n)

/-- `s` with the bank that `MPINIT` loads for the modulus `m`. -/
def withBank (m : Nat) (s : State) : State :=
  match mpInit s.words (fix s.words m) with
  | some p => s.loadBank p
  | none => s

/-- The state after one step that issues `cmd`. -/
def after (s : State) (cmd : Nat) : Option State :=
  match step (s.withFetchWord 32 cmd) with
  | .next t => some t
  | .fault _ => none
  | .refused _ => none

/-! ## Instructions: one command on one state, expected values from 95_test_vectors.md section 3 -/

/-- `MOV r3, r1`, N = 2: 95_test_vectors.md section 3.1. -/
theorem test_mov_value :
    (after (st 2 [(1, [0x7, 0x9])]) 0x10310000).map (fun t => t.reg 3) =
      some [0x7, 0x9] := by decide

/-- `LDI r2, 10`, N = 2: 95_test_vectors.md section 3.1. -/
theorem test_ldi_value :
    (after (st 2 []) 0x1120000A).map (fun t => t.reg 2) =
      some [0xA, 0x0] := by decide

/-- `LDI r2, 0`, N = 2: 95_test_vectors.md section 3.1. -/
theorem test_ldi_edge :
    (after (st 2 []) 0x11200000).map (fun t => t.reg 2) =
      some [0x0, 0x0] := by decide

/-- `ADDC r2, r0, r1`, N = 2: 95_test_vectors.md section 3.1. -/
theorem test_addc_value :
    (after (st 2 [(0, [0xFFFFFFFFFFFFFFFF, 0x0]), (1, [0x1, 0x0])]) 0x20201000).map (fun t => (t.reg 2, t.status.c)) =
      some ([0x0, 0x1], false) := by decide

/-- `ADDC r2, r0, r1`, N = 1: 95_test_vectors.md section 3.1. -/
theorem test_addc_edge :
    (after (st 1 [(0, [0xFFFFFFFFFFFFFFFF]), (1, [0x1])]) 0x20201000).map (fun t => (t.status.cause, t.fcmd)) =
      some (1, 0x20201000) := by decide

/-- `ADDW r2, r0, r1`, N = 4: 95_test_vectors.md section 3.9. -/
theorem test_addw_value :
    (after (st 4 [(0, [0xA506930D4C964C45, 0x90F951932C91BA42, 0xB7C1CADCD6C6C5C0, 0x78A2D30DB964C965]),
        (1, [0xA9464DE6BA35C042, 0x51B3B7755F85F016, 0x8F4642982E159731, 0xF7B7474C53C33579])]) 0x21201000).map
      (fun t => (t.reg 2, t.status.c)) =
      some ([0x4E4CE0F406CC0C87, 0xE2AD09088C17AA59, 0x47080D7504DC5CF1, 0x705A1A5A0D27FEDF], true) := by decide

/-- `ADDW r2, r0, r1`, N = 2: 95_test_vectors.md section 3.1. -/
theorem test_addw_edge :
    (after (st 2 [(0, [0xFFFFFFFFFFFFFFFF, 0xFFFFFFFFFFFFFFFF]),
        (1, [0x1, 0x0])]) 0x21201000).map
      (fun t => (t.reg 2, t.status.c)) =
      some ([0x0, 0x0], true) := by decide

/-- `SUBC r2, r0, r1`, N = 2: 95_test_vectors.md section 3.1. -/
theorem test_subc_value :
    (after (st 2 [(0, [0x0, 0x1]), (1, [0x1, 0x0])]) 0x22201000).map (fun t => (t.reg 2, t.status.c)) =
      some ([0xFFFFFFFFFFFFFFFF, 0x0], false) := by decide

/-- `SUBC r2, r0, r1`, N = 2: 95_test_vectors.md section 3.1. -/
theorem test_subc_edge :
    (after (st 2 [(0, [0x0, 0x0]), (1, [0x1, 0x0])]) 0x22201000).map (fun t => (t.status.cause, t.fcmd)) =
      some (1, 0x22201000) := by decide

/-- `SUBW r2, r0, r1`, N = 4: 95_test_vectors.md section 3.9. -/
theorem test_subw_value :
    (after (st 4 [(0, [0xA506930D4C964C45, 0x90F951932C91BA42, 0xB7C1CADCD6C6C5C0, 0x78A2D30DB964C965]),
        (1, [0xA9464DE6BA35C042, 0x51B3B7755F85F016, 0x8F4642982E159731, 0xF7B7474C53C33579])]) 0x23201000).map
      (fun t => (t.reg 2, t.status.c)) =
      some ([0xFBC0452692608C03, 0x3F459A1DCD0BCA2B, 0x287B8844A8B12E8F, 0x80EB8BC165A193EC], true) := by decide

/-- `SUBW r2, r0, r1`, N = 2: 95_test_vectors.md section 3.1. -/
theorem test_subw_edge :
    (after (st 2 [(0, [0x0, 0x0]), (1, [0x1, 0x0])]) 0x23201000).map (fun t => (t.reg 2, t.status.c)) =
      some ([0xFFFFFFFFFFFFFFFF, 0xFFFFFFFFFFFFFFFF], true) := by decide

/-- `WADD w0, w0, w0`, N = 2: 95_test_vectors.md section 3.1. -/
theorem test_wadd_value :
    (after (st 2 [(0, [0xFFFFFFFFFFFFFFFF, 0xFFFFFFFFFFFFFFFF]),
        (1, [0x0, 0x0])]) 0x24000000).map
      (fun t => (t.reg 0, t.reg 1, t.status.c)) =
      some ([0xFFFFFFFFFFFFFFFE, 0xFFFFFFFFFFFFFFFF], [0x1, 0x0], false) := by decide

/-- `WADD w2, w0, w1`, N = 1: 95_test_vectors.md section 3.1. -/
theorem test_wadd_edge :
    (after (st 1 [(0, [0xFFFFFFFFFFFFFFFF]),
        (1, [0xFFFFFFFFFFFFFFFF]),
        (2, [0x1]),
        (3, [0x0])]) 0x24402000).map
      (fun t => (t.reg 4, t.reg 5, t.status.c)) =
      some ([0x0], [0x0], true) := by decide

/-- `WSUB w2, w0, w1`, N = 1: 95_test_vectors.md section 3.1. -/
theorem test_wsub_value :
    (after (st 1 [(0, [0x0]),
        (1, [0x1]),
        (2, [0x1]),
        (3, [0x0])]) 0x25402000).map
      (fun t => (t.reg 4, t.reg 5, t.status.c)) =
      some ([0xFFFFFFFFFFFFFFFF], [0x0], false) := by decide

/-- `WSUB w2, w0, w1`, N = 1: 95_test_vectors.md section 3.1. -/
theorem test_wsub_edge :
    (after (st 1 [(0, [0x0]),
        (1, [0x0]),
        (2, [0x1]),
        (3, [0x0])]) 0x25402000).map
      (fun t => (t.reg 4, t.reg 5, t.status.c)) =
      some ([0xFFFFFFFFFFFFFFFF], [0xFFFFFFFFFFFFFFFF], true) := by decide

/-- `MULX w2, r0, r1`, N = 4: 95_test_vectors.md section 3.9. -/
theorem test_mulx_value :
    (after (st 4 [(0, [0xA506930D4C964C45, 0x90F951932C91BA42, 0xB7C1CADCD6C6C5C0, 0x78A2D30DB964C965]),
        (1, [0xA9464DE6BA35C042, 0x51B3B7755F85F016, 0x8F4642982E159731, 0xF7B7474C53C33579])]) 0x30401000).map
      (fun t => (t.reg 4, t.reg 5)) =
      some ([0x1393864643C69CA, 0x44A4391FB7907784, 0xB663720613094B62, 0x978913E38FFC77B1],
        [0x27049CBF0AB52D10, 0x28A745457B2703E4, 0x4E84E42856651E0F, 0x74BB77A03D080382]) := by decide

/-- `MULX w2, r0, r1`, N = 2: 95_test_vectors.md section 3.2. -/
theorem test_mulx_edge :
    (after (st 2 [(0, [0x8706FFC951F73E2F, 0xAD8B3A3D87B04EC4]),
        (1, [0xB8D3EFDC0D5C59C2, 0x6E0951FBEAF432EB])]) 0x30401000).map
      (fun t => (t.reg 4, t.reg 5)) =
      some ([0x34022875CDDF769E, 0x76C5D11E440A3088], [0xC7DDDFCF31611F50, 0x4A98247F50ADE7C2]) := by decide

/-- `MULC r2, r0, r1`, N = 2: 95_test_vectors.md section 3.2. -/
theorem test_mulc_value :
    (after (st 2 [(0, [0x0, 0x1]), (1, [0xFFFFFFFFFFFFFFFF, 0x0])]) 0x31201000).map (fun t => t.reg 2) =
      some [0x0, 0xFFFFFFFFFFFFFFFF] := by decide

/-- `MULC r2, r0, r1`, N = 1: 95_test_vectors.md section 3.2. -/
theorem test_mulc_edge :
    (after (st 1 [(0, [0x100000000]), (1, [0x100000000])]) 0x31201000).map (fun t => (t.status.cause, t.fcmd)) =
      some (1, 0x31201000) := by decide

/-- `MULW r2, r0, r1`, N = 4: 95_test_vectors.md section 3.9. -/
theorem test_mulw_value :
    (after (st 4 [(0, [0xA506930D4C964C45, 0x90F951932C91BA42, 0xB7C1CADCD6C6C5C0, 0x78A2D30DB964C965]),
        (1, [0xA9464DE6BA35C042, 0x51B3B7755F85F016, 0x8F4642982E159731, 0xF7B7474C53C33579])]) 0x32201000).map
      (fun t => t.reg 2) =
      some [0x1393864643C69CA, 0x44A4391FB7907784, 0xB663720613094B62, 0x978913E38FFC77B1] := by decide

/-- `MULW r2, r0, r1`, N = 2: 95_test_vectors.md section 3.2. -/
theorem test_mulw_edge :
    (after (st 2 [(0, [0xFFFFFFFFFFFFFFFF, 0xFFFFFFFFFFFFFFFF]),
        (1, [0x2, 0x0])]) 0x32201000).map
      (fun t => t.reg 2) =
      some [0xFFFFFFFFFFFFFFFE, 0xFFFFFFFFFFFFFFFF] := by decide

/-- `DIVREM r2, r3, r0, r1`, N = 4: 95_test_vectors.md section 3.9. -/
theorem test_divrem_value :
    (after (st 4 [(0, [0xA506930D4C964C45, 0x90F951932C91BA42, 0xB7C1CADCD6C6C5C0, 0x78A2D30DB964C965]),
        (1, [0xCE46D2C93A8A751F, 0x881729DE53F087BD, 0x22E725, 0x0])]) 0x40201300).map
      (fun t => (t.reg 2, t.reg 3)) =
      some ([0x71CCD780D580023B, 0x374D21C29EF, 0x0, 0x0],
        [0x29705B0A5F431020, 0xFAB67C57AC7F6D5C, 0x22849B, 0x0]) := by decide

/-- `DIVREM r2, r3, r0, r1`, N = 1: 95_test_vectors.md section 3.3. -/
theorem test_divrem_edge :
    (after (st 1 [(0, [0x64]), (1, [0x0])]) 0x40201300).map (fun t => (t.status.cause, t.fcmd)) =
      some (2, 0x40201300) := by decide

/-- `DIV r2, r0, r1`, N = 1: 95_test_vectors.md section 3.3. -/
theorem test_div_value :
    (after (st 1 [(0, [0x64]), (1, [0x7])]) 0x41201000).map (fun t => t.reg 2) =
      some [0xE] := by decide

/-- `DIV r2, r0, r1`, N = 1: 95_test_vectors.md section 3.3. -/
theorem test_div_edge :
    (after (st 1 [(0, [0x64]), (1, [0x0])]) 0x41201000).map (fun t => (t.status.cause, t.fcmd)) =
      some (2, 0x41201000) := by decide

/-- `REM r2, r0, r1`, N = 1: 95_test_vectors.md section 3.3. -/
theorem test_rem_value :
    (after (st 1 [(0, [0x64]), (1, [0x7])]) 0x42201000).map (fun t => t.reg 2) =
      some [0x2] := by decide

/-- `REM r2, r0, r1`, N = 1: 95_test_vectors.md section 3.3. -/
theorem test_rem_edge :
    (after (st 1 [(0, [0x0]), (1, [0x0])]) 0x42201000).map (fun t => (t.status.cause, t.fcmd)) =
      some (2, 0x42201000) := by decide

/-- `WDIVREM w2, r6, w0, r8`, N = 4: 95_test_vectors.md section 3.9. -/
theorem test_wdivrem_value :
    (after (st 4 [(0, [0xA506930D4C964C45, 0x90F951932C91BA42, 0xB7C1CADCD6C6C5C0, 0x78A2D30DB964C965]),
        (1, [0xA9464DE6BA35C042, 0x51B3B7755F85F016, 0x8F4642982E159731, 0xF7B7474C53C33579]),
        (8, [0xCE46D2C93A8A751F, 0x881729DE53F087BD, 0x22E725, 0x0])]) 0x43408600).map
      (fun t => (t.reg 4, t.reg 5, t.reg 6)) =
      some ([0x395D9B749DF85AD8, 0xCC94CAE0369E0302, 0xE14539C5C1164265, 0xFFEC44DC26EEAAD],
        [0xB4B6A251FEB07107, 0x718E7A4EAA3, 0x0, 0x0],
        [0x486883ADC18E941D, 0x92BC951C40147A77, 0xCBD01, 0x0]) := by decide

/-- `WDIVREM w2, r6, w0, r2`, N = 1: 95_test_vectors.md section 3.3. -/
theorem test_wdivrem_edge :
    (after (st 1 [(0, [0x64]), (1, [0x0]), (2, [0x0])]) 0x43402600).map (fun t => (t.status.cause, t.fcmd)) =
      some (2, 0x43402600) := by decide

/-- `WDIV w2, w0, r2`, N = 1: 95_test_vectors.md section 3.3. -/
theorem test_wdiv_value :
    (after (st 1 [(0, [0xFFFFFFFFFFFFFFFF]),
        (1, [0xFFFFFFFFFFFFFFFF]),
        (2, [0x1])]) 0x44402000).map
      (fun t => (t.reg 4, t.reg 5)) =
      some ([0xFFFFFFFFFFFFFFFF], [0xFFFFFFFFFFFFFFFF]) := by decide

/-- `WDIV w2, w0, r2`, N = 1: 95_test_vectors.md section 3.3. -/
theorem test_wdiv_edge :
    (after (st 1 [(0, [0x0]), (1, [0x1]), (2, [0x0])]) 0x44402000).map (fun t => (t.status.cause, t.fcmd)) =
      some (2, 0x44402000) := by decide

/-- `WREM r6, w0, r8`, N = 4: 95_test_vectors.md section 3.9. -/
theorem test_wrem_value :
    (after (st 4 [(0, [0xA506930D4C964C45, 0x90F951932C91BA42, 0xB7C1CADCD6C6C5C0, 0x78A2D30DB964C965]),
        (1, [0xA9464DE6BA35C042, 0x51B3B7755F85F016, 0x8F4642982E159731, 0xF7B7474C53C33579]),
        (8, [0xCE46D2C93A8A751F, 0x881729DE53F087BD, 0x22E725, 0x0])]) 0x45608000).map
      (fun t => t.reg 6) =
      some [0x486883ADC18E941D, 0x92BC951C40147A77, 0xCBD01, 0x0] := by decide

/-- `WREM r6, w0, r2`, N = 1: 95_test_vectors.md section 3.3. -/
theorem test_wrem_edge :
    (after (st 1 [(0, [0x5]), (1, [0x5]), (2, [0x0])]) 0x45602000).map (fun t => (t.status.cause, t.fcmd)) =
      some (2, 0x45602000) := by decide

/-- `SHLW r2, r0, 77`, N = 4: 95_test_vectors.md section 3.9. -/
theorem test_shlw_value :
    (after (st 4 [(0, [0xA506930D4C964C45, 0x90F951932C91BA42, 0xB7C1CADCD6C6C5C0, 0x78A2D30DB964C965])]) 0x5020004D).map
      (fun t => t.reg 2) =
      some [0x0, 0xD261A992C988A000, 0x2A326592374854A0, 0x395B9AD8D8B8121F] := by decide

/-- `SHLW r0, r0, 4`, N = 2: 95_test_vectors.md section 3.4. -/
theorem test_shlw_edge :
    (after (st 2 [(0, [0x8000000000000001, 0x3])]) 0x50000004).map (fun t => t.reg 0) =
      some [0x10, 0x38] := by decide

/-- `SHRW r2, r0, 130`, N = 4: 95_test_vectors.md section 3.9. -/
theorem test_shrw_value :
    (after (st 4 [(0, [0xA506930D4C964C45, 0x90F951932C91BA42, 0xB7C1CADCD6C6C5C0, 0x78A2D30DB964C965])]) 0x51200082).map
      (fun t => t.reg 2) =
      some [0x6DF072B735B1B170, 0x1E28B4C36E593259, 0x0, 0x0] := by decide

/-- `SHRW r2, r0, 65535`, N = 2: 95_test_vectors.md section 3.4. -/
theorem test_shrw_edge :
    (after (st 2 [(0, [0x8000000000000001, 0x3])]) 0x5120FFFF).map (fun t => t.reg 2) =
      some [0x0, 0x0] := by decide

/-- `SHLO r2, r0, 3`, N = 4: 95_test_vectors.md section 3.9. -/
theorem test_shlo_value :
    (after (st 4 [(0, [0xA506930D4C964C45, 0x90F951932C91BA42, 0xB7C1CADCD6C6C5C0, 0x78A2D30DB964C965])]) 0x52200003).map
      (fun t => (t.reg 2, t.status.v)) =
      some ([0x2834986A64B26228, 0x87CA8C99648DD215, 0xBE0E56E6B6362E04, 0xC516986DCB264B2D], true) := by decide

/-- `SHLO r2, r0, 63`, N = 2: 95_test_vectors.md section 3.4. -/
theorem test_shlo_edge :
    (after (st 2 [(0, [0x8000000000000001, 0x3])]) 0x5220003F).map (fun t => (t.reg 2, t.status.v)) =
      some ([0x8000000000000000, 0xC000000000000000], true) := by decide

/-- `SHRO r2, r0, 0`, N = 2: 95_test_vectors.md section 3.4. -/
theorem test_shro_value :
    (after (st 2 [(0, [0x8000000000000001, 0x3])]) 0x53200000).map (fun t => (t.reg 2, t.status.v)) =
      some ([0x8000000000000001, 0x3], false) := by decide

/-- `SHRO r2, r0, 1`, N = 2: 95_test_vectors.md section 3.4. -/
theorem test_shro_edge :
    (after (st 2 [(0, [0x8000000000000001, 0x3])]) 0x53200001).map (fun t => (t.reg 2, t.status.v)) =
      some ([0xC000000000000000, 0x1], true) := by decide

/-- `WSHL w2, w0, 63`, N = 1: 95_test_vectors.md section 3.4. -/
theorem test_wshl_value :
    (after (st 1 [(0, [0x8000000000000001]), (1, [0x3])]) 0x5440003F).map (fun t => (t.reg 4, t.reg 5)) =
      some ([0x8000000000000000], [0xC000000000000000]) := by decide

/-- `WSHL w2, w0, 1000`, N = 1: 95_test_vectors.md section 3.4. -/
theorem test_wshl_edge :
    (after (st 1 [(0, [0x8000000000000001]), (1, [0x3])]) 0x544003E8).map (fun t => (t.reg 4, t.reg 5)) =
      some ([0x0], [0x0]) := by decide

/-- `WSHR w0, w0, 128`, N = 2: 95_test_vectors.md section 3.4. -/
theorem test_wshr_value :
    (after (st 2 [(0, [0x1, 0x2]), (1, [0x3, 0x4])]) 0x55000080).map (fun t => (t.reg 0, t.reg 1)) =
      some ([0x3, 0x4], [0x0, 0x0]) := by decide

/-- `WSHR w2, w0, 128`, N = 1: 95_test_vectors.md section 3.4. -/
theorem test_wshr_edge :
    (after (st 1 [(0, [0x8000000000000001]), (1, [0x3])]) 0x55400080).map (fun t => (t.reg 4, t.reg 5)) =
      some ([0x0], [0x0]) := by decide

/-- `CMP r1, r0`, N = 2: 95_test_vectors.md section 3.4. -/
theorem test_cmp_less :
    (after (st 2 [(0, [0x5, 0x1]), (1, [0x9, 0x0])]) 0x56010000).map (fun t => (t.status.eq, t.status.lt)) =
      some (false, true) := by decide

/-- `CMP r0, r1`, N = 2: 95_test_vectors.md section 3.4. -/
theorem test_cmp_equal :
    (after (st 2 [(0, [0x5, 0x1]), (1, [0x5, 0x1])]) 0x56001000).map (fun t => (t.status.eq, t.status.lt)) =
      some (true, false) := by decide

/-- `CLZ r2, r0`, N = 4: 95_test_vectors.md section 3.9. -/
theorem test_clz_value :
    (after (st 4 [(0, [0xCE46D2C93A8A751F, 0x881729DE53F087BD, 0x22E725, 0x0])]) 0x57200000).map (fun t => t.reg 2) =
      some [0x6A, 0x0, 0x0, 0x0] := by decide

/-- `CLZ r2, r0`, N = 2: 95_test_vectors.md section 3.4. -/
theorem test_clz_edge :
    (after (st 2 [(0, [0x1, 0x0])]) 0x57200000).map (fun t => t.reg 2) =
      some [0x7F, 0x0] := by decide

/-- `BLEN r2, r0`, N = 4: 95_test_vectors.md section 3.9. -/
theorem test_blen_value :
    (after (st 4 [(0, [0xCE46D2C93A8A751F, 0x881729DE53F087BD, 0x22E725, 0x0])]) 0x58200000).map (fun t => t.reg 2) =
      some [0x96, 0x0, 0x0, 0x0] := by decide

/-- `BLEN r2, r0`, N = 2: 95_test_vectors.md section 3.4. -/
theorem test_blen_edge :
    (after (st 2 [(0, [0xFFFFFFFFFFFFFFFF, 0xFFFFFFFFFFFFFFFF])]) 0x58200000).map (fun t => t.reg 2) =
      some [0x80, 0x0] := by decide

/-- `INV2K r2, r0, 256`, N = 4: 95_test_vectors.md section 3.9. -/
theorem test_inv2k_value :
    (after (st 4 [(0, [0x88828B65670E7A1B, 0xF26BF95A23F6FDC4, 0x5A17C8EAF369517F, 0x97E96E7DB3329A4A])]) 0x60200100).map
      (fun t => (t.reg 2, t.status.nr)) =
      some ([0x54173309DF95D013, 0xABD5E03255AAA4F3, 0x30C9044814882560, 0xA394E7A9C4AB3343], false) := by decide +kernel

/-- `INV2K r2, r0, 8`, N = 1: 95_test_vectors.md section 3.5. -/
theorem test_inv2k_edge :
    (after (st 1 [(0, [0x4])]) 0x60200008).map (fun t => t.status.nr) =
      some true := by decide

/-- `MPINIT r0`, N = 2: 95_test_vectors.md section 3.5b. -/
theorem test_mpinit_value :
    (after (st 2 [(0, [0xFFFFFFFFFFFFFFC5, 0x0])]) 0x61000000).map (fun t => (t.mp, t.status.mpv, t.status.nr)) =
      some (Bank.mk [0xFFFFFFFFFFFFFFC5, 0x0] [0xD99, 0x0] [0xB8E571, 0x0] [0xCBEEA4E1A08AD8F3, 0xD3BA4837E459220C],
        true, false) := by decide +kernel

/-- `MPINIT r0` on an even modulus with a valid bank, N = 1: 95_test_vectors.md section 3.5b. -/
theorem test_mpinit_even :
    (after (withBank 0x7 (st 1 [(0, [0xA])])) 0x61000000).map (fun t => (t.mp, t.status.mpv, t.status.nr)) =
      some (Bank.mk [0x7] [0x2] [0x4] [0x9249249249249249], true, true) := by decide +kernel

/-- `REDC r6, w0`, N = 3: 95_test_vectors.md section 3.9. -/
theorem test_redc_value :
    (after (withBank 0xAF407357909102CB2CB36FB5390B6163BA8DE06FD001B115 (st 3 [(0, [0x8AA34C5F7F33AFDC, 0x275EEF7434AA9CE4, 0x298DDFB9F337F091]),
        (1, [0x43BBF77A34D2761B, 0xFF4265E2BDD5B90A, 0x1280CF3810F44545])])) 0x62600000).map
      (fun t => t.reg 6) =
      some [0xA39990CD61102255, 0xABB7E19A9A83D146, 0x59155D2B1D4D7592] := by decide +kernel

/-- `REDC r6, w2`, N = 1: 95_test_vectors.md section 3.5. -/
theorem test_redc_edge :
    (after (st 1 [(4, [0x5]), (5, [0x0])]) 0x62640000).map (fun t => (t.status.cause, t.fcmd)) =
      some (5, 0x62640000) := by decide

/-- `TOMONT r2, r0`, N = 3: 95_test_vectors.md section 3.9. -/
theorem test_tomont_value :
    (after (withBank 0xAF407357909102CB2CB36FB5390B6163BA8DE06FD001B115 (st 3 [(0, [0x8AA34C5F7F33AFDC, 0x275EEF7434AA9CE4, 0x298DDFB9F337F091])])) 0x63200000).map
      (fun t => t.reg 2) =
      some [0x45F89C5F9B405741, 0x5D384E25B3F71D0C, 0x211B6BCA7AD2DE8C] := by decide +kernel

/-- `TOMONT r2, r0`, N = 1: 95_test_vectors.md section 3.5. -/
theorem test_tomont_edge :
    (after (st 1 [(0, [0x5])]) 0x63200000).map (fun t => (t.status.cause, t.fcmd)) =
      some (5, 0x63200000) := by decide

/-- `MMUL r4, r0, r1`, N = 3: 95_test_vectors.md section 3.9. -/
theorem test_mmul_value :
    (after (withBank 0xAF407357909102CB2CB36FB5390B6163BA8DE06FD001B115 (st 3 [(0, [0x8AA34C5F7F33AFDC, 0x275EEF7434AA9CE4, 0x298DDFB9F337F091]),
        (1, [0x43BBF77A34D2761B, 0xFF4265E2BDD5B90A, 0x1280CF3810F44545])])) 0x64401000).map
      (fun t => t.reg 4) =
      some [0xC481B9587A50F84A, 0x3C98C3E596AB2292, 0x6A5AD60EC10221EE] := by decide +kernel

/-- `MMUL r4, r2, r3`, N = 1: 95_test_vectors.md section 3.5. -/
theorem test_mmul_edge :
    (after (st 1 [(2, [0x1]), (3, [0x1])]) 0x64423000).map (fun t => (t.status.cause, t.fcmd)) =
      some (5, 0x64423000) := by decide

/-- `FROMMONT r2, r0`, N = 3: 95_test_vectors.md section 3.9. -/
theorem test_frommont_value :
    (after (withBank 0xAF407357909102CB2CB36FB5390B6163BA8DE06FD001B115 (st 3 [(0, [0x8AA34C5F7F33AFDC, 0x275EEF7434AA9CE4, 0x298DDFB9F337F091])])) 0x65200000).map
      (fun t => t.reg 2) =
      some [0x5FDD99532C3DAC3A, 0xAC757BB7DCAE183C, 0x46948DF30C59304C] := by decide +kernel

/-- `FROMMONT r5, r4`, N = 1: 95_test_vectors.md section 3.5. -/
theorem test_frommont_edge :
    (after (st 1 [(4, [0x1])]) 0x65540000).map (fun t => (t.status.cause, t.fcmd)) =
      some (5, 0x65540000) := by decide

/-- `MULMOD r3, r0, r1, r2`, N = 4: 95_test_vectors.md section 3.9. -/
theorem test_mulmod_value :
    (after (st 4 [(0, [0xA506930D4C964C45, 0x90F951932C91BA42, 0xB7C1CADCD6C6C5C0, 0x78A2D30DB964C965]),
        (1, [0xA9464DE6BA35C042, 0x51B3B7755F85F016, 0x8F4642982E159731, 0xF7B7474C53C33579]),
        (2, [0x88828B65670E7A1B, 0xF26BF95A23F6FDC4, 0x5A17C8EAF369517F, 0x97E96E7DB3329A4A])]) 0x70301200).map
      (fun t => t.reg 3) =
      some [0x532EB572388188B9, 0x1BBBF25FB5B6E8F8, 0xA39A4690FE667FC1, 0x34F3E57BA3DD7778] := by decide

/-- `MULMOD r3, r0, r1, r2`, N = 1: 95_test_vectors.md section 3.6. -/
theorem test_mulmod_edge :
    (after (st 1 [(0, [0x5]), (1, [0x6]), (2, [0x0])]) 0x70301200).map (fun t => (t.status.cause, t.fcmd)) =
      some (3, 0x70301200) := by decide

/-- `MODEXP r3, r0, r1, r2`, N = 4: 95_test_vectors.md section 3.9. -/
theorem test_modexp_value :
    (after (st 4 [(0, [0xA506930D4C964C45, 0x90F951932C91BA42, 0xB7C1CADCD6C6C5C0, 0x78A2D30DB964C965]),
        (1, [0xBADC673B72A27211, 0x19, 0x0, 0x0]),
        (2, [0x88828B65670E7A1B, 0xF26BF95A23F6FDC4, 0x5A17C8EAF369517F, 0x97E96E7DB3329A4A])]) 0x71301200).map
      (fun t => t.reg 3) =
      some [0x4124DAA84E7C2A4E, 0x2DBA14067673262F, 0x727A2ED66D1372C, 0x285995187727AB38] := by decide +kernel

/-- `MODEXP r3, r0, r1, r2`, N = 1: 95_test_vectors.md section 3.6. -/
theorem test_modexp_edge :
    (after (st 1 [(0, [0x7]), (1, [0x3]), (2, [0x0])]) 0x71301200).map (fun t => (t.status.cause, t.fcmd)) =
      some (3, 0x71301200) := by decide

/-- `MEXPM r3, r0, r1`, N = 3: 95_test_vectors.md section 3.9. -/
theorem test_mexpm_value :
    (after (withBank 0xAF407357909102CB2CB36FB5390B6163BA8DE06FD001B115 (st 3 [(0, [0x8AA34C5F7F33AFDC, 0x275EEF7434AA9CE4, 0x298DDFB9F337F091]),
        (1, [0x4EFF167D25, 0x0, 0x0])])) 0x72301000).map
      (fun t => t.reg 3) =
      some [0xCA35BCE0CFFAD2D4, 0xF9099D090ABF174, 0x1FEA6D774FF6D076] := by decide +kernel

/-- `MEXPM r3, r0, r1`, N = 1: 95_test_vectors.md section 3.6. -/
theorem test_mexpm_edge :
    (after (st 1 [(0, [0x41]), (1, [0x11])]) 0x72301000).map (fun t => (t.status.cause, t.fcmd)) =
      some (5, 0x72301000) := by decide


/-! ## The port, the latch, reset (R42 to R46, R232, R233, R255) -/

/-- The state after one step with the transaction `t` pending. -/
def afterHost (s : State) (t : Transaction) : Option State :=
  match step { s with pending := [t] } with
  | .next u => some u
  | .fault _ => none
  | .refused _ => none

/-- R41, R44: word 1 of `r15` is address `1024*15 + 1`. -/
theorem test_port_write_data_word :
    (afterHost (st 2 [(15, [5, 6])]) (.write 15361 9)).map (fun t => (t.reg 15, t.reg 14)) =
      some ([5, 9], [0, 0]) := by decide

/-- R44: a word index of `N` is unmapped, and the bank is read only. -/
theorem test_port_write_elsewhere_does_nothing :
    (afterHost (st 2 [(15, [5, 6])]) (.write 15362 9)).map (fun t => t.regs) = some (st 2 [(15, [5, 6])]).regs ∧
    (afterHost (withBank 7 (st 1 [])) (.write 0x4000 9)).map (fun t => t.mp.n) = some [7] := by decide

/-- R46: bits 63:32 of a word written to `CMD` are ignored; `LDI r2, 10` is 0x1120000A. -/
theorem test_port_write_cmd_issues :
    (afterHost (st 1 []) (.write 0xC000 0xFFFFFFFF1120000A)).map (fun t => t.reg 2) = some [10] := by decide

/-- R31: `CONFIG` of a block with N = 2 is 0x10400002; R43: `CMD` and unmapped addresses read 0. -/
theorem test_port_read_config :
    portRead (st 2 []) 0x8800 = 0x10400002 ∧ portRead (st 2 []) 0xC000 = 0 ∧ portRead (st 2 []) 0x8C00 = 0 ∧
    portRead (st 2 []) 0x0002 = 0 ∧ portRead (st 2 []) 0x5000 = 0 := by decide

/-- R27, R231: `STATUS` after `ADDC` overflows is `FAULT` and cause 1, 0x1100; `FCMD` is the word. -/
theorem test_port_read_after_fault :
    (after (st 1 [(0, [0xFFFFFFFFFFFFFFFF]), (1, [1])]) 0x20201000).map (fun t => (portRead t 0x8000, portRead t 0x8400)) =
      some (0x1100, 0x20201000) := by decide

/-- 95_test_vectors.md section 3.7: `WDIVREM` with `c = d + 1` and `MOV` with `z = 1` fault with `ILLEGAL`. -/
theorem test_illegal_words_latch :
    (after (st 1 [(2, [7])]) 0x43402500).map (fun t => (t.status.fault, t.status.cause, t.fcmd)) =
      some (true, 4, 0x43402500) ∧
    (after (st 1 []) 0x10310001).map (fun t => (t.status.fault, t.status.cause, t.fcmd)) =
      some (true, 4, 0x10310001) := by decide

/-- R255: reset clears a latched fault, and the width stays. -/
theorem test_reset_clears_the_latch :
    (afterHost ((st 1 []).raise .divzero 0x41201000) .reset).map (fun t => (t.status, t.fcmd, t.words)) =
      some (Status.reset, 0, 1) := by decide

/-! ## Host software and listing text -/

/-- 95_test_vectors.md section 2.1. -/
theorem test_modInv :
    modInv 1 [3] [7] = .value [5] ∧ modInv 1 [3] [10] = .value [7] ∧ modInv 1 [7] [26] = .value [15] ∧
    modInv 1 [2] [6] = .noResult := by decide

/-- R209's Meaning: below the modulus 1 there is only 0; a zero modulus faults with `ZEROMOD`. -/
theorem test_modInv_modulus_one_and_zero :
    modInv 1 [1] [1] = .value [0] ∧ modInv 1 [5] [1] = .value [0] ∧ modInv 1 [5] [0] = .fault .zeromod := by decide

/-- U16: a bad string is refused, also when the digits before the bad character overflow; a leading zero (log entry 14). -/
theorem test_parse_bad_strings_and_leading_zeros :
    parseDecimal 1 [] = .refused ∧ parseDecimal 1 ['-', '7'] = .refused ∧
    parseDecimal 1 "18446744073709551616x".toList = .refused ∧ parseDecimal 1 ['0', '0', '7'] = .value [7] := by decide

/-- R206, R207: 12 and 18 have the greatest common divisor 6; a zero operand gives the other one. -/
theorem test_gcd :
    hostGcd 1 [12] [18] = [6] ∧ bgcd 1 [12] [18] = [6] ∧ bgcd 1 [0] [5] = [5] ∧ bgcd 1 [5] [0] = [5] := by
  decide

/-- R207, U16: 12 has two trailing zeros, `2^64` has 64, and `trailing_zeros(0)` is refused. -/
theorem test_trailingZeros :
    trailingZeros [12] = some 2 ∧ trailingZeros [0, 1] = some 64 ∧ trailingZeros [0, 0] = none := by decide +kernel

/-- R212, R214: `[0, 1]` is 18446744073709551616. -/
theorem test_decimal :
    toDecimal 1 [120] = ['1', '2', '0'] ∧ toDecimal 1 [0] = ['0'] ∧ parseDecimal 1 ['1', '2', '0'] = .value [120] ∧
    parseDecimal 2 "18446744073709551616".toList = .value [0, 1] ∧
    parseDecimal 1 "18446744073709551616".toList = .fault .overflow := by decide

/-- R65, R70: the assembly column. -/
theorem test_assembly :
    assembly (.divrem 2 3 0 1) = "DIVREM r2, r3, r0, r1" ∧ assembly (.wdivrem 2 6 0 2) = "WDIVREM w2, r6, w0, r2" ∧
    assembly (.ldi 2 65535) = "LDI r2, 65535" ∧ assembly (.mpinit 1) = "MPINIT r1" := by decide

/-! ## Witnesses: states and operands that meet the hypotheses of the obligations -/

/-- The invariant from a closed conjunction, for concrete states. -/
theorem wf_of_checks {s : State}
    (h : (1 ≤ s.words ∧ s.words ≤ 1023 ∧ (∀ r : Reg, (s.reg r).length = s.words)) ∧
      (s.mp.n.length = s.words ∧ s.mp.r1.length = s.words ∧ s.mp.r2.length = s.words ∧ s.mp.ninv.length = s.words) ∧
      (s.status.mpv = true → mpInit s.words s.mp.n = some s.mp) ∧
      (s.status.cause.toNat ≤ 5 ∧ (s.status.fault = false → s.status.cause = 0) ∧
        (s.status.fault = true → s.status.cause ≠ 0) ∧ (s.status.fault = false → s.fcmd = 0)) ∧
      (s.status.eq && s.status.lt) = false) : s.Wf :=
  { minWidth := h.1.1, maxWidth := h.1.2.1, regLength := h.1.2.2, nLength := h.2.1.1, r1Length := h.2.1.2.1,
    r2Length := h.2.1.2.2.1, ninvLength := h.2.1.2.2.2, bankValid := h.2.2.1, causeAssigned := h.2.2.2.1.1,
    causeZero := h.2.2.2.1.2.1, causeNonzero := h.2.2.2.1.2.2.1, fcmdZero := h.2.2.2.1.2.2.2,
    compareFlags := h.2.2.2.2 }

/-- A block of one word, no valid bank: `r0 = MAXV`, `r1 = 1`, `r2 = 7`, `r3 = 0`, and operands for the corners of the
products, shifts and gcds. -/
def plain : State :=
  st 1 [(0, [0xFFFFFFFFFFFFFFFF]), (1, [1]), (2, [7]), (4, [0x8000000000000000]), (5, [3]), (6, [0x100000000]),
    (7, [0xFFFFFFFF]), (8, [0x100000001]), (10, [0xFFFFFFFFFFFFFFFF]), (11, [6]), (12, [0]), (13, [7])]

/-- The same block with the bank for the modulus 7. -/
def banked : State := withBank 7 plain

/-- The same block with the fault of `ADDC r2, r0, r1` latched. -/
def faulted : State := Faulted plain .overflow 0x20201000

theorem plain_wf : plain.Wf := wf_of_checks (by decide)

theorem banked_wf : banked.Wf := wf_of_checks (by decide +kernel)

theorem faulted_wf : faulted.Wf := wf_of_checks (by decide)

/-- O2. -/
theorem witness_EncodeOfDecodeIsTheWord : decode 0x10310000 = .ok (.mov 3 1) := by decide

/-- O3: a row and a word it matches; two rows for the second clause. -/
theorem witness_DecoderAgreesWithTheOpcodeTable :
    (∃ r ∈ opcodeTable, ∃ q ∈ opcodeTable, (0x10310000#32 &&& r.mask = r.pattern) ∧ (0x10310000#32 &&& q.mask = q.pattern)) ∧
    decode 0x10310000 = .ok (.mov 3 1) :=
  ⟨⟨⟨0x10, "MOV", 0x10000000#32, 0xFF00FFFF#32⟩, by decide, ⟨0x10, "MOV", 0x10000000#32, 0xFF00FFFF#32⟩, by decide,
    by decide, by decide⟩, by decide⟩

/-- O5: both ways to issue. -/
theorem witness_StepRunsTheDecodedInstruction :
    plain.status.fault = false ∧ decode 0x10310000 = .ok (.mov 3 1) ∧
    { plain with pending := [.issue 0x10310000] }.pending = .issue 0x10310000 :: [] ∧
    (0xFFFFFFFF10310000#64).setWidth 32 = 0x10310000#32 ∧
    { plain with pending := [.write 0xC000 0xFFFFFFFF10310000] }.pending = .write 0xC000 0xFFFFFFFF10310000 :: [] := by
  refine ⟨?_, ?_, rfl, ?_, rfl⟩ <;> decide

/-- O6: one illegal word of each kind. -/
theorem witness_IllegalCommandWordFaults :
    plain.status.fault = false ∧ { plain with pending := [.issue 0] }.pending = .issue 0 :: [] ∧
    IllegalWord 1 0 ∧ IllegalWord 1 0x10310001 ∧ IllegalWord 1 0x24502000 ∧ IllegalWord 1 0x40201200 ∧
    IllegalWord 1 0x43402500 ∧ IllegalWord 1 0x60200000 ∧ IllegalWord 1 0x60200041 :=
  ⟨by decide, rfl, trivial, trivial, trivial, rfl, rfl, rfl, rfl⟩

/-- O7: each constraint at its boundary. -/
theorem witness_BrokenValueConstraintFaults :
    (Instr.divrem 2 2 0 1).wellFormed plain.words = false ∧ (Instr.wdivrem 2 4 0 2).wellFormed plain.words = false ∧
    (Instr.wdivrem 2 5 0 2).wellFormed plain.words = false ∧ (Instr.inv2k 2 0 0).wellFormed plain.words = false ∧
    (Instr.inv2k 2 0 65).wellFormed plain.words = false := by decide

/-- O8. -/
theorem witness_FaultEntryWritesOnlyTheLatch :
    plain.status.fault = false ∧
    ∃ t, step { plain with pending := [.issue 0x20201000] } = .next t ∧ t.status.fault = true :=
  ⟨by decide, _, rfl, by decide⟩

/-- O9: a faulted block, every transaction. -/
theorem witness_FaultedBlockOnlyAnswersReads :
    faulted.status.fault = true ∧ { faulted with pending := [.issue 0x10310000] }.pending = .issue 0x10310000 :: [] ∧
    { faulted with pending := [.write 0xC000 1] }.pending = .write 0xC000 1 :: [] ∧
    { faulted with pending := [.read 0x8000] }.pending = .read 0x8000 :: [] ∧
    { faulted with pending := [.reset] }.pending = .reset :: [] :=
  ⟨by decide, rfl, rfl, rfl, rfl⟩

/-- O10: the greatest width, the ends of the index range, and an unmapped address. -/
theorem witness_PortReadFollowsThePortMap :
    (State.resetFor 1023).words ≤ 1023 ∧ 0 < (State.resetFor 1023).words ∧ 1022 < (State.resetFor 1023).words ∧
    (∀ (g : Reg) (i : Nat), i < plain.words → (0x0001#16).toNat ≠ 1024 * g.val + i) ∧
    (∀ j i : Nat, j < 4 → i < plain.words → (0x0001#16).toNat ≠ 16384 + 1024 * j + i) ∧
    (0x0001 : PortAddr) ≠ 0x8000 ∧ (0x0001 : PortAddr) ≠ 0x8400 ∧ (0x0001 : PortAddr) ≠ 0x8800 ∧
    { plain with pending := [.read 0x0001] }.pending = .read 0x0001 :: [] := by
  have hw : plain.words = 1 := by decide
  refine ⟨by decide, by decide, by decide, ?_, ?_, by decide, by decide, by decide, rfl⟩
  · intro g i hi
    have h1 : (0x0001#16).toNat = 1 := by decide
    omega
  · intro j i hj hi
    have h1 : (0x0001#16).toNat = 1 := by decide
    omega

/-- O11: a well-formed block for every clause: faulted, `CMD`, word 0 of `r15`, the read-only `STATUS`. -/
theorem witness_PortWriteIssuesOrChangesOneWord :
    plain.Wf ∧ faulted.Wf ∧ faulted.status.fault = true ∧ plain.status.fault = false ∧ 0 < plain.words ∧
    { plain with pending := [.write (BitVec.ofNat 16 (1024 * 15 + 0)) 9] }.pending =
      .write (BitVec.ofNat 16 (1024 * 15 + 0)) 9 :: [] ∧
    (0x8000 : PortAddr) ≠ 0xC000 ∧ (∀ (g : Reg) (i : Nat), i < plain.words → (0x8000#16).toNat ≠ 1024 * g.val + i) := by
  have hw : plain.words = 1 := by decide
  refine ⟨plain_wf, faulted_wf, by decide, by decide, by decide, rfl, by decide, ?_⟩
  intro g i hi
  have h1 : (0x8000#16).toNat = 32768 := by decide
  omega

/-- O12, O14: both ends of the range of widths. -/
theorem witness_ResetStateIsWellFormed : (1 ≤ 1 ∧ 1 ≤ 1023) ∧ 1 ≤ 1023 ∧ 1023 ≤ 1023 := by decide

/-- O13: reset of a faulted block. -/
theorem witness_ResetTransactionClearsStatusAndFcmd :
    { faulted with pending := [.reset, .issue 0x10310000] }.pending = .reset :: [.issue 0x10310000] := rfl

/-- O15: a well-formed state whose step loads the bank. -/
theorem witness_EveryStepKeepsTheBlockWellFormed :
    { plain with pending := [.issue 0x61020000] }.Wf ∧ ∃ t, step { plain with pending := [.issue 0x61020000] } = .next t ∧
      t.status.mpv = true :=
  ⟨wf_of_checks (by decide), _, rfl, by decide⟩

/-- The recorded fault is one the recorded word can raise. -/
theorem faulted_record : FaultRecord faulted :=
  fun _ => ⟨.overflow, rfl, .inr ⟨.addc 2 0 1, by decide, by decide, by decide⟩⟩

/-- O16: before a fault and after one. -/
theorem witness_EveryStepKeepsTheFaultRecord :
    (FaultRecord plain ∧ ∃ t, step { plain with pending := [.issue 0x20201000] } = .next t ∧ t.status.fault = true) ∧
    FaultRecord faulted ∧ ∃ t, step faulted = .next t :=
  ⟨⟨fun h => absurd h (by decide), _, rfl, by decide⟩, faulted_record, _, rfl⟩

/-- O17. -/
theorem witness_EveryStepAnswersAndIdleKeepsState : plain.pending = [] := by decide

/-- O18: a step that is an `MPINIT`, and a reset. -/
theorem witness_OnlyMpinitAndResetWriteTheBank :
    (∃ t, step { plain with pending := [.issue 0x61020000] } = .next t ∧ t.mp ≠ plain.mp) ∧
    ∃ t, step { banked with pending := [.reset] } = .next t ∧ t.status.mpv ≠ banked.status.mpv :=
  ⟨⟨_, rfl, by decide⟩, _, rfl, by decide⟩

/-- O19: a command that writes `C`, and one that faults. -/
theorem witness_FlagsAreWrittenOnlyByTheirCommands :
    plain.status.fault = false ∧ (∃ t, exec (.addw 9 0 1) plain = .next t ∧ t.status.c ≠ plain.status.c) ∧
    ∃ t, exec (.addc 9 0 1) plain = .next t ∧ t.status.fault = true :=
  ⟨by decide, ⟨_, rfl, by decide⟩, _, rfl, by decide⟩

/-- O20. -/
theorem witness_OnlyDestinationsChangeAmongRegisters :
    (∃ t, exec (.wdivrem 7 9 0 2) plain = .next t ∧ t.reg 9 ≠ plain.reg 9) ∧ (8 : Reg) ∉ destsOf (.wdivrem 7 9 0 2) :=
  ⟨⟨_, rfl, by decide⟩, by decide⟩

/-- O21. -/
theorem witness_CommandsOutsideTheCauseTableNeverFault :
    causesOf (.inv2k 2 0 64) = [] ∧ (Instr.inv2k 2 0 64).wellFormed plain.words = true := by decide

/-- O23: the largest sum that fits and the least that does not; equal operands and the first less. -/
theorem witness_AddcAndSubcFaultOnCarryOrBorrow :
    plain.Wf ∧ val (plain.reg 0) + val (plain.reg 3) < radix plain.words ∧
    radix plain.words ≤ val (plain.reg 0) + val (plain.reg 1) ∧ val (plain.reg 2) ≤ val (plain.reg 2) ∧
    val (plain.reg 3) < val (plain.reg 1) :=
  ⟨plain_wf, by decide⟩

/-- O22, O24 to O26, O32 to O36, of which the one hypothesis is the invariant: a well-formed state, and the state after
reset. -/
theorem witness_wellFormed : plain.Wf ∧ State.reset.Wf := ⟨plain_wf, wf_of_checks (by decide)⟩

/-- O27: the largest product that fits and the least that does not. -/
theorem witness_MulcChecksAndMulwWraps :
    plain.Wf ∧ val (plain.reg 7) * val (plain.reg 8) < radix plain.words ∧
    radix plain.words ≤ val (plain.reg 6) * val (plain.reg 6) :=
  ⟨plain_wf, by decide⟩

/-- O28, O29, O31: zero and nonzero divisors, equal and different destinations. -/
theorem witness_DivremDividesOrFaults :
    plain.Wf ∧ (2 : Reg) = 2 ∧ (2 : Reg) ≠ 9 ∧ val (plain.reg 3) = 0 ∧ val (plain.reg 1) ≠ 0 :=
  ⟨plain_wf, by decide⟩

/-- O30: the remainder register in the quotient pair and outside it; an odd wide field. -/
theorem witness_WdivremDividesOrFaults :
    plain.Wf ∧ (4 : Reg) = pairLo 2 ∧ (5 : Reg) = pairHi 2 ∧ (6 : Reg) ≠ pairLo 2 ∧ (6 : Reg) ≠ pairHi 2 ∧
    val (plain.reg 3) = 0 ∧ val (plain.reg 2) ≠ 0 ∧ fieldOp 0x43502600 = 0x43 ∧
    (0x43502600#32).getLsbD 20 = true ∧ fieldOp 0x43412600 = 0x43 ∧ (0x43412600#32).getLsbD 16 = true :=
  ⟨plain_wf, by decide⟩

/-- O37: `k` at 0, 1, `64*N` and `64*N + 1`; an odd and an even source. -/
theorem witness_Inv2kInvertsOddValues :
    plain.Wf ∧ (0 : Imm).toNat = 0 ∧ 64 * plain.words < (65 : Imm).toNat ∧ 1 ≤ (1 : Imm).toNat ∧
    (64 : Imm).toNat ≤ 64 * plain.words ∧ val (plain.reg 3) % 2 = 0 ∧ val (plain.reg 0) % 2 = 1 :=
  ⟨plain_wf, by decide⟩

/-- O38: an even modulus, the modulus 1 and one above. -/
theorem witness_MpinitDerivesTheParameters :
    plain.Wf ∧ val (plain.reg 3) % 2 = 0 ∧ val (plain.reg 1) % 2 = 1 ∧ 1 < val (plain.reg 2) ∧
    val (plain.reg 2) % 2 = 1 :=
  ⟨plain_wf, by decide⟩

/-- O39: no bank; a bank with an operand below `n * RADIX` and one beyond; an odd wide field. -/
theorem witness_RedcReducesModuloTheBank :
    plain.Wf ∧ plain.status.mpv = false ∧ banked.Wf ∧ banked.status.mpv = true ∧
    wval banked.words (banked.pair 5) < val banked.mp.n * radix banked.words ∧
    val banked.mp.n * radix banked.words ≤ wval banked.words (banked.pair 3) ∧
    fieldOp 0x62650000 = 0x62 ∧ (0x62650000#32).getLsbD 16 = true :=
  ⟨plain_wf, by decide, banked_wf, by decide⟩

/-- O40, O44, O54: with and without a bank. -/
theorem witness_TomontAndFrommontConvert :
    plain.Wf ∧ plain.status.mpv = false ∧ banked.Wf ∧ banked.status.mpv = true :=
  ⟨plain_wf, by decide, banked_wf, by decide⟩

/-- O41: factors whose product is below `n * RADIX` and factors whose product is not. -/
theorem witness_MmulMultipliesInMontgomerySpace :
    plain.Wf ∧ plain.status.mpv = false ∧ banked.Wf ∧ banked.status.mpv = true ∧
    val (banked.reg 0) * val (banked.reg 2) < val banked.mp.n * radix banked.words ∧
    val banked.mp.n * radix banked.words ≤ val (banked.reg 0) * val (banked.reg 10) :=
  ⟨plain_wf, by decide, banked_wf, by decide⟩

/-- O42, O43: a zero and a nonzero modulus. -/
theorem witness_MulmodMultipliesModulo :
    plain.Wf ∧ val (plain.reg 3) = 0 ∧ val (plain.reg 1) ≠ 0 :=
  ⟨plain_wf, by decide⟩

/-- O45: the shift counts at the ends, a zero and a nonzero word. -/
theorem witness_WordPrimitivesAreExact : 0 < 64 ∧ 63 < 64 ∧ (0 : Word) = 0 ∧ (1 : Word) ≠ 0 := by decide

/-- O46, O47, O49, O59: sequences of the block's width, both carries in. -/
theorem witness_RippleChainsComputeSumAndDifference :
    (plain.reg 0).length = 1 ∧ (plain.reg 1).length = 1 ∧ 0 ≤ 1 ∧ 1 ≤ 1 ∧ (plain.pair 3).1.length = 1 ∧
    (plain.pair 3).2.length = 1 := by decide

/-- O48: a nonzero divisor, over N words and with a wide dividend. -/
theorem witness_BitSerialDivisionIsEuclidean :
    (plain.reg 0).length = 1 ∧ (plain.reg 2).length = 1 ∧ val (plain.reg 2) ≠ 0 ∧ (plain.pair 3).1.length = 1 ∧
    (plain.pair 3).2.length = 1 := by decide

/-- O50: both ends of the range of `k`. -/
theorem witness_BitByBitInverseAgreesWithHenselLifting :
    (plain.reg 0).length = 1 ∧ 1 ≤ 1 ∧ 1 ≤ 64 * 1 ∧ 1 ≤ 64 ∧ 64 ≤ 64 * 1 := by decide

/-- O51: the second register is not the difference's scratch register, and the sum just fits. -/
theorem witness_SubtractUndoesAdd :
    plain.Wf ∧ (9 : Reg) ≠ 3 ∧ val (plain.reg 0) + val (plain.reg 3) < radix plain.words :=
  ⟨plain_wf, by decide⟩

/-- O52: registers that keep apart. -/
theorem witness_DivisionIdentityHoldsInCommands :
    plain.Wf ∧ plain.status.fault = false ∧ val (plain.reg 2) ≠ 0 ∧ (9 : Reg) ≠ 14 ∧ (9 : Reg) ≠ 2 ∧ (14 : Reg) ≠ 2 ∧
    (15 : Reg) ≠ 14 ∧ (15 : Reg) ≠ 2 :=
  ⟨plain_wf, by decide⟩

/-- O53: a count equal to the leading zeros; the greatest count on zero; a source with its low bits clear. -/
theorem witness_ShiftRoundTripsRecoverTheSource :
    plain.Wf ∧ (61 : Imm).toNat ≤ seqLz plain.words (plain.reg 2) ∧ (64 : Imm).toNat ≤ seqLz plain.words (plain.reg 3) ∧
    val (plain.reg 4) % 2 ^ (63 : Imm).toNat = 0 :=
  ⟨plain_wf, by decide⟩

/-- O55, O57: a valid bank whose modulus is also in `r13`, and scratch registers that keep apart. -/
theorem witness_MontgomeryMultiplyMatchesMulmod :
    banked.Wf ∧ banked.status.mpv = true ∧ banked.reg 13 = banked.mp.n ∧ (9 : Reg) ≠ 5 ∧ (9 : Reg) ≠ 14 :=
  ⟨banked_wf, by decide⟩

/-- O56: both ends of the range of `k`, an odd source. -/
theorem witness_InverseTimesSourceIsOneInCommands :
    plain.Wf ∧ (2 : Reg) ≠ 9 ∧ 1 ≤ (1 : Imm).toNat ∧ (64 : Imm).toNat ≤ 64 * plain.words ∧ val (plain.reg 2) % 2 = 1 :=
  ⟨plain_wf, by decide⟩

/-- O58: coprime operands with the least modulus, operands that are not coprime, a zero modulus with a nonzero and with a
zero operand. -/
theorem witness_ModInvReturnsTheInverseOrNone :
    1 ≤ 1 ∧ (plain.reg 1).length = 1 ∧ (plain.reg 3).length = 1 ∧ (plain.reg 5).length = 1 ∧
    (plain.reg 11).length = 1 ∧ val (plain.reg 1) ≠ 0 ∧ Nat.gcd (val (plain.reg 1)) (val (plain.reg 1)) = 1 ∧
    val (plain.reg 11) ≠ 0 ∧ Nat.gcd (val (plain.reg 5)) (val (plain.reg 11)) ≠ 1 ∧ val (plain.reg 3) = 0 := by decide

/-- O60: the least width and the greatest value of it. -/
theorem witness_ParsingTheDecimalFormGivesTheValue : 1 ≤ 1 ∧ (plain.reg 0).length = 1 := by decide

end Sys2Proof.Tests
end

section
/-! Proofs of the state family: the control words at the port (R42, R43) and the reset transaction (R34, R255). -/

namespace Sys2Proof.Machine

/-! ## The control words at the port -/

@[simp] theorem portRead_statusAddr (s : State) : portRead s 0x8000#16 = s.status.toWord := rfl

@[simp] theorem portRead_fcmdAddr (s : State) : portRead s 0x8400#16 = fcmdWord s.fcmd := rfl

@[simp] theorem portRead_configAddr (s : State) : portRead s 0x8800#16 = configWord s.words := rfl

@[simp] theorem toWord_reset : Status.reset.toWord = 0#64 := by decide

@[simp] theorem fcmdWord_zero : fcmdWord 0#32 = 0#64 := by decide

/-! ## The reset transaction -/

theorem step_of_reset {s : State} {rest : List Transaction} (h : s.pending = .reset :: rest) :
    step s = .next { s with pending := rest }.resetBlock :=
  step_of_transaction h

/-- R35: what reset leaves in the bank is unspecified, but each of its values has the block's width. -/
theorem length_resetBlock_mp (s : State) :
    s.resetBlock.mp.n.length = s.words ∧ s.resetBlock.mp.r1.length = s.words ∧
    s.resetBlock.mp.r2.length = s.words ∧ s.resetBlock.mp.ninv.length = s.words := by
  simp [State.resetBlock]

/-- Settles O13: the step is `State.resetBlock`, whose `STATUS` is `Status.reset` and whose `FCMD` is 0; of the free words
(R35) only their number is used. -/
theorem resetTransactionClearsStatusAndFcmd : Obligations.ResetTransactionClearsStatusAndFcmd := by
  unfold Obligations.ResetTransactionClearsStatusAndFcmd
  intro s rest h
  obtain ⟨hstatus, hfcmd⟩ : portRead { s with pending := rest }.resetBlock 0x8000 = 0 ∧
      portRead { s with pending := rest }.resetBlock 0x8400 = 0 := by simp
  have hregs : ∀ r, ({ s with pending := rest }.resetBlock.reg r).length = s.words := by simp
  exact ⟨_, step_of_reset h, hstatus, hfcmd, portRead_configAddr _, rfl, rfl, rfl, rfl, rfl, rfl, rfl, rfl, rfl, rfl, rfl,
    rfl, hregs, length_resetBlock_mp _⟩

end Sys2Proof.Machine
end

section
/-! Proofs of the memory family: what the host port reads (R42, R43) and writes (R44, R46) at every address. -/

namespace Sys2Proof.Machine

/-! ## The fields of a port address (R41) -/

theorem portFields_of_toNat {addr : PortAddr} {sel reg idx : Nat} (hr : reg < 16) (hi : idx < 1024)
    (h : addr.toNat = 16384 * sel + 1024 * reg + idx) :
    portSel addr = sel ∧ portReg addr = reg ∧ portIdx addr = idx := by
  simp only [portSel, portReg, portIdx]
  omega

theorem toNat_eq_portFields (addr : PortAddr) :
    addr.toNat = 16384 * portSel addr + 1024 * portReg addr + portIdx addr := by
  simp only [portSel, portReg, portIdx]
  omega

theorem portSel_lt (addr : PortAddr) : portSel addr < 4 :=
  Nat.div_lt_of_lt_mul addr.isLt

theorem portReg_lt (addr : PortAddr) : portReg addr < 16 := Nat.mod_lt _ (by decide)

theorem portFields_of_dataWord {addr : PortAddr} {g : Reg} {i : Nat} (hi : i < 1024)
    (h : addr.toNat = 1024 * g.val + i) :
    portSel addr = 0 ∧ portReg addr = g.val ∧ portIdx addr = i :=
  portFields_of_toNat g.isLt hi (by omega)

/-- At `sel = 0` every register number is mapped, so only an index beyond the width leaves an address unmapped. -/
theorem portIdx_ge_of_not_dataWord {addr : PortAddr} {n : Nat}
    (h : ∀ (g : Reg) (i : Nat), i < n → addr.toNat ≠ 1024 * g.val + i) (hsel : portSel addr = 0) :
    n ≤ portIdx addr := by
  by_contra hlt
  have hfields := toNat_eq_portFields addr
  have haddr : addr.toNat = 1024 * portReg addr + portIdx addr := by omega
  exact h ⟨portReg addr, portReg_lt addr⟩ (portIdx addr) (by omega) haddr

/-! ## Port reads -/

theorem portRead_dataWord {s : State} (hw : s.words ≤ 1023) {addr : PortAddr} {g : Reg} {i : Nat} (hi : i < s.words)
    (h : addr.toNat = 1024 * g.val + i) : portRead s addr = (s.reg g).getD i 0 := by
  obtain ⟨hsel, hreg, hidx⟩ := portFields_of_dataWord (by omega : i < 1024) h
  simp [portRead, portWord, hsel, hreg, hidx, hi, wordAt]

theorem portRead_bankWord {s : State} (hw : s.words ≤ 1023) {addr : PortAddr} {x : Fixed} (j : Nat) {i : Nat}
    (hj : j < 4) (hi : i < s.words) (hx : bankValue s.mp j = some x) (h : addr.toNat = 16384 + 1024 * j + i) :
    portRead s addr = x.getD i 0 := by
  obtain ⟨hsel, hreg, hidx⟩ :=
    portFields_of_toNat (sel := 1) (by omega : j < 16) (by omega : i < 1024) (by omega)
  simp [portRead, portWord, hsel, hreg, hidx, hi, hx, wordAt]

theorem bankValue_eq_none (mp : Bank) {j : Nat} (h : 4 ≤ j) : bankValue mp j = none := by
  match j, h with
  | _ + 4, _ => rfl

theorem controlWord_eq_none (s : State) {j : Nat} (h : 3 ≤ j) : controlWord s j = none := by
  match j, h with
  | _ + 3, _ => rfl

/-- R43: the split follows `sel`; within it an index or a register number beyond the map reads nothing. -/
theorem portRead_unmapped {s : State} {addr : PortAddr}
    (hdata : ∀ (g : Reg) (i : Nat), i < s.words → addr.toNat ≠ 1024 * g.val + i)
    (hbank : ∀ j i : Nat, j < 4 → i < s.words → addr.toNat ≠ 16384 + 1024 * j + i)
    (hstatus : addr ≠ 0x8000) (hfcmd : addr ≠ 0x8400) (hconfig : addr ≠ 0x8800) : portRead s addr = 0 := by
  have hfields := toNat_eq_portFields addr
  suffices h : portWord s addr = none by simp [portRead, h]
  obtain hsel | hsel | hsel | hsel : portSel addr = 0 ∨ portSel addr = 1 ∨ portSel addr = 2 ∨ portSel addr = 3 := by
    have := portSel_lt addr
    omega
  · have hidx := portIdx_ge_of_not_dataWord hdata hsel
    simp [portWord, hsel, Nat.not_lt.mpr hidx]
  · by_cases hidx : portIdx addr < s.words
    · have hreg : 4 ≤ portReg addr := by
        by_contra hlt
        exact hbank (portReg addr) (portIdx addr) (by omega) hidx (by omega)
      simp [portWord, hsel, bankValue_eq_none s.mp hreg]
    · simp [portWord, hsel, hidx]
  · by_cases hidx : portIdx addr = 0
    · have hreg : 3 ≤ portReg addr := by bv_omega
      simp [portWord, hsel, controlWord_eq_none s hreg]
    · simp [portWord, hsel, hidx]
  · simp [portWord, hsel]

/-- The list of pending transactions is not part of the block, so the port does not show it. -/
theorem step_of_read {s : State} {addr : PortAddr} {rest : List Transaction} (h : s.pending = .read addr :: rest) :
    step s = .next { s with pending := rest, replies := portRead s addr :: s.replies } :=
  step_of_transaction h

/-- Settles O10: the ranges of the map by the fields of their addresses, the rest by `portRead_unmapped`. -/
theorem portReadFollowsThePortMap : Obligations.PortReadFollowsThePortMap := by
  unfold Obligations.PortReadFollowsThePortMap
  intro s hw
  refine ⟨fun g i hi => portRead_dataWord hw hi ?_, fun i hi => ⟨?_, ?_, ?_, ?_⟩, rfl, rfl, rfl, rfl,
    fun addr => portRead_unmapped, fun addr rest => step_of_read⟩
  · have := g.isLt
    bv_omega
  · exact portRead_bankWord hw 0 (by decide) hi rfl (by bv_omega)
  · exact portRead_bankWord hw 1 (by decide) hi rfl (by bv_omega)
  · exact portRead_bankWord hw 2 (by decide) hi rfl (by bv_omega)
  · exact portRead_bankWord hw 3 (by decide) hi rfl (by bv_omega)

/-! ## Port writes -/

theorem writeData_dataWord {s : State} (hw : s.words ≤ 1023) {addr : PortAddr} {g : Reg} {i : Nat} (hi : i < s.words)
    (h : addr.toNat = 1024 * g.val + i) (v : Word) : writeData s addr v = s.setReg g ((s.reg g).set i v) := by
  obtain ⟨hsel, hreg, hidx⟩ := portFields_of_dataWord (by omega : i < 1024) h
  simp [writeData, hsel, hreg, hidx, hi]

theorem writeData_of_not_dataWord {s : State} {addr : PortAddr}
    (h : ∀ (g : Reg) (i : Nat), i < s.words → addr.toNat ≠ 1024 * g.val + i) (v : Word) : writeData s addr v = s :=
  if_neg fun ⟨hsel, hidx⟩ => Nat.not_le.mpr hidx (portIdx_ge_of_not_dataWord h hsel)

theorem step_of_write {s : State} {addr : PortAddr} {v : Word} {rest : List Transaction}
    (h : s.pending = .write addr v :: rest) : step s = portWrite addr v { s with pending := rest } :=
  step_of_transaction h

/-- R46: a write to `CMD` is the issue of the word's low half. -/
theorem step_write_cmd {s : State} {v : Word} {rest : List Transaction} (h : s.pending = .write cmdPort v :: rest) :
    step s = step { s with pending := .issue (v.setWidth 32) :: rest } :=
  (step_of_write h).trans (portWrite_cmd _ v)

theorem step_write_of_ne_cmd {s : State} {addr : PortAddr} {v : Word} {rest : List Transaction}
    (hf : s.status.fault = false) (ha : addr ≠ cmdPort) (h : s.pending = .write addr v :: rest) :
    step s = .next (writeData { s with pending := rest } addr v) :=
  (step_of_write h).trans (portWrite_of_ne_cmd (s := { s with pending := rest }) hf ha v)

theorem ne_cmdPort_of_dataWord {addr : PortAddr} {g : Reg} {i : Nat} (hi : i < 1024)
    (h : addr.toNat = 1024 * g.val + i) : addr ≠ cmdPort := by
  rintro rfl
  have hcmd : cmdPort.toNat = 49152 := rfl
  omega

/-- Settles O11: a faulted block writes nothing, `CMD` issues, and any other address goes to `writeData`, which is one
register write at a data register word and nothing elsewhere. -/
theorem portWriteIssuesOrChangesOneWord : Obligations.PortWriteIssuesOrChangesOneWord := by
  unfold Obligations.PortWriteIssuesOrChangesOneWord
  intro s v rest hwf
  have hw : s.words ≤ 1023 := hwf.maxWidth
  refine ⟨fun addr hf h => (step_of_write h).trans (portWrite_of_faulted (s := { s with pending := rest }) hf addr v),
    step_write_cmd, fun g i hf hi h => ?_, fun addr hf ha hdata h => ?_⟩
  · have haddr : (BitVec.ofNat 16 (1024 * g.val + i)).toNat = 1024 * g.val + i := by
      have := g.isLt
      bv_omega
    have hstep := step_write_of_ne_cmd hf (ne_cmdPort_of_dataWord (by omega) haddr) h
    rw [writeData_dataWord (s := { s with pending := rest }) hw hi haddr] at hstep
    exact ⟨_, hstep, State.reg_setReg_self _ _ _, writes_setReg _ _ _⟩
  · rw [step_write_of_ne_cmd hf ha h, writeData_of_not_dataWord (s := { s with pending := rest }) hdata]

end Sys2Proof.Machine
end

section
/-! Proofs of the encoding family: a word that decodes is the word of its instruction (R61 to R66), and an illegal word
raises `Fault(ILLEGAL)` (R67, R237). -/

namespace Sys2Proof

/-! ## The fields of a command word (R61) -/

theorem zeroBits_iff {w : Command} {lo len : Nat} : zeroBits w lo len = true ↔ w.toNat / 2 ^ lo % 2 ^ len = 0 :=
  beq_iff_eq

/-- R61: the fields of a register format and its low byte are the whole word. -/
theorem wordOfRegs_fields {w : Command} (h : zeroBits w 0 8 = true) :
    wordOfRegs (fieldOp w) (fieldD w).val (fieldA w).val (fieldB w).val (fieldC w).val = w := by
  rw [zeroBits_iff] at h
  apply BitVec.eq_of_toNat_eq
  simp only [wordOfRegs, fieldOp, fieldD, fieldA, fieldB, fieldC, Fin.val_ofNat, BitVec.toNat_ofNat]
  omega

/-- R61, R64: the fields of an immediate format are the whole word. -/
theorem wordOfImm_fields (w : Command) :
    wordOfImm (fieldOp w) (fieldD w).val (fieldA w).val (fieldImm w).toNat = w := by
  apply BitVec.eq_of_toNat_eq
  simp only [wordOfImm, fieldOp, fieldD, fieldA, fieldImm, Fin.val_ofNat, BitVec.toNat_ofNat]
  omega

theorem zeroBits_of_le {w : Command} {m n : Nat} (hmn : m ≤ n) (h : zeroBits w 0 n = true) : zeroBits w 0 m = true := by
  rw [zeroBits_iff, pow_zero, Nat.div_one, ← Nat.dvd_iff_mod_eq_zero] at *
  exact (Nat.pow_dvd_pow 2 hmn).trans h

theorem val_fieldD_of_zeroBits {w : Command} (h : zeroBits w 20 4 = true) : (fieldD w).val = 0 := zeroBits_iff.mp h

theorem val_fieldA_of_zeroBits {w : Command} (h : zeroBits w 16 4 = true) : (fieldA w).val = 0 := zeroBits_iff.mp h

theorem val_fieldB_of_zeroBits {w : Command} (h : zeroBits w 0 16 = true) : (fieldB w).val = 0 := by
  rw [zeroBits_iff] at h
  simp only [fieldB, Fin.val_ofNat]
  omega

theorem val_fieldC_of_zeroBits {w : Command} (h : zeroBits w 0 12 = true) : (fieldC w).val = 0 := by
  rw [zeroBits_iff] at h
  simp only [fieldC, Fin.val_ofNat]
  omega

/-- R66: with the `c` field unused, the fields `op`, `d`, `a` and `b` are the whole word. -/
theorem wordOfRegs_fields_zero {w : Command} (h : zeroBits w 0 12 = true) :
    wordOfRegs (fieldOp w) (fieldD w).val (fieldA w).val (fieldB w).val 0 = w := by
  have hw := wordOfRegs_fields (zeroBits_of_le (by decide) h)
  rwa [val_fieldC_of_zeroBits h] at hw

/-- R66: with the `b` and `c` fields unused, the fields `op`, `d` and `a` are the whole word. -/
theorem wordOfRegs_fields_zero_zero {w : Command} (h : zeroBits w 0 16 = true) :
    wordOfRegs (fieldOp w) (fieldD w).val (fieldA w).val 0 0 = w := by
  have hw := wordOfRegs_fields_zero (zeroBits_of_le (by decide) h)
  rwa [val_fieldB_of_zeroBits h] at hw

/-! The low bit of a wide field is zero, so the field is twice its pair number (R63). -/

theorem two_mul_fieldDW {w : Command} (h : zeroBits w 20 1 = true) : 2 * (fieldDW w).val = (fieldD w).val := by
  rw [zeroBits_iff] at h
  simp only [fieldDW, fieldD, Fin.val_ofNat]
  omega

theorem two_mul_fieldAW {w : Command} (h : zeroBits w 16 1 = true) : 2 * (fieldAW w).val = (fieldA w).val := by
  rw [zeroBits_iff] at h
  simp only [fieldAW, fieldA, Fin.val_ofNat]
  omega

theorem two_mul_fieldBW {w : Command} (h : zeroBits w 12 1 = true) : 2 * (fieldBW w).val = (fieldB w).val := by
  rw [zeroBits_iff] at h
  simp only [fieldBW, fieldB, Fin.val_ofNat]
  omega

/-! ## The formats (R62)

One lemma per format: when the row's encoder puts the operands where the format reads them, a word that decodes is the word
of its instruction. -/

section
variable {w : Command} {i : Instr} {op : Nat}

theorem checkFields_eq_ok {unused even : Bool} {j : Instr} :
    checkFields unused even i = .ok j ↔ unused = true ∧ even = true ∧ i = j := by
  cases unused <;> cases even <;> simp [checkFields]

theorem encode_of_decodeRR {mk : Reg → Reg → Instr} (hop : fieldOp w = op)
    (henc : ∀ d a, encode (mk d a) = wordOfRegs op d.val a.val 0 0) (h : decodeRR mk w = .ok i) : encode i = w := by
  obtain ⟨hz, -, rfl⟩ := checkFields_eq_ok.mp h
  rw [henc, ← hop, wordOfRegs_fields_zero_zero hz]

theorem encode_of_decodeRRW {mk : Reg → Pair → Instr} (hop : fieldOp w = op)
    (henc : ∀ d a, encode (mk d a) = wordOfRegs op d.val (2 * a.val) 0 0) (h : decodeRRW mk w = .ok i) :
    encode i = w := by
  obtain ⟨hz, ha, rfl⟩ := checkFields_eq_ok.mp h
  rw [henc, ← hop, two_mul_fieldAW ha, wordOfRegs_fields_zero_zero hz]

theorem encode_of_decodeRI {mk : Reg → Imm → Instr} (hop : fieldOp w = op)
    (henc : ∀ d imm, encode (mk d imm) = wordOfImm op d.val 0 imm.toNat) (h : decodeRI mk w = .ok i) :
    encode i = w := by
  obtain ⟨ha, -, rfl⟩ := checkFields_eq_ok.mp h
  rw [henc, ← hop, ← val_fieldA_of_zeroBits ha, wordOfImm_fields]

theorem encode_of_decodeRRR {mk : Reg → Reg → Reg → Instr} (hop : fieldOp w = op)
    (henc : ∀ d a b, encode (mk d a b) = wordOfRegs op d.val a.val b.val 0) (h : decodeRRR mk w = .ok i) :
    encode i = w := by
  obtain ⟨hz, -, rfl⟩ := checkFields_eq_ok.mp h
  rw [henc, ← hop, wordOfRegs_fields_zero hz]

theorem encode_of_decodeWWW {mk : Pair → Pair → Pair → Instr} (hop : fieldOp w = op)
    (henc : ∀ d a b, encode (mk d a b) = wordOfRegs op (2 * d.val) (2 * a.val) (2 * b.val) 0)
    (h : decodeWWW mk w = .ok i) : encode i = w := by
  obtain ⟨hz, heven, rfl⟩ := checkFields_eq_ok.mp h
  simp only [Bool.and_eq_true] at heven
  obtain ⟨⟨hd, ha⟩, hb⟩ := heven
  rw [henc, ← hop, two_mul_fieldDW hd, two_mul_fieldAW ha, two_mul_fieldBW hb, wordOfRegs_fields_zero hz]

theorem encode_of_decodeWRR {mk : Pair → Reg → Reg → Instr} (hop : fieldOp w = op)
    (henc : ∀ d a b, encode (mk d a b) = wordOfRegs op (2 * d.val) a.val b.val 0) (h : decodeWRR mk w = .ok i) :
    encode i = w := by
  obtain ⟨hz, hd, rfl⟩ := checkFields_eq_ok.mp h
  rw [henc, ← hop, two_mul_fieldDW hd, wordOfRegs_fields_zero hz]

theorem encode_of_decodeWWR {mk : Pair → Pair → Reg → Instr} (hop : fieldOp w = op)
    (henc : ∀ d a b, encode (mk d a b) = wordOfRegs op (2 * d.val) (2 * a.val) b.val 0)
    (h : decodeWWR mk w = .ok i) : encode i = w := by
  obtain ⟨hz, heven, rfl⟩ := checkFields_eq_ok.mp h
  obtain ⟨hd, ha⟩ := Bool.and_eq_true_iff.mp heven
  rw [henc, ← hop, two_mul_fieldDW hd, two_mul_fieldAW ha, wordOfRegs_fields_zero hz]

theorem encode_of_decodeRWR {mk : Reg → Pair → Reg → Instr} (hop : fieldOp w = op)
    (henc : ∀ d a b, encode (mk d a b) = wordOfRegs op d.val (2 * a.val) b.val 0) (h : decodeRWR mk w = .ok i) :
    encode i = w := by
  obtain ⟨hz, ha, rfl⟩ := checkFields_eq_ok.mp h
  rw [henc, ← hop, two_mul_fieldAW ha, wordOfRegs_fields_zero hz]

theorem encode_of_decodeRRRR {mk : Reg → Reg → Reg → Reg → Instr} (hop : fieldOp w = op)
    (henc : ∀ d a b c, encode (mk d a b c) = wordOfRegs op d.val a.val b.val c.val) (h : decodeRRRR mk w = .ok i) :
    encode i = w := by
  obtain ⟨hz, -, rfl⟩ := checkFields_eq_ok.mp h
  rw [henc, ← hop, wordOfRegs_fields hz]

theorem encode_of_decodeWWRR {mk : Pair → Pair → Reg → Reg → Instr} (hop : fieldOp w = op)
    (henc : ∀ d a b c, encode (mk d a b c) = wordOfRegs op (2 * d.val) (2 * a.val) b.val c.val)
    (h : decodeWWRR mk w = .ok i) : encode i = w := by
  obtain ⟨hz, heven, rfl⟩ := checkFields_eq_ok.mp h
  obtain ⟨hd, ha⟩ := Bool.and_eq_true_iff.mp heven
  rw [henc, ← hop, two_mul_fieldDW hd, two_mul_fieldAW ha, wordOfRegs_fields hz]

theorem encode_of_decodeRRI {mk : Reg → Reg → Imm → Instr} (hop : fieldOp w = op)
    (henc : ∀ d a imm, encode (mk d a imm) = wordOfImm op d.val a.val imm.toNat) (h : decodeRRI mk w = .ok i) :
    encode i = w := by
  obtain ⟨-, -, rfl⟩ := checkFields_eq_ok.mp h
  rw [henc, ← hop, wordOfImm_fields]

theorem encode_of_decodeWWI {mk : Pair → Pair → Imm → Instr} (hop : fieldOp w = op)
    (henc : ∀ d a imm, encode (mk d a imm) = wordOfImm op (2 * d.val) (2 * a.val) imm.toNat)
    (h : decodeWWI mk w = .ok i) : encode i = w := by
  obtain ⟨-, heven, rfl⟩ := checkFields_eq_ok.mp h
  obtain ⟨hd, ha⟩ := Bool.and_eq_true_iff.mp heven
  rw [henc, ← hop, two_mul_fieldDW hd, two_mul_fieldAW ha, wordOfImm_fields]

theorem encode_of_decodeAB {mk : Reg → Reg → Instr} (hop : fieldOp w = op)
    (henc : ∀ a b, encode (mk a b) = wordOfRegs op 0 a.val b.val 0) (h : decodeAB mk w = .ok i) : encode i = w := by
  obtain ⟨hunused, -, rfl⟩ := checkFields_eq_ok.mp h
  obtain ⟨hd, hz⟩ := Bool.and_eq_true_iff.mp hunused
  rw [henc, ← hop]
  simpa only [val_fieldD_of_zeroBits hd] using wordOfRegs_fields_zero hz

theorem encode_of_decodeA {mk : Reg → Instr} (hop : fieldOp w = op)
    (henc : ∀ a, encode (mk a) = wordOfRegs op 0 a.val 0 0) (h : decodeA mk w = .ok i) : encode i = w := by
  obtain ⟨hunused, -, rfl⟩ := checkFields_eq_ok.mp h
  obtain ⟨hd, hz⟩ := Bool.and_eq_true_iff.mp hunused
  rw [henc, ← hop]
  simpa only [val_fieldD_of_zeroBits hd] using wordOfRegs_fields_zero_zero hz

/-- R66, R68: no bit of a word that decodes is dropped. The cases are numbered by the rows of the opcode table;
rows of one format share a case. -/
theorem encode_of_decode (h : decode w = .ok i) : encode i = w := by
  unfold decode at h
  split at h
  case h_1 hop | h_25 hop | h_26 hop | h_30 hop | h_32 hop => exact encode_of_decodeRR hop (fun _ _ => rfl) h
  case h_29 hop => exact encode_of_decodeRRW hop (fun _ _ => rfl) h
  case h_2 hop => exact encode_of_decodeRI hop (fun _ _ => rfl) h
  case h_3 hop | h_4 hop | h_5 hop | h_6 hop | h_10 hop | h_11 hop | h_13 hop | h_14 hop | h_31 hop | h_35 hop =>
    exact encode_of_decodeRRR hop (fun _ _ _ => rfl) h
  case h_7 hop | h_8 hop => exact encode_of_decodeWWW hop (fun _ _ _ => rfl) h
  case h_9 hop => exact encode_of_decodeWRR hop (fun _ _ _ => rfl) h
  case h_16 hop => exact encode_of_decodeWWR hop (fun _ _ _ => rfl) h
  case h_17 hop => exact encode_of_decodeRWR hop (fun _ _ _ => rfl) h
  case h_12 hop | h_33 hop | h_34 hop => exact encode_of_decodeRRRR hop (fun _ _ _ _ => rfl) h
  case h_15 hop => exact encode_of_decodeWWRR hop (fun _ _ _ _ => rfl) h
  case h_18 hop | h_19 hop | h_20 hop | h_21 hop | h_27 hop => exact encode_of_decodeRRI hop (fun _ _ _ => rfl) h
  case h_22 hop | h_23 hop => exact encode_of_decodeWWI hop (fun _ _ _ => rfl) h
  case h_24 hop => exact encode_of_decodeAB hop (fun _ _ => rfl) h
  case h_28 hop => exact encode_of_decodeA hop (fun _ => rfl) h
  case h_36 => cases h

end

end Sys2Proof

namespace Sys2Proof.Machine

/-! ## Illegal words (R67) -/

theorem illegalWord_iff {n : Nat} {w : Command} :
    IllegalWord n w ↔ (∃ e, decode w = .error e) ∨ ∃ i, decode w = .ok i ∧ i.wellFormed n = false := by
  unfold IllegalWord
  cases decode w <;> simp

/-- R67: only three commands have a value constraint, and each meaning tests its own before anything else (R236). -/
theorem exec_of_not_wellFormed {i : Instr} {s : State} (h : i.wellFormed s.words = false) :
    exec i s = .next (Faulted s .illegal (encode i)) := by
  cases i with
  | divrem d c a b =>
    have hdc : d = c := bne_eq_false_iff_eq.mp h
    exact if_pos hdc
  | wdivrem d c a b =>
    have hcd : c = pairLo d ∨ c = pairHi d := by
      simpa [Instr.wellFormed, pairLo, pairHi, Fin.ext_iff, or_iff_not_imp_left] using h
    exact if_pos hcd
  | inv2k d a imm =>
    have hk : imm.toNat = 0 ∨ imm.toNat > bitsOf s.words := by
      simp only [Instr.wellFormed, Bool.and_eq_false_iff, decide_eq_false_iff_not] at h
      rw [bitsOf]
      omega
    exact if_pos hk
  | _ => cases h

theorem issue_of_illegalWord {s : State} (hf : s.status.fault = false) {w : Command} (h : IllegalWord s.words w) :
    issue w s = .next (Faulted s .illegal w) := by
  obtain ⟨e, hd⟩ | ⟨i, hd, hi⟩ := illegalWord_iff.mp h
  · exact issue_of_undecoded hf hd
  · rw [issue_of_decoded hf hd, exec_of_not_wellFormed hi, encode_of_decode hd]

theorem step_of_issue {s : State} {w : Command} {rest : List Transaction} (h : s.pending = .issue w :: rest) :
    step s = issue w { s with pending := rest } :=
  step_of_transaction h

/-- Settles O6: a word that does not decode faults as it is issued; one that breaks its row's value constraint faults in its
meaning, where the word recorded is the word issued by `encode_of_decode`. -/
theorem illegalCommandWordFaults : Obligations.IllegalCommandWordFaults := by
  unfold Obligations.IllegalCommandWordFaults
  intro s w rest hf hp h
  exact (step_of_issue hp).trans (issue_of_illegalWord (s := { s with pending := rest }) hf h)

end Sys2Proof.Machine
end

section
/-! Proofs of the word primitives (R80 to R85): the two halves of a double-width number lose nothing, a borrow repairs a
negative difference, and the bit length is the exponent the leading-zero count is measured against. -/

namespace Sys2Proof.Machine

/-! ## Carries, borrows and high words (R80 to R82) -/

/-- "Widen to double, then split": a number of two words is its low word and its high word. -/
theorem toNat_low_add_high {v : Nat} (h : v < 2 ^ 64 * 2 ^ 64) :
    (BitVec.ofNat 64 v).toNat + 2 ^ 64 * (BitVec.ofNat 64 (v / 2 ^ 64)).toNat = v := by
  rw [BitVec.toNat_ofNat, BitVec.toNat_ofNat, Nat.mod_eq_of_lt (Nat.div_lt_of_lt_mul h), Nat.mod_add_div]

theorem addWithCarry_exact (a b cin : Word) :
    (addWithCarry a b cin).1.toNat + 2 ^ 64 * (addWithCarry a b cin).2.toNat = a.toNat + b.toNat + cin.toNat :=
  toNat_low_add_high (by omega)

/-- The greatest value, `(2^64 - 1) + (2^64 - 1)^2 + (2^64 - 1)`, still fits two words. -/
theorem mulAddWithCarry_exact (a b c cin : Word) :
    (mulAddWithCarry a b c cin).1.toNat + 2 ^ 64 * (mulAddWithCarry a b c cin).2.toNat =
      a.toNat + b.toNat * c.toNat + cin.toNat := by
  have hbc : b.toNat * c.toNat ≤ (2 ^ 64 - 1) * (2 ^ 64 - 1) :=
    Nat.mul_le_mul (Nat.le_pred_of_lt b.isLt) (Nat.le_pred_of_lt c.isLt)
  exact toNat_low_add_high (by omega)

theorem borrowIn_le_one (bin : Word) : borrowIn bin ≤ 1 := by
  unfold borrowIn
  split <;> omega

/-- A negative difference is at least `-2^64`, so adding `2^64` once brings it into a word. -/
theorem subWithBorrow_exact (a b bin : Word) :
    ((subWithBorrow a b bin).1.toNat : Int) - 2 ^ 64 * (subWithBorrow a b bin).2.toNat =
      (a.toNat : Int) - b.toNat - borrowIn bin := by
  have hbin := borrowIn_le_one bin
  rw [subWithBorrow, BitVec.toNat_ofInt]
  split
  · rw [show (1 : Word).toNat = 1 from rfl]
    omega
  · rw [show (0 : Word).toNat = 0 from rfl]
    omega

/-! ## Shifts of a word (R83, R84) -/

theorem toNat_wordShl (a : Word) (k : Nat) : (wordShl a k).1.toNat = a.toNat * 2 ^ k % 2 ^ 64 :=
  BitVec.toNat_ofNat _ _

theorem wordShl_ovf (a : Word) (k : Nat) : (wordShl a k).2 = decide (2 ^ 64 ≤ a.toNat * 2 ^ k) :=
  decide_eq_decide.mpr (Nat.div_ne_zero_iff.trans (and_iff_right (by decide)))

theorem toNat_wordShr (a : Word) (k : Nat) : (wordShr a k).1.toNat = a.toNat / 2 ^ k := by
  rw [wordShr, BitVec.toNat_ofNat, Nat.mod_eq_of_lt ((Nat.div_le_self _ _).trans_lt a.isLt)]

theorem wordShr_ovf (a : Word) (k : Nat) : (wordShr a k).2 = decide (a.toNat % 2 ^ k ≠ 0) := rfl

/-! ## Bit length and leading zeros (R85, R144) -/

@[simp] theorem bitLen_zero : bitLen 0 = 0 := rfl

/-- R85, R144: the least `L` with `v < 2^L`. -/
theorem bitLen_le_iff {v L : Nat} : bitLen v ≤ L ↔ v < 2 ^ L := by
  obtain rfl | hv := eq_or_ne v 0
  · simp
  · rw [bitLen, if_neg hv, Nat.succ_le_iff, Nat.log2_lt hv]

theorem lt_bitLen_iff {v L : Nat} : L < bitLen v ↔ 2 ^ L ≤ v := by
  rw [← not_le, bitLen_le_iff, not_lt]

theorem bitLen_toNat_le (a : Word) : bitLen a.toNat ≤ 64 := bitLen_le_iff.mpr a.isLt

theorem wordClz_zero : wordClz 0 = 64 := rfl

theorem lt_two_pow_sub_wordClz (a : Word) : a.toNat < 2 ^ (64 - wordClz a) := by
  rw [wordClz, Nat.sub_sub_self (bitLen_toNat_le a), ← bitLen_le_iff]

/-- The most significant 1 bit of a nonzero word is just below its leading zeros. -/
theorem two_pow_sub_wordClz_le {a : Word} (ha : a ≠ 0) : 2 ^ (63 - wordClz a) ≤ a.toNat := by
  have hpos : 0 < bitLen a.toNat := lt_bitLen_iff.mpr (Nat.pos_of_ne_zero (BitVec.toNat_ne.mp ha))
  rw [← lt_bitLen_iff, wordClz]
  omega

/-- Settles O45, primitive by primitive. -/
theorem wordPrimitivesAreExact : Obligations.WordPrimitivesAreExact := by
  unfold Obligations.WordPrimitivesAreExact
  intro a b c cin
  refine ⟨addWithCarry_exact a b cin, ?_, mulAddWithCarry_exact a b c cin, fun k _ => ?_, ?_, fun ha => ?_⟩
  · rw [subWithBorrow_exact, borrowIn]
    split <;> rfl
  · exact ⟨toNat_wordShl a k, wordShl_ovf a k, toNat_wordShr a k, wordShr_ovf a k⟩
  · rintro rfl
    exact wordClz_zero
  · exact ⟨two_pow_sub_wordClz_le ha, lt_two_pow_sub_wordClz a⟩

end Sys2Proof.Machine
end

section
/-! Proofs of the add and subtract family: the words of `MOV` and `LDI` decode to them (R95, R96), and each writes its
destination and nothing else. -/

namespace Sys2Proof

/-! ## The fields of a word built from its fields (R61, R65)

The fields below the one read are in range, so that they do not carry into it. -/

theorem fieldD_wordOfRegs (op : Nat) (d : Reg) {a b c : Nat} (ha : a < 16) (hb : b < 16) (hc : c < 16) :
    fieldD (wordOfRegs op d.val a b c) = d := by
  apply Fin.ext
  simp only [fieldD, wordOfRegs, Fin.val_ofNat, BitVec.toNat_ofNat]
  omega

theorem fieldA_wordOfRegs (op d : Nat) (a : Reg) {b c : Nat} (hb : b < 16) (hc : c < 16) :
    fieldA (wordOfRegs op d a.val b c) = a := by
  apply Fin.ext
  simp only [fieldA, wordOfRegs, Fin.val_ofNat, BitVec.toNat_ofNat]
  omega

theorem zeroBits_wordOfRegs_zero_zero (op d a : Nat) : zeroBits (wordOfRegs op d a 0 0) 0 16 = true := by
  rw [zeroBits_iff, wordOfRegs, BitVec.toNat_ofNat]
  omega

theorem fieldD_wordOfImm (op : Nat) (d : Reg) {a : Nat} (ha : a < 16) (imm : Imm) :
    fieldD (wordOfImm op d.val a imm.toNat) = d := by
  apply Fin.ext
  simp only [fieldD, wordOfImm, Fin.val_ofNat, BitVec.toNat_ofNat]
  omega

theorem fieldImm_wordOfImm (op d a : Nat) (imm : Imm) : fieldImm (wordOfImm op d a imm.toNat) = imm := by
  apply BitVec.eq_of_toNat_eq
  simp only [fieldImm, wordOfImm, BitVec.toNat_ofNat]
  omega

theorem zeroBits_wordOfImm_zero (op d : Nat) (imm : Imm) : zeroBits (wordOfImm op d 0 imm.toNat) 16 4 = true := by
  rw [zeroBits_iff, wordOfImm, BitVec.toNat_ofNat]
  omega

/-! ## Decoding `MOV` and `LDI` -/

theorem decodeRR_wordOfRegs (mk : Reg → Reg → Instr) (op : Nat) (d a : Reg) :
    decodeRR mk (wordOfRegs op d.val a.val 0 0) = .ok (mk d a) := by
  rw [decodeRR, fieldD_wordOfRegs op d a.isLt (by decide) (by decide),
    fieldA_wordOfRegs op d.val a (by decide) (by decide)]
  exact checkFields_eq_ok.mpr ⟨zeroBits_wordOfRegs_zero_zero op d.val a.val, rfl, rfl⟩

theorem decodeRI_wordOfImm (mk : Reg → Imm → Instr) (op : Nat) (d : Reg) (imm : Imm) :
    decodeRI mk (wordOfImm op d.val 0 imm.toNat) = .ok (mk d imm) := by
  rw [decodeRI, fieldD_wordOfImm op d (by decide), fieldImm_wordOfImm]
  exact checkFields_eq_ok.mpr ⟨zeroBits_wordOfImm_zero op d.val imm, rfl, rfl⟩

theorem decode_wordOfRegs_mov (d a : Reg) : decode (wordOfRegs 0x10 d.val a.val 0 0) = .ok (.mov d a) := by
  have hop : fieldOp (wordOfRegs 0x10 d.val a.val 0 0) = 0x10 := Laws.EncodeOpcode.mov d a
  simp only [decode, hop]
  exact decodeRR_wordOfRegs .mov 0x10 d a

theorem decode_wordOfImm_ldi (d : Reg) (imm : Imm) : decode (wordOfImm 0x11 d.val 0 imm.toNat) = .ok (.ldi d imm) := by
  have hop : fieldOp (wordOfImm 0x11 d.val 0 imm.toNat) = 0x11 := Laws.EncodeOpcode.ldi d imm
  simp only [decode, hop]
  exact decodeRI_wordOfImm .ldi 0x11 d imm

end Sys2Proof

namespace Sys2Proof.Machine

/-! ## The meanings of `MOV` and `LDI` -/

theorem exec_mov (d a : Reg) (s : State) : exec (.mov d a) s = .next (s.setReg d (s.reg a)) := rfl

theorem exec_ldi (d : Reg) (imm : Imm) (s : State) :
    exec (.ldi d imm) s = .next (s.setReg d (zext s.words imm.toNat)) := rfl

/-- An immediate fits one word, so it fits a fixed value of any buildable width (R96). -/
theorem holds_zext_imm {n : Nat} (hn : 1 ≤ n) (imm : Imm) : Holds n (zext n imm.toNat) imm.toNat :=
  holds_fix (imm.isLt.trans_le (Nat.pow_le_pow_right (by decide) (by omega)))

/-- Settles O22: each command is one register write; that `LDI`'s immediate is not cut off needs a width of at least one
word. -/
theorem movAndLdiWriteTheirDestination : Obligations.MovAndLdiWriteTheirDestination := by
  unfold Obligations.MovAndLdiWriteTheirDestination
  constructor
  · intro d a s
    exact ⟨decode_wordOfRegs_mov d a, _, exec_mov d a s, s.reg_setReg_self d _, writes_setReg s d _⟩
  · intro d imm s hs
    have hvalue : Holds s.words ((s.setReg d (zext s.words imm.toNat)).reg d) imm.toNat := by
      rw [State.reg_setReg_self]
      exact holds_zext_imm hs.minWidth imm
    exact ⟨decode_wordOfImm_ldi d imm, _, exec_ldi d imm s, hvalue, writes_setReg s d _⟩

end Sys2Proof.Machine
end

section
/-! Proofs of the divide family: the words of the six commands decode to them (R124 to R129), a zero divisor faults, and a
nonzero one writes the quotient and remainder of the Euclidean division. -/

namespace Sys2Proof

/-! ## More fields of a word built from its fields (R61, R63, R66) -/

theorem fieldB_wordOfRegs (op d a : Nat) (b : Reg) {c : Nat} (hc : c < 16) : fieldB (wordOfRegs op d a b.val c) = b := by
  apply Fin.ext
  simp only [fieldB, wordOfRegs, Fin.val_ofNat, BitVec.toNat_ofNat]
  omega

theorem fieldC_wordOfRegs (op d a b : Nat) (c : Reg) : fieldC (wordOfRegs op d a b c.val) = c := by
  apply Fin.ext
  simp only [fieldC, wordOfRegs, Fin.val_ofNat, BitVec.toNat_ofNat]
  omega

theorem fieldDW_wordOfRegs (op : Nat) (d : Pair) {a b c : Nat} (ha : a < 16) (hb : b < 16) (hc : c < 16) :
    fieldDW (wordOfRegs op (2 * d.val) a b c) = d := by
  apply Fin.ext
  simp only [fieldDW, wordOfRegs, Fin.val_ofNat, BitVec.toNat_ofNat]
  omega

theorem fieldAW_wordOfRegs (op d : Nat) (a : Pair) {b c : Nat} (hb : b < 16) (hc : c < 16) :
    fieldAW (wordOfRegs op d (2 * a.val) b c) = a := by
  apply Fin.ext
  simp only [fieldAW, wordOfRegs, Fin.val_ofNat, BitVec.toNat_ofNat]
  omega

theorem zeroBits_wordOfRegs (op d a b c : Nat) : zeroBits (wordOfRegs op d a b c) 0 8 = true := by
  rw [zeroBits_iff, wordOfRegs, BitVec.toNat_ofNat]
  omega

theorem zeroBits_wordOfRegs_zero (op d a b : Nat) : zeroBits (wordOfRegs op d a b 0) 0 12 = true := by
  rw [zeroBits_iff, wordOfRegs, BitVec.toNat_ofNat]
  omega

theorem zeroBits_wordOfRegs_evenD (op d : Nat) {a b c : Nat} (ha : a < 16) (hb : b < 16) (hc : c < 16) :
    zeroBits (wordOfRegs op (2 * d) a b c) 20 1 = true := by
  rw [zeroBits_iff, wordOfRegs, BitVec.toNat_ofNat]
  omega

theorem zeroBits_wordOfRegs_evenA (op d a : Nat) {b c : Nat} (hb : b < 16) (hc : c < 16) :
    zeroBits (wordOfRegs op d (2 * a) b c) 16 1 = true := by
  rw [zeroBits_iff, wordOfRegs, BitVec.toNat_ofNat]
  omega

/-! ## The formats of the divide rows -/

/-- The double of a pair's number is a register number (R23). -/
theorem two_mul_pair_lt (k : Pair) : 2 * k.val < 16 := by omega

theorem decodeRRRR_wordOfRegs (mk : Reg → Reg → Reg → Reg → Instr) (op : Nat) (d a b c : Reg) :
    decodeRRRR mk (wordOfRegs op d.val a.val b.val c.val) = .ok (mk d a b c) := by
  rw [decodeRRRR, fieldD_wordOfRegs op d a.isLt b.isLt c.isLt, fieldA_wordOfRegs op d.val a b.isLt c.isLt,
    fieldB_wordOfRegs op d.val a.val b c.isLt, fieldC_wordOfRegs]
  exact checkFields_eq_ok.mpr ⟨zeroBits_wordOfRegs .., rfl, rfl⟩

theorem decodeRRR_wordOfRegs (mk : Reg → Reg → Reg → Instr) (op : Nat) (d a b : Reg) :
    decodeRRR mk (wordOfRegs op d.val a.val b.val 0) = .ok (mk d a b) := by
  rw [decodeRRR, fieldD_wordOfRegs op d a.isLt b.isLt (by decide), fieldA_wordOfRegs op d.val a b.isLt (by decide),
    fieldB_wordOfRegs op d.val a.val b (by decide)]
  exact checkFields_eq_ok.mpr ⟨zeroBits_wordOfRegs_zero .., rfl, rfl⟩

theorem decodeWWRR_wordOfRegs (mk : Pair → Pair → Reg → Reg → Instr) (op : Nat) (d a : Pair) (b c : Reg) :
    decodeWWRR mk (wordOfRegs op (2 * d.val) (2 * a.val) b.val c.val) = .ok (mk d a b c) := by
  rw [decodeWWRR, fieldDW_wordOfRegs op d (two_mul_pair_lt a) b.isLt c.isLt,
    fieldAW_wordOfRegs op (2 * d.val) a b.isLt c.isLt, fieldB_wordOfRegs op (2 * d.val) (2 * a.val) b c.isLt,
    fieldC_wordOfRegs]
  have heven := Bool.and_eq_true_iff.mpr ⟨zeroBits_wordOfRegs_evenD op d.val (two_mul_pair_lt a) b.isLt c.isLt,
    zeroBits_wordOfRegs_evenA op (2 * d.val) a.val b.isLt c.isLt⟩
  exact checkFields_eq_ok.mpr ⟨zeroBits_wordOfRegs .., heven, rfl⟩

theorem decodeWWR_wordOfRegs (mk : Pair → Pair → Reg → Instr) (op : Nat) (d a : Pair) (b : Reg) :
    decodeWWR mk (wordOfRegs op (2 * d.val) (2 * a.val) b.val 0) = .ok (mk d a b) := by
  rw [decodeWWR, fieldDW_wordOfRegs op d (two_mul_pair_lt a) b.isLt (by decide),
    fieldAW_wordOfRegs op (2 * d.val) a b.isLt (by decide), fieldB_wordOfRegs op (2 * d.val) (2 * a.val) b (by decide)]
  have hzero : 0 < 16 := by decide
  have heven := Bool.and_eq_true_iff.mpr ⟨zeroBits_wordOfRegs_evenD op d.val (two_mul_pair_lt a) b.isLt hzero,
    zeroBits_wordOfRegs_evenA op (2 * d.val) a.val b.isLt hzero⟩
  exact checkFields_eq_ok.mpr ⟨zeroBits_wordOfRegs_zero .., heven, rfl⟩

theorem decodeRWR_wordOfRegs (mk : Reg → Pair → Reg → Instr) (op : Nat) (d : Reg) (a : Pair) (b : Reg) :
    decodeRWR mk (wordOfRegs op d.val (2 * a.val) b.val 0) = .ok (mk d a b) := by
  rw [decodeRWR, fieldD_wordOfRegs op d (two_mul_pair_lt a) b.isLt (by decide),
    fieldAW_wordOfRegs op d.val a b.isLt (by decide), fieldB_wordOfRegs op d.val (2 * a.val) b (by decide)]
  exact checkFields_eq_ok.mpr
    ⟨zeroBits_wordOfRegs_zero .., zeroBits_wordOfRegs_evenA op d.val a.val b.isLt (by decide), rfl⟩

/-! ## Decoding the divide commands -/

theorem decode_wordOfRegs_divrem (d c a b : Reg) :
    decode (wordOfRegs 0x40 d.val a.val b.val c.val) = .ok (.divrem d c a b) := by
  have hop : fieldOp (wordOfRegs 0x40 d.val a.val b.val c.val) = 0x40 := Laws.EncodeOpcode.divrem d c a b
  simp only [decode, hop]
  exact decodeRRRR_wordOfRegs _ 0x40 d a b c

theorem decode_wordOfRegs_div (d a b : Reg) : decode (wordOfRegs 0x41 d.val a.val b.val 0) = .ok (.div d a b) := by
  have hop : fieldOp (wordOfRegs 0x41 d.val a.val b.val 0) = 0x41 := Laws.EncodeOpcode.div d a b
  simp only [decode, hop]
  exact decodeRRR_wordOfRegs .div 0x41 d a b

theorem decode_wordOfRegs_rem (d a b : Reg) : decode (wordOfRegs 0x42 d.val a.val b.val 0) = .ok (.rem d a b) := by
  have hop : fieldOp (wordOfRegs 0x42 d.val a.val b.val 0) = 0x42 := Laws.EncodeOpcode.rem d a b
  simp only [decode, hop]
  exact decodeRRR_wordOfRegs .rem 0x42 d a b

theorem decode_wordOfRegs_wdivrem (d : Pair) (c : Reg) (a : Pair) (b : Reg) :
    decode (wordOfRegs 0x43 (2 * d.val) (2 * a.val) b.val c.val) = .ok (.wdivrem d c a b) := by
  have hop : fieldOp (wordOfRegs 0x43 (2 * d.val) (2 * a.val) b.val c.val) = 0x43 :=
    Laws.EncodeOpcode.wdivrem d c a b
  simp only [decode, hop]
  exact decodeWWRR_wordOfRegs _ 0x43 d a b c

theorem decode_wordOfRegs_wdiv (d a : Pair) (b : Reg) :
    decode (wordOfRegs 0x44 (2 * d.val) (2 * a.val) b.val 0) = .ok (.wdiv d a b) := by
  have hop : fieldOp (wordOfRegs 0x44 (2 * d.val) (2 * a.val) b.val 0) = 0x44 := Laws.EncodeOpcode.wdiv d a b
  simp only [decode, hop]
  exact decodeWWR_wordOfRegs .wdiv 0x44 d a b

theorem decode_wordOfRegs_wrem (d : Reg) (a : Pair) (b : Reg) :
    decode (wordOfRegs 0x45 d.val (2 * a.val) b.val 0) = .ok (.wrem d a b) := by
  have hop : fieldOp (wordOfRegs 0x45 d.val (2 * a.val) b.val 0) = 0x45 := Laws.EncodeOpcode.wrem d a b
  simp only [decode, hop]
  exact decodeRWR_wordOfRegs .wrem 0x45 d a b

/-! ## Odd wide fields (R63, R67) -/

theorem zeroBits_of_getLsbD {w : Command} {lo : Nat} (h : w.getLsbD lo = true) : zeroBits w lo 1 = false := by
  rw [← BitVec.testBit_toNat, Nat.testBit_eq_decide_div_mod_eq, decide_eq_true_iff] at h
  simp [zeroBits, h]

theorem exists_error_of_checkFields_odd (unused : Bool) (i : Instr) : ∃ e, checkFields unused false i = .error e := by
  cases unused
  · exact ⟨.nonzeroUnusedField, rfl⟩
  · exact ⟨.oddWideField, rfl⟩

theorem exists_error_of_decodeWWRR_odd (mk : Pair → Pair → Reg → Reg → Instr) {w : Command}
    (h : w.getLsbD 20 = true ∨ w.getLsbD 16 = true) : ∃ e, decodeWWRR mk w = .error e := by
  have hodd : (zeroBits w 20 1 && zeroBits w 16 1) = false :=
    Bool.and_eq_false_iff.mpr (h.imp zeroBits_of_getLsbD zeroBits_of_getLsbD)
  rw [decodeWWRR, hodd]
  exact exists_error_of_checkFields_odd _ _

theorem exists_error_of_decode_wdivrem_odd {w : Command} (hop : fieldOp w = 0x43)
    (h : w.getLsbD 20 = true ∨ w.getLsbD 16 = true) : ∃ e, decode w = .error e := by
  simp only [decode, hop]
  exact exists_error_of_decodeWWRR_odd _ h

end Sys2Proof

namespace Sys2Proof.Machine

/-! ## The quotient and remainder as values (R122, R123) -/

theorem holds_fxDivrem {n : Nat} {x : Fixed} (hx : x.length = n) (y : Fixed) :
    Holds n (fxDivrem n x y).1 (val x / val y) ∧ Holds n (fxDivrem n x y).2 (val x % val y) := by
  obtain ⟨hq, hr⟩ := val_fxDivrem hx y
  exact ⟨⟨length_fix _ _, hq⟩, length_fix _ _, hr⟩

theorem wHolds_wideDivrem_fst {n : Nat} {x : Wide} (hl : x.1.length = n) (hh : x.2.length = n) (m : Fixed) :
    WHolds n (wideDivrem n x m).1 (wval n x / val m) :=
  ⟨length_wide_fst _ _, length_wide_snd _ _, wval_wideDivrem_fst hl hh m⟩

theorem holds_wideDivrem_snd {n : Nat} (x : Wide) {m : Fixed} (hm : m.length = n) (h0 : val m ≠ 0) :
    Holds n (wideDivrem n x m).2 (wval n x % val m) :=
  ⟨length_fix _ _, val_wideDivrem_snd hm h0⟩

/-- R127: a register outside a pair is written without changing the pair. -/
theorem State.pair_setReg_of_ne (s : State) {r : Reg} {k : Pair} (hl : r ≠ pairLo k) (hh : r ≠ pairHi k) (v : Fixed) :
    (s.setReg r v).pair k = s.pair k := by
  rw [State.pair, State.reg_setReg_of_ne s v hl.symm, State.reg_setReg_of_ne s v hh.symm, State.pair]

/-! ## The meanings of the divide commands

A legal command faults with `DIVZERO` on a zero divisor and otherwise writes what the division unit gives. -/

section
variable {s : State} {b : Reg}

theorem exec_divrem_of_zero {d c : Reg} (hdc : d ≠ c) (a : Reg) (h : val (s.reg b) = 0) :
    exec (.divrem d c a b) s = .next (Faulted s .divzero (encode (.divrem d c a b))) :=
  (if_neg hdc).trans (if_pos h)

theorem exec_divrem_of_ne_zero {d c : Reg} (hdc : d ≠ c) (a : Reg) (h : val (s.reg b) ≠ 0) :
    exec (.divrem d c a b) s = .next ((s.setReg d (fxDivrem s.words (s.reg a) (s.reg b)).1).setReg c
      (fxDivrem s.words (s.reg a) (s.reg b)).2) :=
  (if_neg hdc).trans (if_neg h)

theorem exec_div_of_zero (d a : Reg) (h : val (s.reg b) = 0) :
    exec (.div d a b) s = .next (Faulted s .divzero (encode (.div d a b))) :=
  if_pos h

theorem exec_div_of_ne_zero (d a : Reg) (h : val (s.reg b) ≠ 0) :
    exec (.div d a b) s = .next (s.setReg d (fxDivrem s.words (s.reg a) (s.reg b)).1) :=
  if_neg h

theorem exec_rem_of_zero (d a : Reg) (h : val (s.reg b) = 0) :
    exec (.rem d a b) s = .next (Faulted s .divzero (encode (.rem d a b))) :=
  if_pos h

theorem exec_rem_of_ne_zero (d a : Reg) (h : val (s.reg b) ≠ 0) :
    exec (.rem d a b) s = .next (s.setReg d (fxDivrem s.words (s.reg a) (s.reg b)).2) :=
  if_neg h

/-- R127, R236: the destinations are looked at before the divisor. -/
theorem exec_wdivrem_of_remainder_in_pair {d : Pair} {c : Reg} (hc : c = pairLo d ∨ c = pairHi d) (a : Pair) :
    exec (.wdivrem d c a b) s = .next (Faulted s .illegal (encode (.wdivrem d c a b))) :=
  if_pos hc

theorem exec_wdivrem_of_zero {d : Pair} {c : Reg} (hl : c ≠ pairLo d) (hh : c ≠ pairHi d) (a : Pair)
    (h : val (s.reg b) = 0) :
    exec (.wdivrem d c a b) s = .next (Faulted s .divzero (encode (.wdivrem d c a b))) :=
  (if_neg (not_or_intro hl hh)).trans (if_pos h)

theorem exec_wdivrem_of_ne_zero {d : Pair} {c : Reg} (hl : c ≠ pairLo d) (hh : c ≠ pairHi d) (a : Pair)
    (h : val (s.reg b) ≠ 0) :
    exec (.wdivrem d c a b) s = .next ((s.setPair d (wideDivrem s.words (s.pair a) (s.reg b)).1).setReg c
      (wideDivrem s.words (s.pair a) (s.reg b)).2) :=
  (if_neg (not_or_intro hl hh)).trans (if_neg h)

theorem exec_wdiv_of_zero (d a : Pair) (h : val (s.reg b) = 0) :
    exec (.wdiv d a b) s = .next (Faulted s .divzero (encode (.wdiv d a b))) :=
  if_pos h

theorem exec_wdiv_of_ne_zero (d a : Pair) (h : val (s.reg b) ≠ 0) :
    exec (.wdiv d a b) s = .next (s.setPair d (wideDivrem s.words (s.pair a) (s.reg b)).1) :=
  if_neg h

theorem exec_wrem_of_zero (d : Reg) (a : Pair) (h : val (s.reg b) = 0) :
    exec (.wrem d a b) s = .next (Faulted s .divzero (encode (.wrem d a b))) :=
  if_pos h

theorem exec_wrem_of_ne_zero (d : Reg) (a : Pair) (h : val (s.reg b) ≠ 0) :
    exec (.wrem d a b) s = .next (s.setReg d (wideDivrem s.words (s.pair a) (s.reg b)).2) :=
  if_neg h

end

/-- Settles O28: the destinations are compared first (R236), then the divisor; the quotient is still in `d` after the
remainder is written, because the two registers differ. -/
theorem divremDividesOrFaults : Obligations.DivremDividesOrFaults := by
  unfold Obligations.DivremDividesOrFaults
  intro d c a b s hs
  refine ⟨decode_wordOfRegs_divrem d c a b, fun hdc => ?_, fun hdc hb => exec_divrem_of_zero hdc a hb,
    fun hdc hb => ⟨_, exec_divrem_of_ne_zero hdc a hb, ?_⟩⟩
  · exact exec_of_not_wellFormed (i := .divrem d c a b) (bne_eq_false_iff_eq.mpr hdc)
  · obtain ⟨⟨hqlen, hq⟩, hrlen, hr⟩ := holds_fxDivrem (hs.regLength a) (s.reg b)
    rw [State.reg_setReg_self, State.reg_setReg_of_ne _ _ hdc, State.reg_setReg_self, hq, hr]
    exact ⟨(Nat.div_add_mod' _ _).symm, Nat.mod_lt _ (Nat.pos_of_ne_zero hb), hqlen, hrlen,
      (writes_setReg s d _).setReg c _⟩

/-- Settles O29: each command writes one half of what `fx_divrem` gives. -/
theorem divAndRemDivideOrFault : Obligations.DivAndRemDivideOrFault := by
  unfold Obligations.DivAndRemDivideOrFault
  intro d a b s hs
  obtain ⟨hq, hr⟩ := holds_fxDivrem (hs.regLength a) (s.reg b)
  refine ⟨decode_wordOfRegs_div d a b, decode_wordOfRegs_rem d a b,
    fun hb => ⟨exec_div_of_zero d a hb, exec_rem_of_zero d a hb⟩,
    fun hb => ⟨⟨_, exec_div_of_ne_zero d a hb, ?_, writes_setReg s d _⟩,
      ⟨_, exec_rem_of_ne_zero d a hb, ?_, writes_setReg s d _⟩⟩⟩
  · rwa [State.reg_setReg_self]
  · rwa [State.reg_setReg_self]

/-- Settles O30: as `DIVREM`, with a quotient of both halves of a pair; the remainder fits N words because the divisor does,
and it is written outside the quotient pair. -/
theorem wdivremDividesOrFaults : Obligations.WdivremDividesOrFaults := by
  unfold Obligations.WdivremDividesOrFaults
  intro d c a b s hs
  refine ⟨decode_wordOfRegs_wdivrem d c a b, fun hc => exec_wdivrem_of_remainder_in_pair hc a,
    fun hl hh hb => exec_wdivrem_of_zero hl hh a hb,
    fun hl hh hb => ⟨_, exec_wdivrem_of_ne_zero hl hh a hb, ?_⟩, fun w hop => exists_error_of_decode_wdivrem_odd hop⟩
  obtain ⟨hqlo, hqhi, hq⟩ := wHolds_wideDivrem_fst (x := s.pair a) (hs.regLength _) (hs.regLength _) (s.reg b)
  obtain ⟨hrlen, hr⟩ := holds_wideDivrem_snd (s.pair a) (hs.regLength b) hb
  rw [State.reg_setReg_self, State.pair_setReg_of_ne _ hl hh, State.pair_setPair_self, hq, hr]
  exact ⟨(Nat.div_add_mod' _ _).symm, Nat.mod_lt _ (Nat.pos_of_ne_zero hb), hqlo, hqhi, hrlen,
    (writes_setPair s d _).setReg c _⟩

/-- Settles O31: each command writes one part of what `wide_divrem` gives. -/
theorem wdivAndWremDivideOrFault : Obligations.WdivAndWremDivideOrFault := by
  unfold Obligations.WdivAndWremDivideOrFault
  intro a b s hs
  refine ⟨fun d => ⟨decode_wordOfRegs_wdiv d a b, exec_wdiv_of_zero d a,
      fun hb => ⟨_, exec_wdiv_of_ne_zero d a hb, ?_, writes_setPair s d _⟩⟩,
    fun d => ⟨decode_wordOfRegs_wrem d a b, exec_wrem_of_zero d a,
      fun hb => ⟨_, exec_wrem_of_ne_zero d a hb, ?_, writes_setReg s d _⟩⟩⟩
  · rw [State.pair_setPair_self]
    exact wHolds_wideDivrem_fst (x := s.pair a) (hs.regLength _) (hs.regLength _) (s.reg b)
  · rw [State.reg_setReg_self]
    exact holds_wideDivrem_snd (s.pair a) (hs.regLength b) hb

end Sys2Proof.Machine
end

section
/-! Proofs of the shift, compare and count family: the words of the shift and count commands decode to them (R145 to R150,
R152, R153), each writes what the integer meaning of its function says, and `V` reports a lost 1 bit (R142). -/

namespace Sys2Proof

/-! ## The fields of a word of an immediate format (R61, R63)

The fields below the one read are in range, so that they do not carry into it. -/

theorem fieldA_wordOfImm (op d : Nat) (a : Reg) (imm : Imm) : fieldA (wordOfImm op d a.val imm.toNat) = a := by
  apply Fin.ext
  simp only [fieldA, wordOfImm, Fin.val_ofNat, BitVec.toNat_ofNat]
  omega

theorem fieldDW_wordOfImm (op : Nat) (d : Pair) {a : Nat} (ha : a < 16) (imm : Imm) :
    fieldDW (wordOfImm op (2 * d.val) a imm.toNat) = d := by
  apply Fin.ext
  simp only [fieldDW, wordOfImm, Fin.val_ofNat, BitVec.toNat_ofNat]
  omega

theorem fieldAW_wordOfImm (op d : Nat) (a : Pair) (imm : Imm) : fieldAW (wordOfImm op d (2 * a.val) imm.toNat) = a := by
  apply Fin.ext
  simp only [fieldAW, wordOfImm, Fin.val_ofNat, BitVec.toNat_ofNat]
  omega

theorem zeroBits_wordOfImm_evenD (op d : Nat) {a : Nat} (ha : a < 16) (imm : Imm) :
    zeroBits (wordOfImm op (2 * d) a imm.toNat) 20 1 = true := by
  rw [zeroBits_iff, wordOfImm, BitVec.toNat_ofNat]
  omega

theorem zeroBits_wordOfImm_evenA (op d a : Nat) (imm : Imm) :
    zeroBits (wordOfImm op d (2 * a) imm.toNat) 16 1 = true := by
  rw [zeroBits_iff, wordOfImm, BitVec.toNat_ofNat]
  omega

/-! ## Decoding the shift and count commands -/

theorem decodeRRI_wordOfImm (mk : Reg → Reg → Imm → Instr) (op : Nat) (d a : Reg) (imm : Imm) :
    decodeRRI mk (wordOfImm op d.val a.val imm.toNat) = .ok (mk d a imm) := by
  rw [decodeRRI, fieldD_wordOfImm op d a.isLt, fieldA_wordOfImm, fieldImm_wordOfImm]
  exact checkFields_eq_ok.mpr ⟨rfl, rfl, rfl⟩

theorem decodeWWI_wordOfImm (mk : Pair → Pair → Imm → Instr) (op : Nat) (d a : Pair) (imm : Imm) :
    decodeWWI mk (wordOfImm op (2 * d.val) (2 * a.val) imm.toNat) = .ok (mk d a imm) := by
  rw [decodeWWI, fieldDW_wordOfImm op d (two_mul_pair_lt a), fieldAW_wordOfImm, fieldImm_wordOfImm]
  have heven := Bool.and_eq_true_iff.mpr ⟨zeroBits_wordOfImm_evenD op d.val (two_mul_pair_lt a) imm,
    zeroBits_wordOfImm_evenA op (2 * d.val) a.val imm⟩
  exact checkFields_eq_ok.mpr ⟨rfl, heven, rfl⟩

theorem decode_wordOfImm_shlw (d a : Reg) (imm : Imm) :
    decode (wordOfImm 0x50 d.val a.val imm.toNat) = .ok (.shlw d a imm) := by
  have hop : fieldOp (wordOfImm 0x50 d.val a.val imm.toNat) = 0x50 := Laws.EncodeOpcode.shlw d a imm
  simp only [decode, hop]
  exact decodeRRI_wordOfImm .shlw 0x50 d a imm

theorem decode_wordOfImm_shrw (d a : Reg) (imm : Imm) :
    decode (wordOfImm 0x51 d.val a.val imm.toNat) = .ok (.shrw d a imm) := by
  have hop : fieldOp (wordOfImm 0x51 d.val a.val imm.toNat) = 0x51 := Laws.EncodeOpcode.shrw d a imm
  simp only [decode, hop]
  exact decodeRRI_wordOfImm .shrw 0x51 d a imm

theorem decode_wordOfImm_shlo (d a : Reg) (imm : Imm) :
    decode (wordOfImm 0x52 d.val a.val imm.toNat) = .ok (.shlo d a imm) := by
  have hop : fieldOp (wordOfImm 0x52 d.val a.val imm.toNat) = 0x52 := Laws.EncodeOpcode.shlo d a imm
  simp only [decode, hop]
  exact decodeRRI_wordOfImm .shlo 0x52 d a imm

theorem decode_wordOfImm_shro (d a : Reg) (imm : Imm) :
    decode (wordOfImm 0x53 d.val a.val imm.toNat) = .ok (.shro d a imm) := by
  have hop : fieldOp (wordOfImm 0x53 d.val a.val imm.toNat) = 0x53 := Laws.EncodeOpcode.shro d a imm
  simp only [decode, hop]
  exact decodeRRI_wordOfImm .shro 0x53 d a imm

theorem decode_wordOfImm_wshl (d a : Pair) (imm : Imm) :
    decode (wordOfImm 0x54 (2 * d.val) (2 * a.val) imm.toNat) = .ok (.wshl d a imm) := by
  have hop : fieldOp (wordOfImm 0x54 (2 * d.val) (2 * a.val) imm.toNat) = 0x54 := Laws.EncodeOpcode.wshl d a imm
  simp only [decode, hop]
  exact decodeWWI_wordOfImm .wshl 0x54 d a imm

theorem decode_wordOfImm_wshr (d a : Pair) (imm : Imm) :
    decode (wordOfImm 0x55 (2 * d.val) (2 * a.val) imm.toNat) = .ok (.wshr d a imm) := by
  have hop : fieldOp (wordOfImm 0x55 (2 * d.val) (2 * a.val) imm.toNat) = 0x55 := Laws.EncodeOpcode.wshr d a imm
  simp only [decode, hop]
  exact decodeWWI_wordOfImm .wshr 0x55 d a imm

theorem decode_wordOfRegs_clz (d a : Reg) : decode (wordOfRegs 0x57 d.val a.val 0 0) = .ok (.clz d a) := by
  have hop : fieldOp (wordOfRegs 0x57 d.val a.val 0 0) = 0x57 := Laws.EncodeOpcode.clz d a
  simp only [decode, hop]
  exact decodeRR_wordOfRegs .clz 0x57 d a

theorem decode_wordOfRegs_blen (d a : Reg) : decode (wordOfRegs 0x58 d.val a.val 0 0) = .ok (.blen d a) := by
  have hop : fieldOp (wordOfRegs 0x58 d.val a.val 0 0) = 0x58 := Laws.EncodeOpcode.blen d a
  simp only [decode, hop]
  exact decodeRR_wordOfRegs .blen 0x58 d a

end Sys2Proof

namespace Sys2Proof.Machine

/-! ## The shifts as values (R140 to R142, R149, R150) -/

theorem holds_seqShl (l : Nat) (x : Fixed) (k : Nat) : Holds l (seqShl l x k) (val x * 2 ^ k % radix l) :=
  ⟨length_seqShl l x k, val_seqShl l x k⟩

theorem holds_seqShr {l : Nat} {x : Fixed} (hx : x.length = l) (k : Nat) : Holds l (seqShr l x k) (val x / 2 ^ k) :=
  ⟨length_seqShr l x k, val_seqShr hx k⟩

theorem eq_iff_val_eq {l : Nat} {x y : Fixed} (hx : x.length = l) (hy : y.length = l) : x = y ↔ val x = val y :=
  ⟨congrArg val, val_injective (hx.trans hy.symm)⟩

/-- R142: shifting left and back recovers the source exactly when nothing left the value at the top. If it does, the source
times `2^k` is at most the shifted value, which is below `RADIX`. -/
theorem seqShr_seqShl_eq_iff {l : Nat} {x : Fixed} (hx : x.length = l) (k : Nat) :
    seqShr l (seqShl l x k) k = x ↔ val x * 2 ^ k < radix l := by
  rw [eq_iff_val_eq (length_seqShr ..) hx, val_seqShr (length_seqShl ..), val_seqShl]
  constructor
  · intro h
    calc val x * 2 ^ k = val x * 2 ^ k % radix l / 2 ^ k * 2 ^ k := by rw [h]
      _ ≤ val x * 2 ^ k % radix l := Nat.div_mul_le_self _ _
      _ < radix l := Nat.mod_lt _ (radix_pos l)
  · intro h
    rw [Nat.mod_eq_of_lt h, Nat.mul_div_cancel _ (Nat.two_pow_pos k)]

/-- R142: shifting right and back recovers the source exactly when the low `k` bits are zero; shifting back loses nothing. -/
theorem seqShl_seqShr_eq_iff {l : Nat} {x : Fixed} (hx : x.length = l) (k : Nat) :
    seqShl l (seqShr l x k) k = x ↔ val x % 2 ^ k = 0 := by
  have hback : val x / 2 ^ k * 2 ^ k < radix l := (Nat.div_mul_le_self _ _).trans_lt (val_lt_of_length hx)
  rw [eq_iff_val_eq (length_seqShl ..) hx, val_seqShl, val_seqShr hx, Nat.mod_eq_of_lt hback,
    ← Nat.dvd_iff_mod_eq_zero, Nat.dvd_iff_div_mul_eq]

theorem seqShlOvf_snd {l : Nat} {x : Fixed} (hx : x.length = l) (k : Nat) :
    (seqShlOvf l x k).2 = decide (radix l ≤ val x * 2 ^ k) :=
  decide_eq_decide.mpr ((seqShr_seqShl_eq_iff hx k).not.trans not_lt)

theorem seqShrOvf_snd {l : Nat} {x : Fixed} (hx : x.length = l) (k : Nat) :
    (seqShrOvf l x k).2 = decide (val x % 2 ^ k ≠ 0) :=
  decide_eq_decide.mpr (seqShl_seqShr_eq_iff hx k).not

/-- R15: the two halves of 2N words hold the number of the whole. -/
theorem Holds.wideOfWords {n v : Nat} {ws : Fixed} (h : Holds (2 * n) ws v) : WHolds n (wideOfWords n ws) v := by
  obtain ⟨hlen, hval⟩ := h
  refine ⟨?_, ?_, (wval_wideOfWords hlen).trans hval⟩
  · rw [Machine.wideOfWords, List.length_take, hlen, min_eq_left (by omega)]
  · rw [Machine.wideOfWords, List.length_drop, hlen]
    omega

theorem length_wideWords {n : Nat} {x : Wide} (hl : x.1.length = n) (hh : x.2.length = n) :
    (wideWords x).length = 2 * n := by
  rw [wideWords, List.length_append, hl, hh, two_mul]

/-! ## The bit length and leading zeros of a value (R144) -/

theorem seqBitlen_le {n : Nat} {x : Fixed} (hx : x.length = n) : seqBitlen x ≤ 64 * n :=
  bitLen_le_iff.mpr (val_lt_of_length hx)

/-- A count of bits of a value fits in a fixed value of its width (R152, R153). -/
theorem holds_zext_bits {n c : Nat} (h : c ≤ 64 * n) : Holds n (zext n c) c :=
  holds_fix (h.trans_lt Nat.lt_two_pow_self)

theorem bitsOf_sub_seqLz {n : Nat} {x : Fixed} (hx : x.length = n) : bitsOf n - seqLz n x = seqBitlen x :=
  Nat.sub_sub_self (seqBitlen_le hx)

/-! ## The meanings of the shift and count commands -/

section
variable {s : State} {i : Instr}

/-- A command that writes one register with the fixed value of `v`. -/
theorem exists_next_of_setReg {d : Reg} {x : Fixed} {v : Nat} (hexec : exec i s = .next (s.setReg d x))
    (hx : Holds s.words x v) :
    ∃ t, exec i s = .next t ∧ Holds s.words (t.reg d) v ∧ Writes s t [d] s.status := by
  refine ⟨_, hexec, ?_, writes_setReg s d x⟩
  rwa [State.reg_setReg_self]

/-- A command that writes one register with the fixed value of `v`, and the loss flag. -/
theorem exists_next_of_setReg_setV {d : Reg} {x : Fixed} {v : Nat} {b : Bool}
    (hexec : exec i s = .next ((s.setReg d x).setV b)) (hx : Holds s.words x v) :
    ∃ t, exec i s = .next t ∧ Holds s.words (t.reg d) v ∧ Writes s t [d] { s.status with v := b } := by
  refine ⟨_, hexec, ?_, (writes_setReg s d x).withStatus _⟩
  rwa [State.reg_setV, State.reg_setReg_self]

/-- A command that writes both halves of a pair with the wide value of `v`. -/
theorem exists_next_of_setPair {d : Pair} {x : Wide} {v : Nat} (hexec : exec i s = .next (s.setPair d x))
    (hx : WHolds s.words x v) :
    ∃ t, exec i s = .next t ∧ WHolds s.words (t.pair d) v ∧ Writes s t [pairLo d, pairHi d] s.status := by
  refine ⟨_, hexec, ?_, writes_setPair s d x⟩
  rwa [State.pair_setPair_self]

end

theorem exec_shlw (d a : Reg) (imm : Imm) (s : State) :
    exec (.shlw d a imm) s = .next (s.setReg d (seqShl s.words (s.reg a) imm.toNat)) := rfl

theorem exec_shrw (d a : Reg) (imm : Imm) (s : State) :
    exec (.shrw d a imm) s = .next (s.setReg d (seqShr s.words (s.reg a) imm.toNat)) := rfl

/-- R147, with `V` as the arithmetic condition of R142. -/
theorem exec_shlo (d : Reg) {a : Reg} (imm : Imm) {s : State} (ha : (s.reg a).length = s.words) :
    exec (.shlo d a imm) s = .next ((s.setReg d (seqShl s.words (s.reg a) imm.toNat)).setV
      (decide (radix s.words ≤ val (s.reg a) * 2 ^ imm.toNat))) := by
  rw [← seqShlOvf_snd ha]
  rfl

/-- R148, with `V` as the arithmetic condition of R142. -/
theorem exec_shro (d : Reg) {a : Reg} (imm : Imm) {s : State} (ha : (s.reg a).length = s.words) :
    exec (.shro d a imm) s = .next ((s.setReg d (seqShr s.words (s.reg a) imm.toNat)).setV
      (decide (val (s.reg a) % 2 ^ imm.toNat ≠ 0))) := by
  rw [← seqShrOvf_snd ha]
  rfl

theorem exec_wshl (d a : Pair) (imm : Imm) (s : State) :
    exec (.wshl d a imm) s =
      .next (s.setPair d (wideOfWords s.words (seqShl (2 * s.words) (wideWords (s.pair a)) imm.toNat))) := rfl

theorem exec_wshr (d a : Pair) (imm : Imm) (s : State) :
    exec (.wshr d a imm) s =
      .next (s.setPair d (wideOfWords s.words (seqShr (2 * s.words) (wideWords (s.pair a)) imm.toNat))) := rfl

theorem exec_clz (d a : Reg) (s : State) :
    exec (.clz d a) s = .next (s.setReg d (zext s.words (seqLz s.words (s.reg a)))) := rfl

/-- R153, with the bit length written directly. -/
theorem exec_blen (d : Reg) {a : Reg} {s : State} (ha : (s.reg a).length = s.words) :
    exec (.blen d a) s = .next (s.setReg d (zext s.words (seqBitlen (s.reg a)))) := by
  rw [← bitsOf_sub_seqLz ha]
  rfl

/-- Settles O32: each command is one register write of a shifted value. -/
theorem shlwAndShrwShiftLogically : Obligations.ShlwAndShrwShiftLogically := by
  unfold Obligations.ShlwAndShrwShiftLogically
  intro d a imm s hs
  exact ⟨⟨decode_wordOfImm_shlw d a imm, exists_next_of_setReg (exec_shlw d a imm s) (holds_seqShl ..)⟩,
    decode_wordOfImm_shrw d a imm, exists_next_of_setReg (exec_shrw d a imm s) (holds_seqShr (hs.regLength a) _)⟩

/-- Settles O33: the register writes are those of `SHLW` and `SHRW`; shifting back and comparing detects exactly the loss. -/
theorem shloAndShroReportLoss : Obligations.ShloAndShroReportLoss := by
  unfold Obligations.ShloAndShroReportLoss
  intro d a imm s hs
  have ha := hs.regLength a
  exact ⟨⟨decode_wordOfImm_shlo d a imm, exists_next_of_setReg_setV (exec_shlo d imm ha) (holds_seqShl ..)⟩,
    decode_wordOfImm_shro d a imm, exists_next_of_setReg_setV (exec_shro d imm ha) (holds_seqShr ha _)⟩

/-- Settles O34: the shifts of R140 and R141 over the 2N words of the pair, whose number is the wide value's. -/
theorem wshlAndWshrSpanBothHalves : Obligations.WshlAndWshrSpanBothHalves := by
  unfold Obligations.WshlAndWshrSpanBothHalves
  intro d a imm s hs
  have hlo : (s.pair a).1.length = s.words := hs.regLength (pairLo a)
  have hhi : (s.pair a).2.length = s.words := hs.regLength (pairHi a)
  have hshl := holds_seqShl (2 * s.words) (wideWords (s.pair a)) imm.toNat
  have hshr := holds_seqShr (length_wideWords hlo hhi) imm.toNat
  rw [val_wideWords hlo] at hshl hshr
  rw [radix_two_mul] at hshl
  exact ⟨⟨decode_wordOfImm_wshl d a imm, exists_next_of_setPair (exec_wshl d a imm s) hshl.wideOfWords⟩,
    decode_wordOfImm_wshr d a imm, exists_next_of_setPair (exec_wshr d a imm s) hshr.wideOfWords⟩

/-- Settles O36: `BLEN` writes the bit length, `CLZ` what is left of the width, and both counts fit the width. -/
theorem clzAndBlenCountBits : Obligations.ClzAndBlenCountBits := by
  unfold Obligations.ClzAndBlenCountBits
  intro d a s hs
  have hle : seqBitlen (s.reg a) ≤ 64 * s.words := seqBitlen_le (hs.regLength a)
  obtain ⟨t, ht, ⟨htlen, htval⟩, htw⟩ := exists_next_of_setReg (exec_clz d a s) (holds_zext_bits (Nat.sub_le _ _))
  obtain ⟨u, hu, ⟨hulen, huval⟩, huw⟩ := exists_next_of_setReg (exec_blen d (hs.regLength a)) (holds_zext_bits hle)
  refine ⟨decode_wordOfRegs_clz d a, decode_wordOfRegs_blen d a, t, u, ht, hu, htw, huw, htlen, hulen, ?_⟩
  rw [htval, huval]
  exact ⟨Nat.sub_add_cancel hle, bitLen_le_iff.mp le_rfl, fun m => bitLen_le_iff.mpr⟩

end Sys2Proof.Machine
end

section
/-! Proof of the modular exponentiation family: the word of `MULMOD` decodes to it (R193), a zero modulus faults, and a
nonzero one leaves the reduced product (R190). -/

namespace Sys2Proof

theorem decode_wordOfRegs_mulmod (d a b c : Reg) :
    decode (wordOfRegs 0x70 d.val a.val b.val c.val) = .ok (.mulmod d a b c) := by
  have hop : fieldOp (wordOfRegs 0x70 d.val a.val b.val c.val) = 0x70 := Laws.EncodeOpcode.mulmod d a b c
  simp only [decode, hop]
  exact decodeRRRR_wordOfRegs .mulmod 0x70 d a b c

end Sys2Proof

namespace Sys2Proof.Machine

/-- R190: the factors need not be below the modulus. -/
theorem holds_mulMod {n : Nat} {x y m : Fixed} (hx : x.length = n) (hy : y.length = n) (hm : m.length = n)
    (h0 : val m ≠ 0) : Holds n (mulMod n x y m) (val x * val y % val m) :=
  ⟨length_fix _ _, val_mulMod hx hy hm h0⟩

section
variable {s : State} {c : Reg}

theorem exec_mulmod_of_zero (d a b : Reg) (h : val (s.reg c) = 0) :
    exec (.mulmod d a b c) s = .next (Faulted s .zeromod (encode (.mulmod d a b c))) :=
  if_pos h

theorem exec_mulmod_of_ne_zero (d a b : Reg) (h : val (s.reg c) ≠ 0) :
    exec (.mulmod d a b c) s = .next (s.setReg d (mulMod s.words (s.reg a) (s.reg b) (s.reg c))) :=
  if_neg h

end

/-- Settles O42: the modulus is looked at first; with a nonzero one the command is one register write of `mul_mod`'s
value. -/
theorem mulmodMultipliesModulo : Obligations.MulmodMultipliesModulo := by
  unfold Obligations.MulmodMultipliesModulo
  intro d a b c s hs
  refine ⟨decode_wordOfRegs_mulmod d a b c, exec_mulmod_of_zero d a b, fun h0 => ?_⟩
  have hvalue := holds_mulMod (hs.regLength a) (hs.regLength b) (hs.regLength c) h0
  exact exists_next_of_setReg (exec_mulmod_of_ne_zero d a b h0) hvalue

end Sys2Proof.Machine
end

section
/-! Proofs of the exceptions family: a command that faults writes the latch and nothing else (R232), and a faulted block only
answers reads until a reset (R233). -/

namespace Sys2Proof.Machine

/-! ## How an issued command can end (R232, R236) -/

/-- The outcome `r` of the command word `w` in the state `s`: the faulted state of `s`, or a completion, which leaves `FAULT`
as it was. -/
inductive FaultsOrCompletes (s : State) (w : Command) : Result → Prop where
  | faulted (c : Cause) : FaultsOrCompletes s w (.next (Faulted s c w))
  | completed {t : State} (hfault : t.status.fault = s.status.fault) : FaultsOrCompletes s w (.next t)

/-- R236: a check that faults, made before the rest of a meaning. -/
theorem FaultsOrCompletes.check {s : State} {i : Instr} {r : Result} {p : Prop} [Decidable p] (c : Cause)
    (h : FaultsOrCompletes s (encode i) r) : FaultsOrCompletes s (encode i) (if p then faultWith i c s else r) := by
  split
  · exact .faulted c
  · exact h

theorem faultsOrCompletes_inv2k (d a : Reg) (imm : Imm) (s : State) :
    FaultsOrCompletes s (encode (.inv2k d a imm)) (exec (.inv2k d a imm) s) := by
  refine .check .illegal ?_
  cases inv2k s.words (s.reg a) imm.toNat with
  | none => exact .completed rfl
  | some x => exact .completed rfl

theorem faultsOrCompletes_mpinit (a : Reg) (s : State) :
    FaultsOrCompletes s (encode (.mpinit a)) (exec (.mpinit a) s) := by
  simp only [exec, execMpinit]
  cases mpInit s.words (s.reg a) with
  | none => exact .completed rfl
  | some p => exact .completed rfl

/-- R232: the commands by the checks their meanings make first; a meaning past its checks writes registers, the bank and flags
other than `FAULT`. -/
theorem exec_faultsOrCompletes (i : Instr) (s : State) : FaultsOrCompletes s (encode i) (exec i s) := by
  cases i with
  | addc | subc | mulc => exact .check .overflow (.completed rfl)
  | divrem | wdivrem => exact .check .illegal (.check .divzero (.completed rfl))
  | div | rem | wdiv | wrem => exact .check .divzero (.completed rfl)
  | mulmod | modexp => exact .check .zeromod (.completed rfl)
  | redc | tomont | mmul | frommont | mexpm => exact .check .noparams (.completed rfl)
  | inv2k d a imm => exact faultsOrCompletes_inv2k d a imm s
  | mpinit a => exact faultsOrCompletes_mpinit a s
  | mov | ldi | addw | subw | wadd | wsub | mulx | mulw | shlw | shrw | shlo | shro | wshl | wshr | cmp | clz | blen =>
    exact .completed rfl

/-- The word recorded is the word issued: an undecodable one by R67, any other because it is the encoding of the command it
decodes to. -/
theorem issue_faultsOrCompletes {s : State} (hf : s.status.fault = false) (w : Command) :
    FaultsOrCompletes s w (issue w s) := by
  cases hd : decode w with
  | error e =>
    rw [issue_of_undecoded hf hd]
    exact .faulted .illegal
  | ok i =>
    rw [issue_of_decoded hf hd, ← encode_of_decode hd]
    exact exec_faultsOrCompletes i s

theorem exists_eq_faulted_of_issue {s t : State} {w : Command} (hf : s.status.fault = false) (h : issue w s = .next t)
    (ht : t.status.fault = true) : ∃ c, t = Faulted s c w := by
  have hissue := issue_faultsOrCompletes hf w
  rw [h] at hissue
  cases hissue with
  | faulted c => exact ⟨c, rfl⟩
  | completed hfault => simp [hfault, hf] at ht

/-- Settles O8: an issue ends in the faulted state or keeps `FAULT`, which was clear. -/
theorem faultEntryWritesOnlyTheLatch : Obligations.FaultEntryWritesOnlyTheLatch := by
  unfold Obligations.FaultEntryWritesOnlyTheLatch
  intro s t w rest hf hp hstep ht
  rw [step_of_issue hp] at hstep
  exact exists_eq_faulted_of_issue (s := { s with pending := rest }) hf hstep ht

/-! ## The faulted block (R233) -/

section
variable {s : State} {rest : List Transaction}

theorem step_of_issue_of_faulted (hf : s.status.fault = true) {w : Command} (h : s.pending = .issue w :: rest) :
    step s = .next { s with pending := rest } :=
  (step_of_issue h).trans (issue_of_faulted (s := { s with pending := rest }) hf w)

theorem step_of_write_of_faulted (hf : s.status.fault = true) {addr : PortAddr} {v : Word}
    (h : s.pending = .write addr v :: rest) : step s = .next { s with pending := rest } :=
  (step_of_write h).trans (portWrite_of_faulted (s := { s with pending := rest }) hf addr v)

end

/-- Settles O9, transaction by transaction: only the issue and the port write look at `FAULT`; a reset leaves `Status.reset`
in `STATUS` and 0 in `FCMD`. -/
theorem faultedBlockOnlyAnswersReads : Obligations.FaultedBlockOnlyAnswersReads := by
  unfold Obligations.FaultedBlockOnlyAnswersReads
  intro s rest hf
  exact ⟨fun w => step_of_issue_of_faulted hf, fun addr v => step_of_write_of_faulted hf, fun addr => step_of_read,
    fun h => ⟨_, step_of_reset h, rfl, rfl, rfl⟩⟩

end Sys2Proof.Machine
end

section
/-! Proofs of the encoding and the opcode table: the decoder undoes the encoder (R61 to R66), and it agrees with the table's
match and mask columns (R65, R69). -/

namespace Sys2Proof

/-! ## The formats that the divide and shift rows do not use (R62, R63) -/

theorem fieldBW_wordOfRegs (op d a : Nat) (b : Pair) {c : Nat} (hc : c < 16) :
    fieldBW (wordOfRegs op d a (2 * b.val) c) = b := by
  apply Fin.ext
  simp only [fieldBW, wordOfRegs, Fin.val_ofNat, BitVec.toNat_ofNat]
  omega

theorem zeroBits_wordOfRegs_evenB (op d a b : Nat) {c : Nat} (hc : c < 16) :
    zeroBits (wordOfRegs op d a (2 * b) c) 12 1 = true := by
  rw [zeroBits_iff, wordOfRegs, BitVec.toNat_ofNat]
  omega

theorem zeroBits_wordOfRegs_zeroD (op : Nat) {a b c : Nat} (ha : a < 16) (hb : b < 16) (hc : c < 16) :
    zeroBits (wordOfRegs op 0 a b c) 20 4 = true := by
  rw [zeroBits_iff, wordOfRegs, BitVec.toNat_ofNat]
  omega

theorem decodeRRW_wordOfRegs (mk : Reg → Pair → Instr) (op : Nat) (d : Reg) (a : Pair) :
    decodeRRW mk (wordOfRegs op d.val (2 * a.val) 0 0) = .ok (mk d a) := by
  have hzero : 0 < 16 := by decide
  rw [decodeRRW, fieldD_wordOfRegs op d (two_mul_pair_lt a) hzero hzero, fieldAW_wordOfRegs op d.val a hzero hzero]
  exact checkFields_eq_ok.mpr ⟨zeroBits_wordOfRegs_zero_zero .., zeroBits_wordOfRegs_evenA op d.val a.val hzero hzero, rfl⟩

theorem decodeWWW_wordOfRegs (mk : Pair → Pair → Pair → Instr) (op : Nat) (d a b : Pair) :
    decodeWWW mk (wordOfRegs op (2 * d.val) (2 * a.val) (2 * b.val) 0) = .ok (mk d a b) := by
  have hzero : 0 < 16 := by decide
  rw [decodeWWW, fieldDW_wordOfRegs op d (two_mul_pair_lt a) (two_mul_pair_lt b) hzero,
    fieldAW_wordOfRegs op (2 * d.val) a (two_mul_pair_lt b) hzero,
    fieldBW_wordOfRegs op (2 * d.val) (2 * a.val) b hzero,
    zeroBits_wordOfRegs_evenD op d.val (two_mul_pair_lt a) (two_mul_pair_lt b) hzero,
    zeroBits_wordOfRegs_evenA op (2 * d.val) a.val (two_mul_pair_lt b) hzero,
    zeroBits_wordOfRegs_evenB op (2 * d.val) (2 * a.val) b.val hzero]
  exact checkFields_eq_ok.mpr ⟨zeroBits_wordOfRegs_zero .., rfl, rfl⟩

theorem decodeWRR_wordOfRegs (mk : Pair → Reg → Reg → Instr) (op : Nat) (d : Pair) (a b : Reg) :
    decodeWRR mk (wordOfRegs op (2 * d.val) a.val b.val 0) = .ok (mk d a b) := by
  have hzero : 0 < 16 := by decide
  rw [decodeWRR, fieldDW_wordOfRegs op d a.isLt b.isLt hzero, fieldA_wordOfRegs op (2 * d.val) a b.isLt hzero,
    fieldB_wordOfRegs op (2 * d.val) a.val b hzero]
  exact checkFields_eq_ok.mpr ⟨zeroBits_wordOfRegs_zero .., zeroBits_wordOfRegs_evenD op d.val a.isLt b.isLt hzero, rfl⟩

theorem decodeAB_wordOfRegs (mk : Reg → Reg → Instr) (op : Nat) (a b : Reg) :
    decodeAB mk (wordOfRegs op 0 a.val b.val 0) = .ok (mk a b) := by
  have hzero : 0 < 16 := by decide
  rw [decodeAB, fieldA_wordOfRegs op 0 a b.isLt hzero, fieldB_wordOfRegs op 0 a.val b hzero]
  have hunused := Bool.and_eq_true_iff.mpr
    ⟨zeroBits_wordOfRegs_zeroD op a.isLt b.isLt hzero, zeroBits_wordOfRegs_zero op 0 a.val b.val⟩
  exact checkFields_eq_ok.mpr ⟨hunused, rfl, rfl⟩

theorem decodeA_wordOfRegs (mk : Reg → Instr) (op : Nat) (a : Reg) :
    decodeA mk (wordOfRegs op 0 a.val 0 0) = .ok (mk a) := by
  have hzero : 0 < 16 := by decide
  rw [decodeA, fieldA_wordOfRegs op 0 a hzero hzero]
  have hunused := Bool.and_eq_true_iff.mpr
    ⟨zeroBits_wordOfRegs_zeroD op a.isLt hzero hzero, zeroBits_wordOfRegs_zero_zero op 0 a.val⟩
  exact checkFields_eq_ok.mpr ⟨hunused, rfl, rfl⟩

/-! ## Decoding what was encoded -/

theorem fieldOp_encode (i : Instr) : fieldOp (encode i) = i.opcode := by
  cases i with
  | ldi | shlw | shrw | shlo | shro | wshl | wshr | inv2k =>
    exact Laws.fieldOp_wordOfImm (by decide) (by omega) (by omega) (by omega)
  | mov | addc | addw | subc | subw | wadd | wsub | mulx | mulc | mulw | divrem | div | rem | wdivrem | wdiv | wrem | cmp
  | clz | blen | mpinit | redc | tomont | mmul | frommont | mulmod | modexp | mexpm =>
    exact Laws.fieldOp_wordOfRegs (by decide) (by omega) (by omega) (by omega) (by omega)

/-- R61 to R66: the opcode byte selects the row's format, which reads the operands back. -/
theorem decode_encode (i : Instr) : decode (encode i) = .ok i := by
  cases i <;> simp only [decode, fieldOp_encode, Instr.opcode]
  case mov | clz | blen | tomont | frommont => exact decodeRR_wordOfRegs _ _ _ _
  case redc => exact decodeRRW_wordOfRegs _ _ _ _
  case ldi => exact decodeRI_wordOfImm _ _ _ _
  case addc | addw | subc | subw | mulc | mulw | div | rem | mmul | mexpm => exact decodeRRR_wordOfRegs _ _ _ _ _
  case wadd | wsub => exact decodeWWW_wordOfRegs _ _ _ _ _
  case mulx => exact decodeWRR_wordOfRegs _ _ _ _ _
  case wdiv => exact decodeWWR_wordOfRegs _ _ _ _ _
  case wrem => exact decodeRWR_wordOfRegs _ _ _ _ _
  case divrem d c a b => exact decodeRRRR_wordOfRegs (fun d a b c => .divrem d c a b) 0x40 d a b c
  case mulmod | modexp => exact decodeRRRR_wordOfRegs _ _ _ _ _ _
  case wdivrem d c a b => exact decodeWWRR_wordOfRegs (fun d a b c => .wdivrem d c a b) 0x43 d a b c
  case shlw | shrw | shlo | shro | inv2k => exact decodeRRI_wordOfImm _ _ _ _ _
  case wshl | wshr => exact decodeWWI_wordOfImm _ _ _ _ _
  case cmp => exact decodeAB_wordOfRegs _ _ _ _
  case mpinit => exact decodeA_wordOfRegs _ _ _

/-- Settles O1, row by row in `decode_encode`. -/
theorem decodeOfEncodeIsTheInstruction : Obligations.DecodeOfEncodeIsTheInstruction := by
  unfold Obligations.DecodeOfEncodeIsTheInstruction
  exact decode_encode

/-- Settles O2, format by format in `encode_of_decode`. -/
theorem encodeOfDecodeIsTheWord : Obligations.EncodeOfDecodeIsTheWord := by
  unfold Obligations.EncodeOfDecodeIsTheWord
  exact fun _ _ => encode_of_decode

/-- Settles O4: each word is closed, and the decoder runs on it. -/
theorem sampleWordsDecodeAsTheTableSays : Obligations.SampleWordsDecodeAsTheTableSays := by
  unfold Obligations.SampleWordsDecodeAsTheTableSays
  decide

end Sys2Proof
end

section
/-! Proof that the decoder agrees with the match and mask columns of the opcode table (R65, R66, R69). -/

namespace Sys2Proof

/-! ## Masks as ranges of bits -/

/-- The mask of the `len` bits from bit `lo` up. -/
def rangeMask (lo len : Nat) : Command := BitVec.ofNat 32 (2 ^ lo * (2 ^ len - 1))

/-- The mask of the opcode byte and of the ranges in `zs`, which a row's format leaves zero (R65, R66). -/
def maskOf (zs : List (Nat × Nat)) : Command := zs.foldr (fun z m => rangeMask z.1 z.2 ||| m) (rangeMask 24 8)

/-- A range of bits cut out of a word is the number `zeroBits` looks at, in its place. -/
theorem toNat_and_rangeMask (w : Command) {lo len : Nat} (h : lo + len ≤ 32) :
    (w &&& rangeMask lo len).toNat = 2 ^ lo * (w.toNat / 2 ^ lo % 2 ^ len) := by
  have hmask : 2 ^ lo * (2 ^ len - 1) < 2 ^ 32 := by
    calc 2 ^ lo * (2 ^ len - 1) < 2 ^ lo * 2 ^ len :=
          Nat.mul_lt_mul_of_pos_left (Nat.sub_lt (Nat.two_pow_pos len) Nat.one_pos) (Nat.two_pow_pos lo)
      _ ≤ 2 ^ 32 := by rw [← Nat.pow_add]; exact Nat.pow_le_pow_right (by decide) h
  rw [BitVec.toNat_and, rangeMask, BitVec.toNat_ofNat, Nat.mod_eq_of_lt hmask]
  apply Nat.eq_of_testBit_eq
  intro i
  rw [Nat.testBit_and, Nat.testBit_two_pow_mul, Nat.testBit_two_pow_mul, Nat.testBit_two_pow_sub_one,
    Nat.testBit_mod_two_pow, Nat.testBit_div_two_pow]
  by_cases hi : lo ≤ i
  · rw [Nat.sub_add_cancel hi]
    simp [hi, Bool.and_comm]
  · simp [hi]

theorem and_rangeMask_eq_zero_iff {w : Command} {lo len : Nat} (h : lo + len ≤ 32) :
    w &&& rangeMask lo len = 0#32 ↔ zeroBits w lo len = true := by
  rw [← BitVec.toNat_inj, toNat_and_rangeMask w h, zeroBits_iff]
  simp

theorem and_rangeMask_eq_op_iff {w : Command} {op : Nat} (hop : op < 256) :
    w &&& rangeMask 24 8 = BitVec.ofNat 32 (2 ^ 24 * op) ↔ fieldOp w = op := by
  rw [← BitVec.toNat_inj, toNat_and_rangeMask w (by decide), fieldOp, BitVec.toNat_ofNat]
  omega

/-- Bits that `p` does not have must be absent from `w` under their part of a mask. -/
theorem and_or_eq_iff {w m n p : Command} (h : p &&& m = 0#32) : w &&& (m ||| n) = p ↔ w &&& m = 0#32 ∧ w &&& n = p := by
  rw [BitVec.and_or_distrib_left]
  constructor
  · intro hp
    have hm : w &&& m = 0#32 := by
      calc w &&& m = (w &&& m ||| w &&& n) &&& (w &&& m) := by ext i; simp; tauto
        _ = w &&& (p &&& m) := by rw [hp]; ext i; simp [Bool.and_left_comm]
        _ = 0#32 := by rw [h, BitVec.and_zero]
    refine ⟨hm, ?_⟩
    rwa [hm, BitVec.zero_or] at hp
  · rintro ⟨hm, hn⟩
    rw [hm, hn, BitVec.zero_or]

/-- A row's columns say that the opcode byte is the row's and that the listed ranges are zero. -/
theorem and_maskOf_eq_iff {w : Command} {op : Nat} (hop : op < 256) (zs : List (Nat × Nat))
    (hzs : ∀ z ∈ zs, z.1 + z.2 ≤ 24) :
    w &&& maskOf zs = BitVec.ofNat 32 (2 ^ 24 * op) ↔ fieldOp w = op ∧ ∀ z ∈ zs, zeroBits w z.1 z.2 = true := by
  induction zs with
  | nil => simpa [maskOf] using and_rangeMask_eq_op_iff hop
  | cons z zs ih =>
    obtain ⟨hz, hzs⟩ := List.forall_mem_cons.mp hzs
    have hlt : 2 ^ 24 * op < 2 ^ 32 := by omega
    have hdisjoint : BitVec.ofNat 32 (2 ^ 24 * op) &&& rangeMask z.1 z.2 = 0#32 := by
      rw [and_rangeMask_eq_zero_iff (by omega), zeroBits_iff, BitVec.toNat_ofNat, Nat.mod_eq_of_lt hlt,
        show 24 = z.1 + (z.2 + (24 - z.1 - z.2)) by omega, Nat.pow_add, Nat.pow_add, Nat.mul_assoc,
        Nat.mul_div_cancel_left _ (Nat.two_pow_pos _), Nat.mul_assoc, Nat.mul_mod_right]
    have hcons : maskOf (z :: zs) = rangeMask z.1 z.2 ||| maskOf zs := rfl
    rw [hcons, and_or_eq_iff hdisjoint, and_rangeMask_eq_zero_iff (by omega), ih hzs, List.forall_mem_cons]
    tauto

/-! ## Rows -/

/-- What a row's columns and the decoder say of a word agree. -/
def RowAgrees (r : OpcodeRow) : Prop :=
  ∀ w : Command, w &&& r.mask = r.pattern ↔ ∃ i, decode w = .ok i ∧ i.opcode = r.op ∧ i.mnemonic = r.name

theorem fieldOp_of_decode {w : Command} {i : Instr} (h : decode w = .ok i) : fieldOp w = i.opcode := by
  rw [← encode_of_decode h, fieldOp_encode]

/-- A row from its format: `zs` are the ranges the format leaves zero, the unused fields and then the low bits of the wide
fields. The decoder's arm for the row and its constructor are found by computation. -/
theorem rowAgrees_of_format {r : OpcodeRow} (zs : List (Nat × Nat)) {unused even : Command → Bool} {mk : Command → Instr}
    (hcols : r.op < 256 ∧ (∀ z ∈ zs, z.1 + z.2 ≤ 24) ∧ r.mask = maskOf zs ∧
      r.pattern = BitVec.ofNat 32 (2 ^ 24 * r.op) := by decide)
    (hdec : ∀ w, fieldOp w = r.op → decode w = checkFields (unused w) (even w) (mk w) := by
      intro w h; rw [decode, h]; rfl)
    (hzero : ∀ w, (∀ z ∈ zs, zeroBits w z.1 z.2 = true) ↔ unused w = true ∧ even w = true := by
      simp [and_assoc])
    (hmk : ∀ w, (mk w).opcode = r.op ∧ (mk w).mnemonic = r.name := by exact fun _ => ⟨rfl, rfl⟩) : RowAgrees r := by
  intro w
  obtain ⟨hop, hzs, hmask, hpattern⟩ := hcols
  rw [hmask, hpattern, and_maskOf_eq_iff hop zs hzs, hzero]
  constructor
  · rintro ⟨hw, hok⟩
    exact ⟨mk w, (hdec w hw).trans (checkFields_eq_ok.mpr ⟨hok.1, hok.2, rfl⟩), hmk w⟩
  · rintro ⟨i, hi, hiop, -⟩
    have hw : fieldOp w = r.op := (fieldOp_of_decode hi).trans hiop
    obtain ⟨hu, he, -⟩ := checkFields_eq_ok.mp ((hdec w hw).symm.trans hi)
    exact ⟨hw, hu, he⟩

theorem rowAgrees_moveAdd : ∀ r ∈ opcodeRowsMoveAdd, RowAgrees r := by
  simp only [opcodeRowsMoveAdd, List.forall_mem_cons]
  exact ⟨rowAgrees_of_format [(0, 16)], rowAgrees_of_format [(16, 4)], rowAgrees_of_format [(0, 12)],
    rowAgrees_of_format [(0, 12)], rowAgrees_of_format [(0, 12)], rowAgrees_of_format [(0, 12)],
    rowAgrees_of_format [(0, 12), (20, 1), (16, 1), (12, 1)], rowAgrees_of_format [(0, 12), (20, 1), (16, 1), (12, 1)],
    List.forall_mem_nil _⟩

theorem rowAgrees_mulDiv : ∀ r ∈ opcodeRowsMulDiv, RowAgrees r := by
  simp only [opcodeRowsMulDiv, List.forall_mem_cons]
  exact ⟨rowAgrees_of_format [(0, 12), (20, 1)], rowAgrees_of_format [(0, 12)], rowAgrees_of_format [(0, 12)],
    rowAgrees_of_format [(0, 8)], rowAgrees_of_format [(0, 12)], rowAgrees_of_format [(0, 12)],
    rowAgrees_of_format [(0, 8), (20, 1), (16, 1)], rowAgrees_of_format [(0, 12), (20, 1), (16, 1)],
    rowAgrees_of_format [(0, 12), (16, 1)], List.forall_mem_nil _⟩

theorem rowAgrees_shift : ∀ r ∈ opcodeRowsShift, RowAgrees r := by
  simp only [opcodeRowsShift, List.forall_mem_cons]
  exact ⟨rowAgrees_of_format [], rowAgrees_of_format [], rowAgrees_of_format [], rowAgrees_of_format [],
    rowAgrees_of_format [(20, 1), (16, 1)], rowAgrees_of_format [(20, 1), (16, 1)],
    rowAgrees_of_format [(20, 4), (0, 12)], rowAgrees_of_format [(0, 16)], rowAgrees_of_format [(0, 16)],
    List.forall_mem_nil _⟩

theorem rowAgrees_mod : ∀ r ∈ opcodeRowsMod, RowAgrees r := by
  simp only [opcodeRowsMod, List.forall_mem_cons]
  exact ⟨rowAgrees_of_format [], rowAgrees_of_format [(20, 4), (0, 16)], rowAgrees_of_format [(0, 16), (16, 1)],
    rowAgrees_of_format [(0, 16)], rowAgrees_of_format [(0, 12)], rowAgrees_of_format [(0, 16)],
    rowAgrees_of_format [(0, 8)], rowAgrees_of_format [(0, 8)], rowAgrees_of_format [(0, 12)], List.forall_mem_nil _⟩

theorem rowAgrees_of_mem {r : OpcodeRow} (h : r ∈ opcodeTable) : RowAgrees r := by
  simp only [opcodeTable, List.mem_append] at h
  obtain ((h | h) | h) | h := h
  · exact rowAgrees_moveAdd r h
  · exact rowAgrees_mulDiv r h
  · exact rowAgrees_shift r h
  · exact rowAgrees_mod r h

/-- The opcode byte names the row. -/
theorem eq_of_op_eq : ∀ r ∈ opcodeTable, ∀ q ∈ opcodeTable, r.op = q.op → r = q := by decide

theorem exists_row (i : Instr) : ∃ r ∈ opcodeTable, i.opcode = r.op ∧ i.mnemonic = r.name := by
  cases i <;>
    simp [opcodeTable, opcodeRowsMoveAdd, opcodeRowsMulDiv, opcodeRowsShift, opcodeRowsMod, Instr.opcode, Instr.mnemonic]

/-- Settles O3: a word that matches two rows decodes to one instruction, whose opcode byte is both rows'. -/
theorem decoderAgreesWithTheOpcodeTable : Obligations.DecoderAgreesWithTheOpcodeTable := by
  unfold Obligations.DecoderAgreesWithTheOpcodeTable
  refine ⟨fun w r hr => rowAgrees_of_mem hr w, fun w r hr q hq hwr hwq => ?_, fun w i hi => ?_⟩
  · obtain ⟨i, hi, hir, -⟩ := (rowAgrees_of_mem hr w).mp hwr
    obtain ⟨j, hj, hjq, -⟩ := (rowAgrees_of_mem hq w).mp hwq
    obtain rfl : i = j := Except.ok.inj (hi.symm.trans hj)
    exact eq_of_op_eq r hr q hq (hir.symm.trans hjq)
  · obtain ⟨r, hr, hop, hname⟩ := exists_row i
    exact ⟨r, hr, (rowAgrees_of_mem hr w).mpr ⟨i, hi, hop, hname⟩⟩

end Sys2Proof
end

section
/-! What a command and a step can end in, said once, and the invariants that follow: the block stays well formed (R21, R25 to
R27, R231), the fault latch stays true (R231, R235), and each field is written only by its writers (R24, R26 to R29). -/

namespace Sys2Proof.Machine

/-! ## The outcomes of a command -/

/-- The causes a command can raise in a block of `n` words: `ILLEGAL` exactly when it breaks its value constraint, else one
of its row of R231. -/
def Raises (i : Instr) (n : Nat) (c : Cause) : Prop :=
  (c = .illegal ∧ i.wellFormed n = false) ∨ (i.wellFormed n = true ∧ c ∈ causesOf i)

/-- What a command that completes does to the status register `f`: nothing, or it writes the flags of its row (R27). -/
inductive FlagWrite (i : Instr) (f : Status) : Status → Prop where
  | none : FlagWrite i f f
  | carry (b : Bool) (h : i.mnemonic ∈ ["ADDC", "ADDW", "SUBC", "SUBW", "WADD", "WSUB"]) : FlagWrite i f { f with c := b }
  | loss (b : Bool) (h : i.mnemonic ∈ ["SHLO", "SHRO"]) : FlagWrite i f { f with v := b }
  | compare (o : Ordering) (h : i.mnemonic ∈ ["CMP"]) : FlagWrite i f { f with eq := o == .eq, lt := o == .lt }
  | result (b : Bool) (h : i.mnemonic ∈ ["INV2K", "MPINIT"]) : FlagWrite i f { f with nr := b }

/-- The state a command leaves: the faulted state, its destinations and flags written, or the bank loaded. -/
inductive Ends (i : Instr) (s : State) : State → Prop where
  | faulted {c : Cause} (hc : Raises i s.words c) : Ends i s (Faulted s c (encode i))
  | written {t : State} {f : Status} (hw : Writes s t (destsOf i) f) (hf : FlagWrite i s.status f)
      (hlen : (∀ r, (s.reg r).length = s.words) → ∀ r, (t.reg r).length = s.words) : Ends i s t
  | loaded {a : Reg} {p : Bank} (hi : i = .mpinit a) (hp : mpInit s.words (s.reg a) = some p) :
      Ends i s ((s.loadBank p).setNr false)

/-- A meaning's outcome is a next state that the command can end in. -/
def Completes (i : Instr) (s : State) (r : Result) : Prop := ∃ t, r = .next t ∧ Ends i s t

/-- R67, R236: the value constraint is checked first. -/
theorem completes_constraint {i : Instr} {s : State} {r : Result} {p : Prop} [Decidable p]
    (hwf : i.wellFormed s.words = false ↔ p) (h : i.wellFormed s.words = true → Completes i s r) :
    Completes i s (if p then faultWith i .illegal s else r) := by
  split
  · next hp => exact ⟨_, rfl, .faulted (.inl ⟨rfl, hwf.mpr hp⟩)⟩
  · next hp => exact h (Bool.eq_true_of_not_eq_false (hwf.not.mpr hp))

/-- R236: then the command's own rule. -/
theorem completes_check {i : Instr} {s : State} {r : Result} {p : Prop} [Decidable p] {c : Cause}
    (hwf : i.wellFormed s.words = true) (hc : c ∈ causesOf i) (h : Completes i s r) :
    Completes i s (if p then faultWith i c s else r) := by
  split
  · exact ⟨_, rfl, .faulted (.inr ⟨hwf, hc⟩)⟩
  · exact h

/-! ## Register writes of values of the block's width -/

theorem length_reg_setReg {s : State} {n : Nat} (hs : ∀ r, (s.reg r).length = n) (d : Reg) {v : Fixed} (hv : v.length = n)
    (r : Reg) : ((s.setReg d v).reg r).length = n := by
  rw [State.reg_setReg]
  split
  · exact hv
  · exact hs r

theorem length_reg_setPair {s : State} {n : Nat} (hs : ∀ r, (s.reg r).length = n) (d : Pair) {x : Wide}
    (hl : x.1.length = n) (hh : x.2.length = n) (r : Reg) : ((s.setPair d x).reg r).length = n :=
  length_reg_setReg (length_reg_setReg hs (pairLo d) hl) (pairHi d) hh r

section
variable {i : Instr} {s : State} {d : Reg} {v : Fixed} {f : Status}

theorem completes_setReg (hd : destsOf i = [d]) (hf : FlagWrite i s.status f)
    (hv : (∀ r, (s.reg r).length = s.words) → v.length = s.words) :
    Completes i s (.next { s.setReg d v with status := f }) := by
  refine ⟨_, rfl, .written (f := f) ?_ hf fun hs => length_reg_setReg hs d (hv hs)⟩
  rw [hd]
  exact (writes_setReg s d v).withStatus f

theorem completes_setPair {d : Pair} {x : Wide} (hd : destsOf i = [pairLo d, pairHi d]) (hf : FlagWrite i s.status f)
    (hl : x.1.length = s.words) (hh : x.2.length = s.words) :
    Completes i s (.next { s.setPair d x with status := f }) := by
  refine ⟨_, rfl, .written (f := f) ?_ hf fun hs => length_reg_setPair hs d hl hh⟩
  rw [hd]
  exact (writes_setPair s d x).withStatus f

/-- No register written: the flags alone. -/
theorem completes_flags (hf : FlagWrite i s.status f) : Completes i s (.next { s with status := f }) :=
  ⟨_, rfl, .written (f := f) ⟨fun _ _ => rfl, rfl, rfl, rfl, rfl, rfl, rfl, rfl⟩ hf fun hs => hs⟩

end

/-! ## The value constraints (R67) -/

theorem wellFormed_divrem_eq_false {n : Nat} {d c a b : Reg} : (Instr.divrem d c a b).wellFormed n = false ↔ d = c :=
  bne_eq_false_iff_eq

theorem wellFormed_wdivrem_eq_false {n : Nat} {d : Pair} {c : Reg} {a : Pair} {b : Reg} :
    (Instr.wdivrem d c a b).wellFormed n = false ↔ c = pairLo d ∨ c = pairHi d := by
  simp [Instr.wellFormed, pairLo, pairHi, Fin.ext_iff, or_iff_not_imp_left]

theorem wellFormed_inv2k_eq_false {n : Nat} {d a : Reg} {imm : Imm} :
    (Instr.inv2k d a imm).wellFormed n = false ↔ imm.toNat = 0 ∨ imm.toNat > bitsOf n := by
  simp only [Instr.wellFormed, Bool.and_eq_false_iff, decide_eq_false_iff_not, bitsOf]
  omega

/-! ## Every command -/

theorem length_of_inv2k {n k : Nat} {a x : Fixed} (h : inv2k n a k = some x) : x.length = n := by
  unfold inv2k at h
  split at h
  · obtain rfl := Option.some.inj h
    exact length_fix _ _
  · cases h

theorem length_wideOfWords {n : Nat} {ws : Fixed} (h : ws.length = 2 * n) :
    (wideOfWords n ws).1.length = n ∧ (wideOfWords n ws).2.length = n := by
  obtain ⟨hl, hh, -⟩ := Holds.wideOfWords ⟨h, rfl⟩
  exact ⟨hl, hh⟩

theorem length_modExpLoop {n : Nat} (base e m : Fixed) (i : Nat) {acc : Fixed} (h : acc.length = n) :
    (modExpLoop n base e m i acc).length = n := by
  induction i generalizing acc with
  | zero => exact h
  | succ i ih =>
    refine ih ?_
    split <;> exact length_fix _ _

theorem completes_inv2k (d a : Reg) (imm : Imm) (s : State) :
    Completes (.inv2k d a imm) s (exec (.inv2k d a imm) s) := by
  refine completes_constraint wellFormed_inv2k_eq_false fun _ => ?_
  cases hx : inv2k s.words (s.reg a) imm.toNat with
  | none => exact completes_flags (.result true (by simp [Instr.mnemonic]))
  | some x => exact completes_setReg rfl (.result false (by simp [Instr.mnemonic])) fun _ => length_of_inv2k hx

theorem completes_mpinit (a : Reg) (s : State) : Completes (.mpinit a) s (exec (.mpinit a) s) := by
  simp only [exec, execMpinit]
  cases hp : mpInit s.words (s.reg a) with
  | none => exact completes_flags (.result true (by simp [Instr.mnemonic]))
  | some p => exact ⟨_, rfl, .loaded rfl hp⟩

/-- A divide command with two destinations: the quotient, then the remainder in another register. -/
theorem completes_setReg_setReg {i : Instr} {s : State} {d c : Reg} {q r : Fixed} (hd : destsOf i = [d, c])
    (hq : q.length = s.words) (hr : r.length = s.words) :
    Completes i s (.next ((s.setReg d q).setReg c r)) := by
  refine ⟨_, rfl, .written (f := s.status) ?_ .none fun hs => length_reg_setReg (length_reg_setReg hs d hq) c hr⟩
  rw [hd]
  exact (writes_setReg s d q).setReg c r

theorem completes_setPair_setReg {i : Instr} {s : State} {d : Pair} {c : Reg} {q : Wide} {r : Fixed}
    (hd : destsOf i = [pairLo d, pairHi d, c]) (hl : q.1.length = s.words) (hh : q.2.length = s.words)
    (hr : r.length = s.words) : Completes i s (.next ((s.setPair d q).setReg c r)) := by
  refine ⟨_, rfl, .written (f := s.status) ?_ .none fun hs => length_reg_setReg (length_reg_setPair hs d hl hh) c hr⟩
  rw [hd]
  exact (writes_setPair s d q).setReg c r

/-- R69: the outcome of every command, by the checks it makes and the registers and flags it writes. -/
theorem exec_completes (i : Instr) (s : State) : Completes i s (exec i s) := by
  cases i with
  | mov d a => exact completes_setReg rfl .none fun hs => hs a
  | ldi | clz | blen => exact completes_setReg rfl .none fun _ => length_zext _ _
  | mulw => exact completes_setReg rfl .none fun _ => length_wide_fst _ _
  | shlw => exact completes_setReg rfl .none fun _ => length_seqShl _ _ _
  | shrw => exact completes_setReg rfl .none fun _ => length_seqShr _ _ _
  | addw | subw => exact completes_setReg rfl (.carry _ (by simp [Instr.mnemonic])) fun _ => length_fix _ _
  | shlo => exact completes_setReg rfl (.loss _ (by simp [Instr.mnemonic])) fun _ => length_seqShl _ _ _
  | shro => exact completes_setReg rfl (.loss _ (by simp [Instr.mnemonic])) fun _ => length_seqShr _ _ _
  | wadd | wsub =>
    exact completes_setPair rfl (.carry _ (by simp [Instr.mnemonic])) (length_wide_fst _ _) (length_wide_snd _ _)
  | mulx => exact completes_setPair rfl .none (length_wide_fst _ _) (length_wide_snd _ _)
  | wshl =>
    obtain ⟨hl, hh⟩ := length_wideOfWords (length_seqShl _ _ _)
    exact completes_setPair rfl .none hl hh
  | wshr =>
    obtain ⟨hl, hh⟩ := length_wideOfWords (length_seqShr _ _ _)
    exact completes_setPair rfl .none hl hh
  | cmp => exact completes_flags (.compare _ (by simp [Instr.mnemonic]))
  | addc | subc =>
    exact completes_check rfl (by simp [causesOf]) <|
      completes_setReg rfl (.carry _ (by simp [Instr.mnemonic])) fun _ => length_fix _ _
  | mulc => exact completes_check rfl (by simp [causesOf]) <| completes_setReg rfl .none fun _ => length_wide_fst _ _
  | div | rem | wrem | mulmod =>
    exact completes_check rfl (by simp [causesOf]) <| completes_setReg rfl .none fun _ => length_fix _ _
  | wdiv =>
    exact completes_check rfl (by simp [causesOf]) <|
      completes_setPair rfl .none (length_wide_fst _ _) (length_wide_snd _ _)
  | divrem =>
    exact completes_constraint wellFormed_divrem_eq_false fun hwf => completes_check hwf (by simp [causesOf]) <|
      completes_setReg_setReg rfl (length_fix _ _) (length_fix _ _)
  | wdivrem =>
    exact completes_constraint wellFormed_wdivrem_eq_false fun hwf => completes_check hwf (by simp [causesOf]) <|
      completes_setPair_setReg rfl (length_wide_fst _ _) (length_wide_snd _ _) (length_fix _ _)
  | redc | tomont | mmul | frommont | mexpm =>
    exact completes_check rfl (by simp [causesOf]) <| completes_setReg rfl .none fun _ => length_redc _ _ _
  | modexp =>
    exact completes_check rfl (by simp [causesOf]) <|
      completes_setReg rfl .none fun _ => length_modExpLoop _ _ _ _ (length_fix _ _)
  | inv2k d a imm => exact completes_inv2k d a imm s
  | mpinit a => exact completes_mpinit a s

/-! ## What a step can do -/

/-- The state a step leaves: one transaction of the host, or none (R49). -/
inductive StepEnds (s : State) : State → Prop where
  | idle (h : s.pending = []) : StepEnds s s
  | ignored (rest : List Transaction) (hf : s.status.fault = true) : StepEnds s { s with pending := rest }
  | read (addr : PortAddr) (rest : List Transaction) : StepEnds s (hostRead addr { s with pending := rest })
  | written (addr : PortAddr) (v : Word) (rest : List Transaction) (hf : s.status.fault = false) :
      StepEnds s (writeData { s with pending := rest } addr v)
  | issued {w : Command} {rest : List Transaction} {t : State} (hf : s.status.fault = false)
      (hp : s.pending = .issue w :: rest ∨ ∃ v : Word, v.setWidth 32 = w ∧ s.pending = .write 0xC000 v :: rest)
      (ht : issue w { s with pending := rest } = .next t) : StepEnds s t
  | reset {rest : List Transaction} (hp : s.pending = .reset :: rest) : StepEnds s { s with pending := rest }.resetBlock

theorem stepEnds_of_issue {s t : State} {w : Command} {rest : List Transaction}
    (hp : s.pending = .issue w :: rest ∨ ∃ v : Word, v.setWidth 32 = w ∧ s.pending = .write 0xC000 v :: rest)
    (ht : issue w { s with pending := rest } = .next t) : StepEnds s t := by
  cases hf : s.status.fault with
  | true =>
    rw [issue_of_faulted (s := { s with pending := rest }) hf] at ht
    cases ht
    exact .ignored rest hf
  | false => exact .issued hf hp ht

theorem stepEnds_of_write {s t : State} {addr : PortAddr} {v : Word} {rest : List Transaction}
    (hp : s.pending = .write addr v :: rest) (ht : portWrite addr v { s with pending := rest } = .next t) :
    StepEnds s t := by
  by_cases ha : addr = cmdPort
  · subst ha
    rw [portWrite_cmd] at ht
    exact stepEnds_of_issue (.inr ⟨v, rfl, hp⟩) ht
  cases hf : s.status.fault with
  | true =>
    rw [portWrite_of_faulted (s := { s with pending := rest }) hf] at ht
    cases ht
    exact .ignored rest hf
  | false =>
    rw [portWrite_of_ne_cmd (s := { s with pending := rest }) hf ha] at ht
    cases ht
    exact .written addr v rest hf

theorem step_ends {s t : State} (h : step s = .next t) : StepEnds s t := by
  cases hp : s.pending with
  | nil =>
    rw [step_of_no_transaction hp] at h
    cases h
    exact .idle hp
  | cons tr rest =>
    rw [step_of_transaction hp] at h
    cases tr with
    | read addr =>
      cases h
      exact .read addr rest
    | write addr v => exact stepEnds_of_write hp h
    | issue w => exact stepEnds_of_issue (.inl hp) h
    | reset =>
      cases h
      exact .reset hp

/-- R67, R69: an issue in a block that has not faulted. -/
theorem issue_ends {s t : State} {w : Command} (hf : s.status.fault = false) (h : issue w s = .next t) :
    (t = Faulted s .illegal w ∧ IllegalWord s.words w) ∨ ∃ i, decode w = .ok i ∧ Ends i s t := by
  cases hd : decode w with
  | error e =>
    rw [issue_of_undecoded hf hd] at h
    cases h
    exact .inl ⟨rfl, illegalWord_iff.mpr (.inl ⟨e, hd⟩)⟩
  | ok i =>
    rw [issue_of_decoded hf hd] at h
    obtain ⟨t', ht', hends⟩ := exec_completes i s
    cases h.symm.trans ht'
    exact .inr ⟨i, rfl, hends⟩

theorem exec_ends {i : Instr} {s t : State} (h : exec i s = .next t) : Ends i s t := by
  obtain ⟨t', ht', hends⟩ := exec_completes i s
  cases h.symm.trans ht'
  exact hends

/-- R49: what every transaction keeps, every step keeps. -/
theorem step_keeps {P : State → Prop} {s t : State}
    (hpending : ∀ rest, P { s with pending := rest })
    (hread : ∀ s addr, P s → P (hostRead addr s))
    (hwrite : ∀ s addr v, P s → P (writeData s addr v))
    (hreset : ∀ s, P s → P s.resetBlock)
    (hissue : ∀ s t w, P s → s.status.fault = false → issue w s = .next t → P t)
    (hs : P s) (h : step s = .next t) : P t := by
  cases step_ends h with
  | idle => exact hs
  | ignored rest => exact hpending rest
  | read addr rest => exact hread _ addr (hpending rest)
  | written addr v rest => exact hwrite _ addr v (hpending rest)
  | @issued w rest t hf _ ht => exact hissue _ _ w (hpending rest) hf ht
  | reset => exact hreset _ (hpending _)

end Sys2Proof.Machine
end

section
/-! The invariants of the block and of the fault latch, and the rules about who writes what, from the outcomes of commands
and steps. -/

namespace Sys2Proof.Machine

/-! ## Flags -/

section
variable {i : Instr} {f g : Status}

theorem FlagWrite.latch (h : FlagWrite i f g) : g.mpv = f.mpv ∧ g.fault = f.fault ∧ g.cause = f.cause := by
  cases h <;> exact ⟨rfl, rfl, rfl⟩

/-- R29: one comparison cannot find both. -/
theorem FlagWrite.compareFlags (h : FlagWrite i f g) (hf : (f.eq && f.lt) = false) : (g.eq && g.lt) = false := by
  cases h with
  | none | carry | loss | result => exact hf
  | compare o => cases o <;> rfl

theorem FlagWrite.c_eq (h : FlagWrite i f g) (hi : i.mnemonic ∉ ["ADDC", "ADDW", "SUBC", "SUBW", "WADD", "WSUB"]) :
    g.c = f.c := by
  cases h with
  | carry b hb => exact absurd hb hi
  | none | loss | compare | result => rfl

theorem FlagWrite.v_eq (h : FlagWrite i f g) (hi : i.mnemonic ∉ ["SHLO", "SHRO"]) : g.v = f.v := by
  cases h with
  | loss b hb => exact absurd hb hi
  | none | carry | compare | result => rfl

theorem FlagWrite.compare_eq (h : FlagWrite i f g) (hi : i.mnemonic ∉ ["CMP"]) : g.eq = f.eq ∧ g.lt = f.lt := by
  cases h with
  | compare o ho => exact absurd ho hi
  | none | carry | loss | result => exact ⟨rfl, rfl⟩

theorem FlagWrite.nr_eq (h : FlagWrite i f g) (hi : i.mnemonic ∉ ["INV2K", "MPINIT"]) : g.nr = f.nr := by
  cases h with
  | result b hb => exact absurd hb hi
  | none | carry | loss | compare => rfl

end

/-! ## The block stays well formed -/

theorem mpInit_lengths {n : Nat} {x : Fixed} {p : Bank} (h : mpInit n x = some p) :
    p.n = x ∧ p.r1.length = n ∧ p.r2.length = n ∧ p.ninv.length = n := by
  unfold mpInit at h
  split at h
  · cases hinv : inv2k n x (bitsOf n) with
    | none => simp [hinv] at h
    | some inv =>
      simp only [hinv, Option.some.injEq] at h
      subst h
      exact ⟨rfl, length_fix _ _, length_fix _ _, length_fix _ _⟩
  · cases h

/-- A change of the registers, the compare flags and what `Wf` does not speak of. -/
theorem State.Wf.of_frame {s t : State} (hs : s.Wf) (hwords : t.words = s.words)
    (hregs : ∀ r, (t.reg r).length = s.words) (hmp : t.mp = s.mp) (hmpv : t.status.mpv = s.status.mpv)
    (hfault : t.status.fault = s.status.fault) (hcause : t.status.cause = s.status.cause) (hfcmd : t.fcmd = s.fcmd)
    (hcompare : (t.status.eq && t.status.lt) = false) : t.Wf where
  minWidth := hwords ▸ hs.minWidth
  maxWidth := hwords ▸ hs.maxWidth
  regLength := hwords ▸ hregs
  nLength := hwords ▸ hmp ▸ hs.nLength
  r1Length := hwords ▸ hmp ▸ hs.r1Length
  r2Length := hwords ▸ hmp ▸ hs.r2Length
  ninvLength := hwords ▸ hmp ▸ hs.ninvLength
  bankValid := by rw [hmpv, hwords, hmp]; exact hs.bankValid
  causeAssigned := hcause ▸ hs.causeAssigned
  causeZero := by rw [hfault, hcause]; exact hs.causeZero
  causeNonzero := by rw [hfault, hcause]; exact hs.causeNonzero
  fcmdZero := by rw [hfault, hfcmd]; exact hs.fcmdZero
  compareFlags := hcompare

theorem State.Wf.withPending {s : State} (hs : s.Wf) (rest : List Transaction) : State.Wf { s with pending := rest } :=
  hs.of_frame rfl hs.regLength rfl rfl rfl rfl rfl hs.compareFlags

theorem State.Wf.hostRead {s : State} (hs : s.Wf) (addr : PortAddr) : (hostRead addr s).Wf :=
  hs.of_frame rfl hs.regLength rfl rfl rfl rfl rfl hs.compareFlags

theorem State.Wf.writeData {s : State} (hs : s.Wf) (addr : PortAddr) (v : Word) : (writeData s addr v).Wf := by
  unfold Machine.writeData
  split
  · refine hs.of_frame rfl (length_reg_setReg hs.regLength _ ?_) rfl rfl rfl rfl rfl hs.compareFlags
    rw [List.length_set]
    exact hs.regLength _
  · exact hs

theorem words_writeData (s : State) (addr : PortAddr) (v : Word) : (writeData s addr v).words = s.words := by
  unfold writeData
  split <;> rfl

/-- R231: the codes are 1 to 5. -/
theorem code_assigned (c : Cause) : c.code.toNat ≤ 5 ∧ c.code ≠ 0 := by
  cases c <;> decide

theorem State.Wf.faulted {s : State} (hs : s.Wf) (c : Cause) (cmd : Command) : (Faulted s c cmd).Wf where
  minWidth := hs.minWidth
  maxWidth := hs.maxWidth
  regLength := hs.regLength
  nLength := hs.nLength
  r1Length := hs.r1Length
  r2Length := hs.r2Length
  ninvLength := hs.ninvLength
  bankValid := hs.bankValid
  causeAssigned := (code_assigned c).1
  causeZero h := Bool.noConfusion h
  causeNonzero _ := (code_assigned c).2
  fcmdZero h := Bool.noConfusion h
  compareFlags := hs.compareFlags

theorem State.Wf.loadBank {s : State} (hs : s.Wf) {x : Fixed} (hx : x.length = s.words) {p : Bank}
    (hp : mpInit s.words x = some p) : ((s.loadBank p).setNr false).Wf := by
  obtain ⟨hn, hr1, hr2, hninv⟩ := mpInit_lengths hp
  exact { hs with
    nLength := hn ▸ hx
    r1Length := hr1
    r2Length := hr2
    ninvLength := hninv
    bankValid := fun _ => hn ▸ hp }

theorem State.Wf.resetBlock {s : State} (hs : s.Wf) : s.resetBlock.Wf := by
  obtain ⟨hn, hr1, hr2, hninv⟩ := length_resetBlock_mp s
  have hwords : s.resetBlock.words = s.words := State.resetBlock_words s
  exact {
    minWidth := hs.minWidth.trans_eq hwords.symm
    maxWidth := hwords.trans_le hs.maxWidth
    regLength := by simp
    nLength := hn.trans hwords.symm
    r1Length := hr1.trans hwords.symm
    r2Length := hr2.trans hwords.symm
    ninvLength := hninv.trans hwords.symm
    bankValid := by simp [Status.reset]
    causeAssigned := by simp [Status.reset]
    causeZero := by simp [Status.reset]
    causeNonzero := by simp [Status.reset]
    fcmdZero := by simp
    compareFlags := by simp [Status.reset] }

theorem Ends.words_eq {i : Instr} {s t : State} (h : Ends i s t) : t.words = s.words := by
  cases h with
  | faulted | loaded => rfl
  | written hw => exact hw.words

/-- Every command keeps the block well formed. -/
theorem Ends.wf {i : Instr} {s t : State} (h : Ends i s t) (hs : s.Wf) : t.Wf := by
  cases h with
  | faulted => exact hs.faulted _ _
  | @written _ f hw hf hlen =>
    obtain ⟨hmpv, hfault, hcause⟩ := hf.latch
    rw [← hw.status] at hmpv hfault hcause
    refine hs.of_frame hw.words (hw.words ▸ hlen hs.regLength) hw.mp hmpv hfault hcause hw.fcmd ?_
    rw [hw.status]
    exact hf.compareFlags hs.compareFlags
  | loaded _ hp => exact hs.loadBank (hs.regLength _) hp

theorem wf_of_issue {s t : State} {w : Command} (hs : s.Wf) (hf : s.status.fault = false) (h : issue w s = .next t) :
    t.Wf ∧ t.words = s.words := by
  obtain ⟨rfl, -⟩ | ⟨i, -, hends⟩ := issue_ends hf h
  · exact ⟨hs.faulted _ _, rfl⟩
  · exact ⟨hends.wf hs, hends.words_eq⟩

/-- Settles O15, transaction by transaction. -/
theorem everyStepKeepsTheBlockWellFormed : Obligations.EveryStepKeepsTheBlockWellFormed := by
  unfold Obligations.EveryStepKeepsTheBlockWellFormed
  intro s t hs h
  refine step_keeps (P := fun u => u.Wf ∧ u.words = s.words) (fun rest => ⟨hs.withPending rest, rfl⟩)
    (fun u addr hu => ⟨hu.1.hostRead addr, hu.2⟩)
    (fun u addr v hu => ⟨hu.1.writeData addr v, (words_writeData u addr v).trans hu.2⟩)
    (fun u hu => ⟨hu.1.resetBlock, (State.resetBlock_words u).trans hu.2⟩) (fun u u' w hu hf hi => ?_) ⟨hs, rfl⟩ h
  obtain ⟨hwf, hwords⟩ := wf_of_issue hu.1 hf hi
  exact ⟨hwf, hwords.trans hu.2⟩

/-! ## The fault latch stays true -/

theorem FaultRecord.of_latch {s t : State} (hs : FaultRecord s) (hwords : t.words = s.words)
    (hfault : t.status.fault = s.status.fault) (hcause : t.status.cause = s.status.cause) (hfcmd : t.fcmd = s.fcmd) :
    FaultRecord t := by
  unfold FaultRecord at *
  rwa [hwords, hfault, hcause, hfcmd]

/-- The word recorded is the command's own, which decodes to the command. -/
theorem faultRecord_of_raises {i : Instr} {s : State} {c : Cause} (h : Raises i s.words c) :
    FaultRecord (Faulted s c (encode i)) := by
  intro _
  refine ⟨c, rfl, ?_⟩
  obtain ⟨rfl, hwf⟩ | ⟨hwf, hc⟩ := h
  · exact .inl ⟨rfl, illegalWord_iff.mpr (.inr ⟨i, decode_encode i, hwf⟩)⟩
  · exact .inr ⟨i, decode_encode i, hwf, hc⟩

theorem Ends.faultRecord {i : Instr} {s t : State} (h : Ends i s t) (hs : FaultRecord s) : FaultRecord t := by
  cases h with
  | faulted hc => exact faultRecord_of_raises hc
  | written hw hf =>
    obtain ⟨-, hfault, hcause⟩ := hf.latch
    rw [← hw.status] at hfault hcause
    exact hs.of_latch hw.words hfault hcause hw.fcmd
  | loaded => exact hs.of_latch rfl rfl rfl rfl

theorem faultRecord_of_issue {s t : State} {w : Command} (hs : FaultRecord s) (hf : s.status.fault = false)
    (h : issue w s = .next t) : FaultRecord t := by
  obtain ⟨rfl, hw⟩ | ⟨i, -, hends⟩ := issue_ends hf h
  · exact fun _ => ⟨.illegal, rfl, .inl ⟨rfl, hw⟩⟩
  · exact hends.faultRecord hs

theorem FaultRecord.writeData {s : State} (hs : FaultRecord s) (addr : PortAddr) (v : Word) :
    FaultRecord (writeData s addr v) := by
  unfold Machine.writeData
  split
  · exact hs.of_latch rfl rfl rfl rfl
  · exact hs

theorem faultRecord_resetBlock (s : State) : FaultRecord s.resetBlock := by
  intro h
  simp [Status.reset] at h

/-- Settles O16: only an issue writes the latch, and what it writes is `Raises`' cause with the word issued; a reset clears
`FAULT`. -/
theorem everyStepKeepsTheFaultRecord : Obligations.EveryStepKeepsTheFaultRecord := by
  unfold Obligations.EveryStepKeepsTheFaultRecord
  intro s t hs h
  exact step_keeps (P := FaultRecord) (fun rest => hs.of_latch rfl rfl rfl rfl) (fun u addr hu => hu.of_latch rfl rfl rfl rfl)
    (fun u addr v hu => hu.writeData addr v) (fun u _ => faultRecord_resetBlock u)
    (fun u u' w => faultRecord_of_issue) hs h

/-! ## Who writes what -/

theorem writeData_bank (s : State) (addr : PortAddr) (v : Word) :
    (writeData s addr v).mp = s.mp ∧ (writeData s addr v).status.mpv = s.status.mpv := by
  unfold writeData
  split <;> exact ⟨rfl, rfl⟩

theorem Ends.bank {i : Instr} {s t : State} (h : Ends i s t) : (t.mp = s.mp ∧ t.status.mpv = s.status.mpv) ∨
    ∃ a, i = .mpinit a ∧ mpInit s.words (s.reg a) = some t.mp ∧ t.status.mpv = true := by
  cases h with
  | faulted => exact .inl ⟨rfl, rfl⟩
  | written hw hf => exact .inl ⟨hw.mp, (congrArg Status.mpv hw.status).trans hf.latch.1⟩
  | @loaded a p hi hp => exact .inr ⟨a, hi, hp, rfl⟩

/-- Settles O18: of the outcomes of a step, a reset and an issued `MPINIT` with a result write the bank. -/
theorem onlyMpinitAndResetWriteTheBank : Obligations.OnlyMpinitAndResetWriteTheBank := by
  unfold Obligations.OnlyMpinitAndResetWriteTheBank
  intro s t h
  cases step_ends h with
  | idle | ignored | read => exact .inl ⟨rfl, rfl⟩
  | written addr v rest => exact .inl (writeData_bank { s with pending := rest } addr v)
  | reset hp => exact .inr (.inl ⟨_, hp⟩)
  | @issued w rest t hf hp ht =>
    obtain ⟨rfl, -⟩ | ⟨i, hd, hends⟩ := issue_ends (s := { s with pending := rest }) hf ht
    · exact .inl ⟨rfl, rfl⟩
    · obtain hsame | ⟨a, rfl, hmp, hmpv⟩ := hends.bank
      · exact .inl hsame
      · exact .inr (.inr ⟨a, w, rest, hf, hd, hp, hmp, hmpv⟩)

/-- Settles O19: a faulted state keeps every flag, a completion writes those of its row. -/
theorem flagsAreWrittenOnlyByTheirCommands : Obligations.FlagsAreWrittenOnlyByTheirCommands := by
  unfold Obligations.FlagsAreWrittenOnlyByTheirCommands
  intro i s t hfault h
  cases exec_ends h with
  | faulted => exact ⟨fun _ => rfl, fun _ => rfl, fun _ => ⟨rfl, rfl⟩, fun _ => rfl, fun _ => rfl⟩
  | @written _ f hw hf hlen =>
    obtain ⟨hmpv, hfault', -⟩ := hf.latch
    have hnot : ¬ f.fault = true := by rw [hfault', hfault]; decide
    rw [hw.status]
    exact ⟨fun hi => hf.c_eq (hi.resolve_right hnot), fun hi => hf.v_eq (hi.resolve_right hnot),
      fun hi => hf.compare_eq (hi.resolve_right hnot), fun hi => hf.nr_eq (hi.resolve_right hnot), fun _ => hmpv⟩
  | loaded hi hp =>
    subst hi
    have hnot : ¬ s.status.fault = true := by rw [hfault]; decide
    refine ⟨fun _ => rfl, fun _ => rfl, fun _ => ⟨rfl, rfl⟩, fun hi => ?_, fun hi => ?_⟩
    · exact absurd (hi.resolve_right hnot) (by simp [Instr.mnemonic])
    · exact absurd (hi.resolve_right hnot) (by simp [Instr.mnemonic])

/-- Settles O20: the frame of each outcome of a command. -/
theorem onlyDestinationsChangeAmongRegisters : Obligations.OnlyDestinationsChangeAmongRegisters := by
  unfold Obligations.OnlyDestinationsChangeAmongRegisters
  intro i s t h
  cases exec_ends h with
  | faulted | loaded => exact ⟨fun _ _ => rfl, rfl, rfl, rfl, rfl⟩
  | written hw => exact ⟨hw.regs, hw.words, hw.pending, hw.replies, hw.resets⟩

/-- Settles O21: a legal command without causes of its own has none to raise. -/
theorem commandsOutsideTheCauseTableNeverFault : Obligations.CommandsOutsideTheCauseTableNeverFault := by
  unfold Obligations.CommandsOutsideTheCauseTableNeverFault
  intro i s hi hwf
  obtain ⟨t, ht, hends⟩ := exec_completes i s
  refine ⟨t, ht, ?_⟩
  cases hends with
  | faulted hc =>
    obtain ⟨-, hnot⟩ | ⟨-, hmem⟩ := hc
    · simp [hwf] at hnot
    · simp [hi] at hmem
  | written hw hf =>
    obtain ⟨-, hfault, hcause⟩ := hf.latch
    rw [hw.status]
    exact ⟨hfault, hcause, hw.fcmd⟩
  | loaded => exact ⟨rfl, rfl, rfl⟩

end Sys2Proof.Machine
end

section
/-! Proofs about single steps and control words: the layouts of `STATUS`, `FCMD` and `CONFIG` (R27, R30, R31), the state after
reset, and that every step answers (R260). -/

namespace Sys2Proof.Machine

/-! ## Control words (R27, R30, R31) -/

theorem toNat_toWord (f : Status) : f.toWord.toNat = f.c.toNat + 2 ^ 1 * f.v.toNat + 2 ^ 2 * f.eq.toNat +
    2 ^ 3 * f.lt.toNat + 2 ^ 4 * f.nr.toNat + 2 ^ 5 * f.mpv.toNat + 2 ^ 8 * f.fault.toNat + 2 ^ 12 * f.cause.toNat := by
  have hcause := f.cause.isLt
  rw [Status.toWord, BitVec.toNat_ofNat, Nat.mod_eq_of_lt]
  have := Bool.toNat_le f.c
  have := Bool.toNat_le f.v
  have := Bool.toNat_le f.eq
  have := Bool.toNat_le f.lt
  have := Bool.toNat_le f.nr
  have := Bool.toNat_le f.mpv
  have := Bool.toNat_le f.fault
  omega

theorem getLsbD_eq_iff {w : Word} {i : Nat} {b : Bool} : w.getLsbD i = b ↔ w.toNat / 2 ^ i % 2 = b.toNat := by
  rw [← BitVec.testBit_toNat, Nat.testBit_eq_decide_div_mod_eq]
  cases b <;> simp

theorem extractLsb'_eq_iff {w : Word} {lo len : Nat} {x : BitVec len} :
    w.extractLsb' lo len = x ↔ w.toNat / 2 ^ lo % 2 ^ len = x.toNat := by
  rw [← BitVec.toNat_inj, BitVec.extractLsb'_toNat, Nat.shiftRight_eq_div_pow]

theorem statusLayout (f : Status) :
    f.toWord.getLsbD 0 = f.c ∧ f.toWord.getLsbD 1 = f.v ∧ f.toWord.getLsbD 2 = f.eq ∧ f.toWord.getLsbD 3 = f.lt ∧
    f.toWord.getLsbD 4 = f.nr ∧ f.toWord.getLsbD 5 = f.mpv ∧ f.toWord.extractLsb' 6 2 = 0 ∧
    f.toWord.getLsbD 8 = f.fault ∧ f.toWord.extractLsb' 9 3 = 0 ∧ f.toWord.extractLsb' 12 4 = f.cause ∧
    f.toWord.extractLsb' 16 48 = 0 := by
  have hcause := f.cause.isLt
  have hc := Bool.toNat_le f.c
  have hv := Bool.toNat_le f.v
  have heq := Bool.toNat_le f.eq
  have hlt := Bool.toNat_le f.lt
  have hnr := Bool.toNat_le f.nr
  have hmpv := Bool.toNat_le f.mpv
  have hfault := Bool.toNat_le f.fault
  simp only [getLsbD_eq_iff, extractLsb'_eq_iff, toNat_toWord, BitVec.ofNat_eq_ofNat, BitVec.toNat_ofNat]
  refine ⟨?_, ?_, ?_, ?_, ?_, ?_, ?_, ?_, ?_, ?_, ?_⟩ <;> omega

theorem fcmdLayout (cmd : Command) :
    (fcmdWord cmd).extractLsb' 0 32 = cmd ∧ (fcmdWord cmd).extractLsb' 32 32 = 0 := by
  have hcmd := cmd.isLt
  have hword : (fcmdWord cmd).toNat = cmd.toNat := by
    rw [fcmdWord, BitVec.zeroExtend, BitVec.toNat_setWidth, Nat.mod_eq_of_lt (by omega)]
  simp only [extractLsb'_eq_iff, hword, BitVec.ofNat_eq_ofNat, BitVec.toNat_ofNat]
  constructor <;> omega

theorem configLayout {n : Nat} (hn : n ≤ 1023) :
    (configWord n).extractLsb' 0 16 = BitVec.ofNat 16 n ∧ (configWord n).extractLsb' 16 8 = 64 ∧
    (configWord n).extractLsb' 24 8 = 16 ∧ (configWord n).extractLsb' 32 32 = 0 := by
  have hword : (configWord n).toNat = n + 2 ^ 16 * 64 + 2 ^ 24 * 16 := by
    rw [configWord, Config.wordBits, Config.numRegs, BitVec.toNat_ofNat]
    omega
  simp only [extractLsb'_eq_iff, hword, BitVec.ofNat_eq_ofNat, BitVec.toNat_ofNat]
  refine ⟨?_, ?_, ?_, ?_⟩ <;> omega

/-- Settles O12. -/
theorem controlWordLayouts : Obligations.ControlWordLayouts := by
  unfold Obligations.ControlWordLayouts
  exact ⟨statusLayout, fcmdLayout, fun n => configLayout⟩

/-! ## Steps -/

/-- Settles O5: a write to `CMD` is the issue of its low half, and an issue runs what the word decodes to. -/
theorem stepRunsTheDecodedInstruction : Obligations.StepRunsTheDecodedInstruction := by
  unfold Obligations.StepRunsTheDecodedInstruction
  intro s w i rest hf hd
  have hissue : issue w { s with pending := rest } = exec i { s with pending := rest } :=
    issue_of_decoded (s := { s with pending := rest }) hf hd
  refine ⟨fun hp => (step_of_issue hp).trans hissue, ?_⟩
  rintro v rfl hp
  exact (step_write_cmd hp).trans hissue

/-- Settles O7: the three meanings with a value constraint test it first. -/
theorem brokenValueConstraintFaults : Obligations.BrokenValueConstraintFaults := by
  unfold Obligations.BrokenValueConstraintFaults
  exact fun i s => exec_of_not_wellFormed

theorem exists_next_of_issue (w : Command) (s : State) : ∃ t, issue w s = .next t := by
  cases hf : s.status.fault with
  | true => exact ⟨s, issue_of_faulted hf w⟩
  | false =>
    cases hd : decode w with
    | error e => exact ⟨_, issue_of_undecoded hf hd⟩
    | ok i =>
      obtain ⟨t, ht, -⟩ := exec_completes i s
      exact ⟨t, (issue_of_decoded hf hd).trans ht⟩

theorem exists_next_of_portWrite (addr : PortAddr) (v : Word) (s : State) : ∃ t, portWrite addr v s = .next t := by
  by_cases ha : addr = cmdPort
  · rw [ha, portWrite_cmd]
    exact exists_next_of_issue _ s
  · cases hf : s.status.fault with
    | true => exact ⟨s, portWrite_of_faulted hf addr v⟩
    | false => exact ⟨_, portWrite_of_ne_cmd hf ha v⟩

/-- Settles O17, transaction by transaction. -/
theorem everyStepAnswersAndIdleKeepsState : Obligations.EveryStepAnswersAndIdleKeepsState := by
  unfold Obligations.EveryStepAnswersAndIdleKeepsState
  refine ⟨fun s => ?_, fun s => step_of_no_transaction⟩
  cases hp : s.pending with
  | nil => exact ⟨s, step_of_no_transaction hp⟩
  | cons tr rest =>
    rw [step_of_transaction hp]
    cases tr with
    | read addr => exact ⟨_, rfl⟩
    | write addr v => exact exists_next_of_portWrite addr v _
    | issue w => exact exists_next_of_issue w _
    | reset => exact ⟨_, rfl⟩

/-! ## The state after reset -/

theorem wf_resetFor {n : Nat} (h1 : 1 ≤ n) (h2 : n ≤ 1023) : (State.resetFor n).Wf where
  minWidth := h1
  maxWidth := h2
  regLength r := by rw [State.reg_resetFor]; exact List.length_replicate
  nLength := List.length_replicate
  r1Length := List.length_replicate
  r2Length := List.length_replicate
  ninvLength := List.length_replicate
  bankValid h := Bool.noConfusion h
  causeAssigned := Nat.zero_le 5
  causeZero _ := rfl
  causeNonzero h := Bool.noConfusion h
  fcmdZero _ := rfl
  compareFlags := rfl

theorem faultRecord_resetFor (n : Nat) : FaultRecord (State.resetFor n) := fun h => Bool.noConfusion h

/-- Settles O14: `STATUS` and `FCMD` are zero; of the registers only their lengths are used. -/
theorem resetStateIsWellFormed : Obligations.ResetStateIsWellFormed := by
  unfold Obligations.ResetStateIsWellFormed
  refine ⟨fun n h1 h2 => ⟨toWord_reset, fcmdWord_zero, rfl, wf_resetFor h1 h2, faultRecord_resetFor n⟩, ?_, ?_⟩
  · exact wf_resetFor (by decide) (by decide)
  · exact faultRecord_resetFor _

end Sys2Proof.Machine
end

section
/-! Proofs of the add, subtract, multiply and compare commands (R97 to R102, R112 to R114, R151). -/

namespace Sys2Proof.Machine

/-! ## The outcomes that the commands share -/

section
variable {s : State} {i : Instr}

/-- A command that writes one register and the carry flag. -/
theorem exists_next_of_setReg_setC {d : Reg} {x : Fixed} {v : Nat} {b : Bool}
    (hexec : exec i s = .next ((s.setReg d x).setC b)) (hx : Holds s.words x v) :
    ∃ t, exec i s = .next t ∧ Holds s.words (t.reg d) v ∧ Writes s t [d] { s.status with c := b } := by
  refine ⟨_, hexec, ?_, (writes_setReg s d x).withStatus _⟩
  rwa [State.reg_setC, State.reg_setReg_self]

/-- A command that writes both halves of a pair and the carry flag. -/
theorem exists_next_of_setPair_setC {d : Pair} {x : Wide} {v : Nat} {b : Bool}
    (hexec : exec i s = .next ((s.setPair d x).setC b)) (hx : WHolds s.words x v) :
    ∃ t, exec i s = .next t ∧ WHolds s.words (t.pair d) v ∧
      Writes s t [pairLo d, pairHi d] { s.status with c := b } := by
  refine ⟨_, hexec, ?_, (writes_setPair s d x).withStatus _⟩
  have hpair : ((s.setPair d x).setC b).pair d = x := State.pair_setPair_self s d x
  rwa [hpair]

end

/-! ## Sums and differences (R90 to R93) -/

section
variable {n : Nat} {x y : Fixed}

theorem holds_fxAdd (n : Nat) (x y : Fixed) : Holds n (fxAdd n x y 0).1 ((val x + val y) % radix n) :=
  ⟨length_fxAdd .., val_fxAdd n x y 0⟩

theorem holds_fxAdd_of_lt (h : val x + val y < radix n) : Holds n (fxAdd n x y 0).1 (val x + val y) := by
  simpa only [Nat.mod_eq_of_lt h] using holds_fxAdd n x y

/-- R91: the difference modulo `RADIX`, as a natural number. -/
theorem holds_fxSub (n : Nat) (x y : Fixed) :
    Holds n (fxSub n x y 0).1 (((val x : Int) - val y) % (radix n : Int)).toNat := by
  have h := val_fxSub n x y 0
  rw [Nat.cast_zero, sub_zero] at h
  exact ⟨length_fxSub .., by rw [← h, Int.toNat_natCast]⟩

theorem holds_fxSub_of_le (hx : x.length = n) (h : val y ≤ val x) : Holds n (fxSub n x y 0).1 (val x - val y) := by
  have hlt := val_lt_of_length hx
  have hmod : ((val x : Int) - val y) % (radix n : Int) = (val x - val y : Nat) := by
    rw [Int.emod_eq_of_lt] <;> omega
  simpa only [hmod, Int.toNat_natCast] using holds_fxSub n x y

theorem carry_fxAdd_beq (hx : x.length = n) (hy : y.length = n) :
    ((fxAdd n x y 0).2 == 1) = decide (radix n ≤ val x + val y) :=
  decide_eq_decide.mpr (carry_fxAdd_eq_one hx hy)

theorem borrow_fxSub_beq (n : Nat) (x y : Fixed) : ((fxSub n x y 0).2 == 1) = decide (val x < val y) :=
  decide_eq_decide.mpr (borrow_fxSub_eq_one n x y)

end

section
variable {n : Nat} {x y : Wide}

/-- The final carry of `WADD` is 1 exactly when the sum does not fit (R101). -/
theorem carry_wideAdd_beq (hxl : x.1.length = n) (hxh : x.2.length = n) (hyl : y.1.length = n) (hyh : y.2.length = n) :
    ((wideAdd n x y).2 == 1) = decide (radix n ^ 2 ≤ wval n x + wval n y) := by
  have h1 := wval_lt hxl hxh
  have h2 := wval_lt hyl hyh
  have hle : (wval n x + wval n y) / radix n ^ 2 ≤ 1 := by
    rw [← Nat.lt_succ_iff, Nat.div_lt_iff_lt_mul (by omega)]
    omega
  have hpos := Nat.div_pos_iff (a := wval n x + wval n y) (b := radix n ^ 2)
  refine decide_eq_decide.mpr ?_
  rw [wideAdd]
  omega

theorem borrow_wideSub_beq (n : Nat) (x y : Wide) : ((wideSub n x y).2 == 1) = decide (wval n x < wval n y) := by
  refine decide_eq_decide.mpr ?_
  rw [wideSub]
  split <;> simp [*]

theorem wHolds_wideAdd (n : Nat) (x y : Wide) : WHolds n (wideAdd n x y).1 ((wval n x + wval n y) % radix n ^ 2) :=
  ⟨length_wide_fst .., length_wide_snd .., wval_wide ..⟩

/-- R93: the difference modulo `RADIX^2`, as a natural number. -/
theorem wHolds_wideSub (n : Nat) (x y : Wide) :
    WHolds n (wideSub n x y).1 (((wval n x : Int) - wval n y) % ((radix n) ^ 2 : Nat)).toNat := by
  have hpos : (0 : Int) < (radix n ^ 2 : Nat) := by exact_mod_cast Nat.pow_pos (radix_pos n)
  have hlt := Int.emod_lt_of_pos ((wval n x : Int) - wval n y) hpos
  exact wHolds_wide (by omega)

end

/-! ## The meanings -/

section
variable {s : State} {a b : Reg}

theorem exec_addc_of_lt (d : Reg) (ha : (s.reg a).length = s.words) (hb : (s.reg b).length = s.words)
    (h : val (s.reg a) + val (s.reg b) < radix s.words) :
    exec (.addc d a b) s = .next ((s.setReg d (fxAdd s.words (s.reg a) (s.reg b) 0).1).setC false) :=
  if_neg ((carry_fxAdd_eq_one ha hb).not.mpr (Nat.not_le.mpr h))

theorem exec_addc_of_le (d : Reg) (ha : (s.reg a).length = s.words) (hb : (s.reg b).length = s.words)
    (h : radix s.words ≤ val (s.reg a) + val (s.reg b)) :
    exec (.addc d a b) s = .next (Faulted s .overflow (encode (.addc d a b))) :=
  if_pos ((carry_fxAdd_eq_one ha hb).mpr h)

theorem exec_subc_of_le (d : Reg) (h : val (s.reg b) ≤ val (s.reg a)) :
    exec (.subc d a b) s = .next ((s.setReg d (fxSub s.words (s.reg a) (s.reg b) 0).1).setC false) :=
  if_neg ((borrow_fxSub_eq_one s.words _ _).not.mpr (Nat.not_lt.mpr h))

theorem exec_subc_of_lt (d : Reg) (h : val (s.reg a) < val (s.reg b)) :
    exec (.subc d a b) s = .next (Faulted s .overflow (encode (.subc d a b))) :=
  if_pos ((borrow_fxSub_eq_one s.words _ _).mpr h)

theorem exec_addw (d : Reg) (ha : (s.reg a).length = s.words) (hb : (s.reg b).length = s.words) :
    exec (.addw d a b) s = .next ((s.setReg d (fxAdd s.words (s.reg a) (s.reg b) 0).1).setC
      (decide (radix s.words ≤ val (s.reg a) + val (s.reg b)))) := by
  rw [← carry_fxAdd_beq ha hb]
  rfl

theorem exec_subw (d a b : Reg) (s : State) :
    exec (.subw d a b) s = .next ((s.setReg d (fxSub s.words (s.reg a) (s.reg b) 0).1).setC
      (decide (val (s.reg a) < val (s.reg b)))) := by
  rw [← borrow_fxSub_beq s.words]
  rfl

end

theorem exec_wadd (d a b : Pair) {s : State} (hs : s.Wf) :
    exec (.wadd d a b) s = .next ((s.setPair d (wideAdd s.words (s.pair a) (s.pair b)).1).setC
      (decide (radix s.words ^ 2 ≤ wval s.words (s.pair a) + wval s.words (s.pair b)))) := by
  rw [← carry_wideAdd_beq (hs.regLength _) (hs.regLength _) (hs.regLength _) (hs.regLength _)]
  rfl

theorem exec_wsub (d a b : Pair) (s : State) :
    exec (.wsub d a b) s = .next ((s.setPair d (wideSub s.words (s.pair a) (s.pair b)).1).setC
      (decide (wval s.words (s.pair a) < wval s.words (s.pair b)))) := by
  rw [← borrow_wideSub_beq]
  rfl

/-- Settles O23: the carry and the borrow decide between the fault and the exact result. -/
theorem addcAndSubcFaultOnCarryOrBorrow : Obligations.AddcAndSubcFaultOnCarryOrBorrow := by
  unfold Obligations.AddcAndSubcFaultOnCarryOrBorrow
  intro d a b s hs
  have ha := hs.regLength a
  have hb := hs.regLength b
  exact ⟨⟨decode_encode (.addc d a b),
      fun h => exists_next_of_setReg_setC (exec_addc_of_lt d ha hb h) (holds_fxAdd_of_lt h), exec_addc_of_le d ha hb⟩,
    decode_encode (.subc d a b),
    fun h => exists_next_of_setReg_setC (exec_subc_of_le d h) (holds_fxSub_of_le ha h), exec_subc_of_lt d⟩

/-- Settles O24: the results are those of the checked commands modulo `RADIX`; `C` records what those fault on. -/
theorem addwAndSubwWrapAndRecordTheCarry : Obligations.AddwAndSubwWrapAndRecordTheCarry := by
  unfold Obligations.AddwAndSubwWrapAndRecordTheCarry
  intro d a b s hs
  obtain ⟨t, ht, ⟨htlen, htval⟩, htw⟩ := exists_next_of_setReg_setC (exec_subw d a b s) (holds_fxSub ..)
  have hpos : (0 : Int) < radix s.words := by exact_mod_cast radix_pos s.words
  refine ⟨⟨decode_encode (.addw d a b), exists_next_of_setReg_setC (exec_addw d (hs.regLength a) (hs.regLength b))
      (holds_fxAdd ..)⟩, decode_encode (.subw d a b), t, ht, htlen, ?_, htw⟩
  rw [htval, Int.toNat_of_nonneg (Int.emod_nonneg _ hpos.ne')]

/-- Settles O25: as `ADDW` and `SUBW`, over both halves of a pair. -/
theorem waddAndWsubWrapAcrossBothHalves : Obligations.WaddAndWsubWrapAcrossBothHalves := by
  unfold Obligations.WaddAndWsubWrapAcrossBothHalves
  intro d a b s hs
  obtain ⟨t, ht, ⟨hlo, hhi, htval⟩, htw⟩ := exists_next_of_setPair_setC (exec_wsub d a b s) (wHolds_wideSub ..)
  have hpos : (0 : Int) < (radix s.words ^ 2 : Nat) := by exact_mod_cast Nat.pow_pos (radix_pos s.words)
  refine ⟨⟨decode_encode (.wadd d a b), exists_next_of_setPair_setC (exec_wadd d a b hs) (wHolds_wideAdd ..)⟩,
    decode_encode (.wsub d a b), t, ht, hlo, hhi, ?_, htw⟩
  rw [htval, Int.toNat_of_nonneg (Int.emod_nonneg _ hpos.ne')]

/-! ## Products (R110) -/

section
variable {n : Nat} {x y : Fixed}

theorem wHolds_fxMul (hx : x.length = n) (hy : y.length = n) : WHolds n (fxMul n x y) (val x * val y) :=
  ⟨length_wide_fst .., length_wide_snd .., wval_fxMul hx hy⟩

theorem holds_fxMul_fst (n : Nat) (x y : Fixed) : Holds n (fxMul n x y).1 (val x * val y % radix n) :=
  ⟨length_wide_fst .., val_fix ..⟩

theorem holds_fxMul_fst_of_lt (h : val x * val y < radix n) : Holds n (fxMul n x y).1 (val x * val y) := by
  simpa only [Nat.mod_eq_of_lt h] using holds_fxMul_fst n x y

/-- The high half is zero exactly when the product fits (R113). -/
theorem val_fxMul_snd_ne_zero_iff (hx : x.length = n) (hy : y.length = n) :
    val (fxMul n x y).2 ≠ 0 ↔ radix n ≤ val x * val y := by
  rw [← wval_snd (x := fxMul n x y) (length_wide_fst ..), wval_fxMul hx hy, Nat.div_ne_zero_iff]
  exact and_iff_right (radix_pos n).ne'

end

theorem exec_mulx (d : Pair) (a b : Reg) (s : State) :
    exec (.mulx d a b) s = .next (s.setPair d (fxMul s.words (s.reg a) (s.reg b))) := rfl

theorem exec_mulw (d a b : Reg) (s : State) :
    exec (.mulw d a b) s = .next (s.setReg d (fxMul s.words (s.reg a) (s.reg b)).1) := rfl

section
variable {s : State} {a b : Reg}

theorem exec_mulc_of_lt (d : Reg) (ha : (s.reg a).length = s.words) (hb : (s.reg b).length = s.words)
    (h : val (s.reg a) * val (s.reg b) < radix s.words) :
    exec (.mulc d a b) s = .next (s.setReg d (fxMul s.words (s.reg a) (s.reg b)).1) :=
  if_neg ((val_fxMul_snd_ne_zero_iff ha hb).not.mpr (Nat.not_le.mpr h))

theorem exec_mulc_of_le (d : Reg) (ha : (s.reg a).length = s.words) (hb : (s.reg b).length = s.words)
    (h : radix s.words ≤ val (s.reg a) * val (s.reg b)) :
    exec (.mulc d a b) s = .next (Faulted s .overflow (encode (.mulc d a b))) :=
  if_pos ((val_fxMul_snd_ne_zero_iff ha hb).mpr h)

end

/-- Settles O26: one pair write of the exact product. -/
theorem mulxWritesTheFullProduct : Obligations.MulxWritesTheFullProduct := by
  unfold Obligations.MulxWritesTheFullProduct
  intro d a b s hs
  exact ⟨decode_encode (.mulx d a b),
    exists_next_of_setPair (exec_mulx d a b s) (wHolds_fxMul (hs.regLength a) (hs.regLength b))⟩

/-- Settles O27: both commands write the low half; `MULC` faults when the high half is not zero. -/
theorem mulcChecksAndMulwWraps : Obligations.MulcChecksAndMulwWraps := by
  unfold Obligations.MulcChecksAndMulwWraps
  intro d a b s hs
  have ha := hs.regLength a
  have hb := hs.regLength b
  exact ⟨⟨decode_encode (.mulc d a b),
      fun h => exists_next_of_setReg (exec_mulc_of_lt d ha hb h) (holds_fxMul_fst_of_lt h), exec_mulc_of_le d ha hb⟩,
    decode_encode (.mulw d a b), exists_next_of_setReg (exec_mulw d a b s) (holds_fxMul_fst ..)⟩

/-! ## Compare (R143) -/

theorem seqCmp_beq_eq {n : Nat} {x y : Fixed} (hx : x.length = n) (hy : y.length = n) :
    (seqCmp x y == .eq) = decide (x = y) :=
  decide_eq_decide.mpr ((seqCmp_eq_eq x y).trans (eq_iff_val_eq hx hy).symm)

theorem seqCmp_beq_lt (x y : Fixed) : (seqCmp x y == .lt) = decide (val x < val y) :=
  decide_eq_decide.mpr (seqCmp_eq_lt x y)

theorem exec_cmp {s : State} {a b : Reg} (ha : (s.reg a).length = s.words) (hb : (s.reg b).length = s.words) :
    exec (.cmp a b) s = .next { s with status := { s.status with
      eq := decide (s.reg a = s.reg b), lt := decide (val (s.reg a) < val (s.reg b)) } } := by
  rw [← seqCmp_beq_eq ha hb, ← seqCmp_beq_lt]
  rfl

theorem writes_status (s : State) (f : Status) : Writes s { s with status := f } [] f :=
  ⟨fun _ _ => rfl, rfl, rfl, rfl, rfl, rfl, rfl, rfl⟩

/-- Settles O35: the two flags are the comparison's outcome. -/
theorem cmpSetsEqAndLt : Obligations.CmpSetsEqAndLt := by
  unfold Obligations.CmpSetsEqAndLt
  intro a b s hs
  exact ⟨decode_encode (.cmp a b), _, exec_cmp (hs.regLength a) (hs.regLength b), writes_status s _⟩

end Sys2Proof.Machine
end

section
/-! Proofs of the inverse modulo a power of two (R166, R167, R174) and of the Montgomery parameters (R168, R175). -/

namespace Sys2Proof.Machine

/-! ## The inverse modulo `2^k` (R166) -/

/-- One Hensel step doubles the exponent: `A*x*(2 - A*x) = 1 - (1 - A*x)^2`. -/
theorem henselStep_inverse {A x : Nat} {i : Nat} (hx : (A : Int) * x ≡ 1 [ZMOD 2 ^ (i + 1)]) :
    (A : Int) * henselStep A (2 ^ (i + 2)) x ≡ 1 [ZMOD 2 ^ (i + 2)] := by
  have hdvd : (2 : Int) ^ (i + 2) ∣ (1 - A * x) ^ 2 :=
    calc (2 : Int) ^ (i + 2) ∣ (2 ^ (i + 1)) ^ 2 := by rw [← pow_mul]; exact pow_dvd_pow 2 (by omega)
      _ ∣ (1 - A * x) ^ 2 := pow_dvd_pow_of_dvd hx.dvd 2
  have hstep : (henselStep A (2 ^ (i + 2)) x : Int) ≡ x * (2 - A * x) [ZMOD 2 ^ (i + 2)] := by
    have hnonneg : 0 ≤ ((2 : Int) - A * x) % ((2 ^ (i + 2) : Nat) : Int) := Int.emod_nonneg _ (by positivity)
    rw [henselStep, Int.natCast_mod, Nat.cast_mul, Int.toNat_of_nonneg hnonneg, Nat.cast_pow, Nat.cast_ofNat]
    exact (Int.mod_modEq _ _).trans ((Int.mod_modEq _ _).mul_left _)
  calc (A : Int) * henselStep A (2 ^ (i + 2)) x ≡ A * (x * (2 - A * x)) [ZMOD 2 ^ (i + 2)] := hstep.mul_left _
    _ = 1 - (1 - A * x) ^ 2 := by ring
    _ ≡ 1 [ZMOD 2 ^ (i + 2)] := (Int.modEq_iff_dvd.mpr (by simpa using hdvd))

theorem henselLift_inverse {A : Nat} (hA : A % 2 = 1) (i : Nat) : (A : Int) * henselLift A i ≡ 1 [ZMOD 2 ^ (i + 1)] := by
  induction i with
  | zero =>
    rw [henselLift, Int.ModEq]
    omega
  | succ i ih => exact henselStep_inverse ih

theorem henselLift_lt (A i : Nat) : henselLift A i < 2 ^ (i + 1) := by
  cases i with
  | zero => exact Nat.one_lt_two
  | succ i => exact Nat.mod_lt _ (Nat.two_pow_pos _)

/-- R182: an inverse modulo `2^k`, as a remainder of natural numbers. -/
theorem mul_mod_two_pow_eq_one {A x k : Nat} (hk : 1 ≤ k) (h : (A : Int) * x ≡ 1 [ZMOD 2 ^ k]) : A * x % 2 ^ k = 1 := by
  have hnat : A * x ≡ 1 [MOD 2 ^ k] := by
    rw [← Int.natCast_modEq_iff]
    exact_mod_cast h
  rw [hnat, Nat.mod_eq_of_lt (Nat.one_lt_two_pow (by omega))]

theorem inv2k_of_even {n k : Nat} {a : Fixed} (ha : val a % 2 = 0) : inv2k n a k = none := by
  simp [inv2k, isOdd_eq, ha]

theorem inv2k_of_odd {n k : Nat} {a : Fixed} (ha : val a % 2 = 1) :
    inv2k n a k = some (fix n (henselLift (val a) (k - 1))) := by
  simp [inv2k, isOdd_eq, ha]

theorem exists_inv2k {n k : Nat} {a : Fixed} (ha : val a % 2 = 1) (h1 : 1 ≤ k) (hk : k ≤ 64 * n) :
    ∃ x, inv2k n a k = some x ∧ x.length = n ∧ val x < 2 ^ k ∧ val a * val x % 2 ^ k = 1 := by
  have hexp : k - 1 + 1 = k := Nat.sub_add_cancel h1
  have hlt := henselLift_lt (val a) (k - 1)
  have hinv := henselLift_inverse ha (k - 1)
  rw [hexp] at hlt hinv
  have hval : val (fix n (henselLift (val a) (k - 1))) = henselLift (val a) (k - 1) :=
    val_fix_of_lt (hlt.trans_le (Nat.pow_le_pow_right (by decide) hk))
  refine ⟨_, inv2k_of_odd ha, length_fix _ _, ?_, ?_⟩
  · rwa [hval]
  · rw [hval]
    exact mul_mod_two_pow_eq_one h1 hinv

/-! ## `INV2K` (R174) -/

section
variable {d a : Reg} {imm : Imm} {s : State}

theorem exec_inv2k_of_none (h1 : 1 ≤ imm.toNat) (h2 : imm.toNat ≤ 64 * s.words)
    (h : inv2k s.words (s.reg a) imm.toNat = none) :
    exec (.inv2k d a imm) s = .next { s with status := { s.status with nr := true } } := by
  have hlegal : ¬ (imm.toNat = 0 ∨ imm.toNat > bitsOf s.words) := by rw [bitsOf]; omega
  simp only [exec, execInv2k, if_neg hlegal, h]
  rfl

theorem exec_inv2k_of_some {x : Fixed} (h1 : 1 ≤ imm.toNat) (h2 : imm.toNat ≤ 64 * s.words)
    (h : inv2k s.words (s.reg a) imm.toNat = some x) :
    exec (.inv2k d a imm) s = .next ((s.setReg d x).setNr false) := by
  have hlegal : ¬ (imm.toNat = 0 ∨ imm.toNat > bitsOf s.words) := by rw [bitsOf]; omega
  simp only [exec, execInv2k, if_neg hlegal, h]

end

/-- Settles O37: the value constraint, the even source and the lifted inverse. -/
theorem inv2kInvertsOddValues : Obligations.Inv2kInvertsOddValues := by
  unfold Obligations.Inv2kInvertsOddValues
  intro d a imm s hs
  refine ⟨decode_encode (.inv2k d a imm), fun hk => exec_of_not_wellFormed (i := .inv2k d a imm)
    (wellFormed_inv2k_eq_false.mpr hk), fun h1 h2 ha => exec_inv2k_of_none h1 h2 (inv2k_of_even ha), fun h1 h2 ha => ?_⟩
  obtain ⟨x, hx, hlen, hlt, hinv⟩ := exists_inv2k ha h1 h2
  refine ⟨_, exec_inv2k_of_some h1 h2 hx, ?_⟩
  rw [State.reg_setNr, State.reg_setReg_self]
  exact ⟨hlen, hlt, hinv, (writes_setReg s d x).withStatus _⟩

/-! ## The bit-by-bit construction (R167) -/

/-- R167's invariant: `A*x + 2^k*b = 1`, with `x` below `2^k`. -/
theorem bitInvLoop_invariant {A : Nat} (hA : A % 2 = 1) (k : Nat) :
    (A : Int) * (bitInvLoop A k).x + 2 ^ k * (bitInvLoop A k).b = 1 ∧ (bitInvLoop A k).x < 2 ^ k := by
  induction k with
  | zero => simp [bitInvLoop]
  | succ k ih =>
    obtain ⟨hsum, hlt⟩ := ih
    rw [bitInvLoop, bitInvStep]
    split
    · next hb =>
      have hhalf : 2 * (((bitInvLoop A k).b - A) / 2) = (bitInvLoop A k).b - A := by omega
      refine ⟨?_, by dsimp only; rw [pow_succ]; omega⟩
      push_cast
      calc (A : Int) * ((bitInvLoop A k).x + 2 ^ k) + 2 ^ (k + 1) * (((bitInvLoop A k).b - A) / 2)
          = A * (bitInvLoop A k).x + A * 2 ^ k + 2 ^ k * (2 * (((bitInvLoop A k).b - A) / 2)) := by ring
        _ = A * (bitInvLoop A k).x + 2 ^ k * (bitInvLoop A k).b := by rw [hhalf]; ring
        _ = 1 := hsum
    · next hb =>
      have hhalf : 2 * ((bitInvLoop A k).b / 2) = (bitInvLoop A k).b := by omega
      refine ⟨?_, by dsimp only; rw [pow_succ]; omega⟩
      calc (A : Int) * (bitInvLoop A k).x + 2 ^ (k + 1) * ((bitInvLoop A k).b / 2)
          = A * (bitInvLoop A k).x + 2 ^ k * (2 * ((bitInvLoop A k).b / 2)) := by ring
        _ = 1 := by rw [hhalf, hsum]

/-- An odd number has one inverse below `2^k`. -/
theorem inverse_unique {A k x y : Nat} (hA : A % 2 = 1) (hx : (A : Int) * x ≡ 1 [ZMOD 2 ^ k])
    (hy : (A : Int) * y ≡ 1 [ZMOD 2 ^ k]) (hxlt : x < 2 ^ k) (hylt : y < 2 ^ k) : x = y := by
  have hcop : Nat.Coprime (2 ^ k) A := Nat.Coprime.pow_left k (Nat.coprime_two_left.mpr (Nat.odd_iff.mpr hA))
  have hmul : A * x ≡ A * y [MOD 2 ^ k] := by
    rw [← Int.natCast_modEq_iff]
    exact_mod_cast hx.trans hy.symm
  exact (Nat.ModEq.cancel_left_of_coprime hcop hmul).eq_of_lt_of_lt hxlt hylt

/-- Settles O50: both constructions end in an inverse below `2^k`, and there is only one. -/
theorem bitByBitInverseAgreesWithHenselLifting : Obligations.BitByBitInverseAgreesWithHenselLifting := by
  unfold Obligations.BitByBitInverseAgreesWithHenselLifting
  intro n k a _ h1 _
  unfold inv2kBits inv2k
  split
  · next hodd =>
    rw [isOdd_eq, decide_eq_true_iff] at hodd
    obtain ⟨hbits, hbitsLt⟩ := bitInvLoop_invariant hodd k
    have hhensel := henselLift_inverse hodd (k - 1)
    have hhenselLt := henselLift_lt (val a) (k - 1)
    rw [Nat.sub_add_cancel h1] at hhensel hhenselLt
    have hbitsInv : (val a : Int) * (bitInvLoop (val a) k).x ≡ 1 [ZMOD 2 ^ k] :=
      Int.modEq_iff_dvd.mpr ⟨(bitInvLoop (val a) k).b, by linarith⟩
    rw [inverse_unique hodd hbitsInv hhensel hbitsLt hhenselLt]
  · rfl

end Sys2Proof.Machine
end

section
/-! Proofs of the Montgomery engine: what `MPINIT` derives (R168), what `redc` computes on every wide operand (R169, R170), and
the conversions and products built of it (R171 to R173). -/

namespace Sys2Proof.Machine

/-! ## The derived parameters (R168, R175) -/

/-- What a bank that `MPINIT` derived satisfies (R164, R165, R168). -/
structure Bank.Derived (n : Nat) (p : Bank) : Prop where
  length : p.n.length = n
  odd : val p.n % 2 = 1
  r1 : Holds n p.r1 (maxv n % val p.n + 1)
  r2 : Holds n p.r2 (radix n ^ 2 % val p.n)
  ninvLength : p.ninv.length = n
  ninv : val p.n * val p.ninv % radix n = radix n - 1

theorem maxv_add_one (n : Nat) : maxv n + 1 = radix n := Nat.sub_add_cancel (radix_pos n)

theorem coprime_radix {n m : Nat} (hm : m % 2 = 1) : Nat.Coprime m (radix n) :=
  Nat.Coprime.pow_right _ (Nat.coprime_two_right.mpr (Nat.odd_iff.mpr hm))

theorem holds_fix_one {n : Nat} (hn : 1 ≤ n) : Holds n (fix n 1) 1 := holds_fix (one_lt_radix hn)

theorem mpInit_of_even {n : Nat} {x : Fixed} (h : val x % 2 = 0) : mpInit n x = none := by
  simp [mpInit, isOdd_eq, h]

/-- R168's values, with the inverse that `inv2k` gives. -/
def derivedBank (n : Nat) (x inv : Fixed) : Bank where
  n := x
  r1 := (fxAdd n (fxDivrem n (fix n (maxv n)) x).2 (fix n 1) 0).1
  r2 := (wideDivrem n (fxMul n (fxAdd n (fxDivrem n (fix n (maxv n)) x).2 (fix n 1) 0).1
    (fxAdd n (fxDivrem n (fix n (maxv n)) x).2 (fix n 1) 0).1) x).2
  ninv := (fxSub n (fix n 0) inv 0).1

theorem mpInit_of_odd {n : Nat} {x inv : Fixed} (h : val x % 2 = 1) (hinv : inv2k n x (bitsOf n) = some inv) :
    mpInit n x = some (derivedBank n x inv) := by
  simp [mpInit, isOdd_eq, h, hinv, derivedBank]

section
variable {n : Nat} {x : Fixed}

/-- The stored residue fits, because it is at most the modulus. -/
theorem holds_derivedBank_r1 (hn : 1 ≤ n) (hx : x.length = n) (h0 : 0 < val x) (inv : Fixed) :
    Holds n (derivedBank n x inv).r1 (maxv n % val x + 1) := by
  have hmaxv : val (fix n (maxv n)) = maxv n := val_fix_of_lt (by rw [← maxv_add_one n]; exact Nat.lt_succ_self _)
  have hrem : val (fxDivrem n (fix n (maxv n)) x).2 = maxv n % val x := by
    rw [(val_fxDivrem (length_fix _ _) x).2, hmaxv]
  have hlt : maxv n % val x + 1 < radix n := lt_of_le_of_lt (Nat.mod_lt _ h0) (val_lt_of_length hx)
  obtain ⟨-, hone⟩ := holds_fix_one hn
  have hsum := holds_fxAdd_of_lt (n := n) (x := (fxDivrem n (fix n (maxv n)) x).2) (y := fix n 1)
  rw [hrem, hone] at hsum
  exact hsum hlt

/-- R168: `r1` is `RADIX` modulo `n`, so its square is `RADIX^2`. -/
theorem holds_derivedBank_r2 (hn : 1 ≤ n) (hx : x.length = n) (h0 : 0 < val x) (inv : Fixed) :
    Holds n (derivedBank n x inv).r2 (radix n ^ 2 % val x) := by
  obtain ⟨hr1len, hr1⟩ := holds_derivedBank_r1 hn hx h0 inv
  have hr2 := holds_mulMod hr1len hr1len hx h0.ne'
  have hmod : maxv n % val x + 1 ≡ radix n [MOD val x] := by
    rw [← maxv_add_one n]
    exact (Nat.mod_modEq _ _).add_right 1
  rwa [hr1, ← sq, (hmod.pow 2 : _ % _ = _)] at hr2

/-- R168: `ninv` is the negative of the inverse of the modulus. -/
theorem derivedBank_ninv {inv : Fixed} (hinv : val x * val inv % radix n = 1) :
    val x * val (derivedBank n x inv).ninv % radix n = radix n - 1 := by
  have hpos : 0 < radix n := radix_pos n
  have hneg : (val (derivedBank n x inv).ninv : Int) ≡ -val inv [ZMOD radix n] := by
    have h := val_fxSub n (fix n 0) inv 0
    rw [val_fix, Nat.zero_mod, Nat.cast_zero, sub_zero, zero_sub] at h
    rw [derivedBank, h]
    exact Int.mod_modEq _ _
  have hone : (val x : Int) * val inv ≡ 1 [ZMOD radix n] := by
    have h : val x * val inv ≡ 1 [MOD radix n] := by
      have hgt : 1 < radix n := by
        by_contra hle
        rw [show radix n = 1 by omega, Nat.mod_one] at hinv
        exact absurd hinv (by decide)
      rw [Nat.ModEq, hinv, Nat.mod_eq_of_lt hgt]
    exact_mod_cast Int.natCast_modEq_iff.mpr h
  have hmul : (val x : Int) * val (derivedBank n x inv).ninv ≡ (radix n - 1 : Nat) [ZMOD radix n] := by
    calc (val x : Int) * val (derivedBank n x inv).ninv ≡ val x * -val inv [ZMOD radix n] := hneg.mul_left _
      _ = -(val x * val inv) := by ring
      _ ≡ -1 [ZMOD radix n] := hone.neg
      _ ≡ (radix n - 1 : Nat) [ZMOD radix n] := Int.modEq_iff_dvd.mpr (by rw [Nat.cast_pred hpos]; simp)
  have hnat : val x * val (derivedBank n x inv).ninv ≡ radix n - 1 [MOD radix n] := by
    rw [← Int.natCast_modEq_iff]
    exact_mod_cast hmul
  rw [hnat, Nat.mod_eq_of_lt (Nat.sub_lt hpos Nat.one_pos)]

/-- R168: an odd modulus has parameters. -/
theorem exists_mpInit (hn : 1 ≤ n) (hx : x.length = n) (hodd : val x % 2 = 1) :
    ∃ p, mpInit n x = some p ∧ p.n = x ∧ p.Derived n := by
  have h0 : 0 < val x := by omega
  obtain ⟨inv, hinv, -, -, hone⟩ := exists_inv2k (n := n) (k := bitsOf n) hodd (by rw [bitsOf]; omega) le_rfl
  exact ⟨derivedBank n x inv, mpInit_of_odd hodd hinv, rfl, hx, hodd, holds_derivedBank_r1 hn hx h0 inv,
    holds_derivedBank_r2 hn hx h0 inv, length_fix _ _, derivedBank_ninv hone⟩

theorem derived_of_mpInit {p : Bank} (hn : 1 ≤ n) (hx : x.length = n) (h : mpInit n x = some p) : p.Derived n := by
  obtain heven | hodd := Nat.mod_two_eq_zero_or_one (val x)
  · rw [mpInit_of_even heven] at h
    cases h
  · obtain ⟨q, hq, -, hder⟩ := exists_mpInit hn hx hodd
    cases h.symm.trans hq
    exact hder

end

/-- The invariant's bank is a derived one while `MPV` says so. -/
theorem State.Wf.derived {s : State} (hs : s.Wf) (hmpv : s.status.mpv = true) : s.mp.Derived s.words :=
  derived_of_mpInit hs.minWidth hs.nLength (hs.bankValid hmpv)

/-- R165: for a modulus above 1 the stored residue is `RADIX mod n`, because `n` does not divide `RADIX`. -/
theorem maxv_mod_add_one {n m : Nat} (hm : m % 2 = 1) (h1 : 1 < m) : maxv n % m + 1 = radix n % m := by
  have hlt : maxv n % m < m := Nat.mod_lt _ (by omega)
  have hne : maxv n % m + 1 ≠ m := by
    intro heq
    have hdvd : m ∣ radix n := by
      rw [← maxv_add_one n, Nat.dvd_iff_mod_eq_zero, Nat.add_mod, Nat.mod_eq_of_lt h1, heq, Nat.mod_self]
    exact h1.ne' (Nat.Coprime.eq_one_of_dvd (coprime_radix hm) hdvd)
  have hmod : (maxv n % m + 1) % m = radix n % m := by
    rw [← maxv_add_one n]
    exact (Nat.mod_modEq _ _).add_right 1
  have hlt' : maxv n % m + 1 < m := by omega
  rw [← hmod, Nat.mod_eq_of_lt hlt']

theorem exec_mpinit_of_none {a : Reg} {s : State} (h : mpInit s.words (s.reg a) = none) :
    exec (.mpinit a) s = .next { s with status := { s.status with nr := true } } := by
  simp only [exec, execMpinit, h]
  rfl

theorem exec_mpinit_of_some {a : Reg} {s : State} {p : Bank} (h : mpInit s.words (s.reg a) = some p) :
    exec (.mpinit a) s = .next { s with mp := p, status := { s.status with mpv := true, nr := false } } := by
  simp only [exec, execMpinit, h]
  rfl

/-- Settles O38: `mp_init` has no result exactly on an even modulus. -/
theorem mpinitDerivesTheParameters : Obligations.MpinitDerivesTheParameters := by
  unfold Obligations.MpinitDerivesTheParameters
  intro a s hs
  refine ⟨decode_encode (.mpinit a), fun ha => exec_mpinit_of_none (mpInit_of_even ha), fun ha => ?_⟩
  obtain ⟨p, hp, hn, hder⟩ := exists_mpInit hs.minWidth (hs.regLength a) ha
  have hr1 := hder.r1
  rw [← hn] at ha ⊢
  exact ⟨p, exec_mpinit_of_some hp, rfl, hr1, fun h1 => hr1.2.trans (maxv_mod_add_one ha h1), hder.r2, hder.ninvLength,
    hder.ninv⟩

/-! ## Montgomery reduction (R169, R170) -/

theorem redc_eq (n : Nat) (p : Bank) (t : Wide) :
    redc n p t =
      if (wideAdd n (fxMul n (fxMul n t.1 p.ninv).1 p.n) t).2 = 1 ∨
          seqCmp (wideAdd n (fxMul n (fxMul n t.1 p.ninv).1 p.n) t).1.2 p.n ≠ .lt then
        (fxSub n (wideAdd n (fxMul n (fxMul n t.1 p.ninv).1 p.n) t).1.2 p.n 0).1
      else (wideAdd n (fxMul n (fxMul n t.1 p.ninv).1 p.n) t).1.2 := rfl

section
variable {n : Nat} {p : Bank} {t : Wide}

/-- `m` is chosen to make `m*n + t` divisible by `RADIX`: `ninv*n` is `-1` modulo `RADIX`. -/
theorem radix_dvd_sum (hp : p.Derived n) (hl : t.1.length = n) :
    radix n ∣ val (fxMul n t.1 p.ninv).1 * val p.n + wval n t := by
  have hm : val (fxMul n t.1 p.ninv).1 ≡ val t.1 * val p.ninv [MOD radix n] := by
    rw [(holds_fxMul_fst n t.1 p.ninv).2]
    exact Nat.mod_modEq _ _
  have ht : wval n t ≡ val t.1 [MOD radix n] := by
    rw [← wval_fst hl]
    exact (Nat.mod_modEq _ _).symm
  have hninv : val p.n * val p.ninv + 1 ≡ 0 [MOD radix n] := by
    have hpred : val p.n * val p.ninv ≡ radix n - 1 [MOD radix n] := by
      rw [Nat.ModEq, hp.ninv, Nat.mod_eq_of_lt (Nat.sub_lt (radix_pos n) Nat.one_pos)]
    have hsucc := hpred.add_right 1
    rw [Nat.sub_add_cancel (radix_pos n)] at hsucc
    exact hsucc.trans (Nat.modEq_zero_iff_dvd.mpr dvd_rfl)
  refine Nat.modEq_zero_iff_dvd.mp ?_
  calc val (fxMul n t.1 p.ninv).1 * val p.n + wval n t
      ≡ val t.1 * val p.ninv * val p.n + val t.1 [MOD radix n] := (hm.mul_right _).add ht
    _ = val t.1 * (val p.n * val p.ninv + 1) := by ring
    _ ≡ val t.1 * 0 [MOD radix n] := hninv.mul_left _

/-- R169's conditional subtraction, from the carry and the high half of a quotient `U` below `RADIX + n`: together they decide
whether `U` reaches the modulus. -/
theorem val_subtract_once {U c : Nat} {x y : Fixed} (hx : x.length = n) (hy : y.length = n) (hU : U < radix n + val y)
    (hc : c = U / radix n) (hval : val x = U % radix n) :
    val (if c = 1 ∨ seqCmp x y ≠ .lt then (fxSub n x y 0).1 else x) = if val y ≤ U then U - val y else U := by
  have hylt := val_lt_of_length hy
  simp only [ne_eq, seqCmp_eq_lt, hc]
  obtain hlt | hge := lt_or_ge U (radix n)
  · rw [Nat.mod_eq_of_lt hlt] at hval
    rw [Nat.div_eq_of_lt hlt, hval]
    by_cases hle : val y ≤ U
    · rw [if_pos (.inr (Nat.not_lt.mpr hle)), if_pos hle, (holds_fxSub_of_le hx (by rwa [hval])).2, hval]
    · rw [if_neg (by omega), if_neg hle, hval]
  · have hdiv : U / radix n = 1 := by
      rw [Nat.div_eq_of_lt_le] <;> omega
    rw [Nat.mod_eq_sub_mod hge, Nat.mod_eq_of_lt (by omega)] at hval
    rw [if_pos (.inl hdiv), if_pos (by omega)]
    have hsub := val_fxSub n x y 0
    have hwrap : (((U - radix n : Nat) : Int) - val y - (0 : Nat)) % (radix n : Int) = (U - val y : Nat) := by
      rw [← Int.add_emod_right, Int.emod_eq_of_lt] <;> omega
    rw [hval, hwrap] at hsub
    exact_mod_cast hsub

/-- R169: the exact quotient of the sum by `RADIX`, less one modulus when it reaches the modulus. -/
theorem exists_val_redc (hp : p.Derived n) (hl : t.1.length = n) (hh : t.2.length = n) :
    ∃ m U, m < radix n ∧ U * radix n = m * val p.n + wval n t ∧
      val (redc n p t) = if val p.n ≤ U then U - val p.n else U := by
  have hmlen : (fxMul n t.1 p.ninv).1.length = n := length_wide_fst _ _
  have hmlt := val_lt_of_length hmlen
  obtain ⟨U, hU⟩ := radix_dvd_sum hp hl
  have hwval : wval n (fxMul n (fxMul n t.1 p.ninv).1 p.n) + wval n t = radix n * U := by
    rw [wval_fxMul hmlen hp.length, hU]
  have hbound : U < radix n + val p.n := by
    have hwlt := wval_lt hl hh
    have hmul : val (fxMul n t.1 p.ninv).1 * val p.n ≤ radix n * val p.n := Nat.mul_le_mul_right _ hmlt.le
    refine Nat.lt_of_mul_lt_mul_left (a := radix n) ?_
    calc radix n * U = val (fxMul n t.1 p.ninv).1 * val p.n + wval n t := hU.symm
      _ < radix n * val p.n + radix n ^ 2 := by omega
      _ = radix n * (radix n + val p.n) := by ring
  refine ⟨_, U, hmlt, by rw [mul_comm, ← hU], ?_⟩
  rw [redc_eq]
  refine val_subtract_once (length_wide_snd _ _) hp.length hbound ?_ ?_
  · rw [wideAdd, hwval, sq, Nat.mul_div_mul_left _ _ (radix_pos n)]
  · rw [wideAdd, hwval, wide, Nat.mul_div_cancel_left _ (radix_pos n), val_fix]

/-- R170: congruent to `t * RADIX^-1`. -/
theorem val_redc_mul_radix (hp : p.Derived n) (hl : t.1.length = n) (hh : t.2.length = n) :
    val (redc n p t) * radix n ≡ wval n t [MOD val p.n] := by
  obtain ⟨m, U, -, hU, hval⟩ := exists_val_redc hp hl hh
  have hmod : val (redc n p t) ≡ U [MOD val p.n] := by
    rw [hval]
    split
    · next hle => exact (Nat.mod_eq_sub_mod hle).symm
    · rfl
  calc val (redc n p t) * radix n ≡ U * radix n [MOD val p.n] := hmod.mul_right _
    _ = m * val p.n + wval n t := hU
    _ ≡ wval n t [MOD val p.n] := by simp [Nat.ModEq]

/-- R170: one subtraction is enough when the operand is below `n * RADIX`. -/
theorem val_redc_lt (hp : p.Derived n) (hl : t.1.length = n) (hh : t.2.length = n)
    (ht : wval n t < val p.n * radix n) : val (redc n p t) < val p.n := by
  obtain ⟨m, U, hm, hU, hval⟩ := exists_val_redc hp hl hh
  have hbound : U < 2 * val p.n := by
    have hmn : m * val p.n ≤ radix n * val p.n := Nat.mul_le_mul_right _ hm.le
    refine Nat.lt_of_mul_lt_mul_right (a := radix n) ?_
    calc U * radix n = m * val p.n + wval n t := hU
      _ < radix n * val p.n + val p.n * radix n := by omega
      _ = 2 * val p.n * radix n := by ring
  rw [hval]
  split <;> omega

end

end Sys2Proof.Machine
end

section
/-! Proofs of the Montgomery and exponentiation commands (R171 to R173, R176 to R179, R191, R192, R194, R195). -/

namespace Sys2Proof

theorem exists_error_of_decode_redc_odd {w : Command} (hop : fieldOp w = 0x62) (h : w.getLsbD 16 = true) :
    ∃ e, decode w = .error e := by
  simp only [decode, hop, decodeRRW, zeroBits_of_getLsbD h]
  exact exists_error_of_checkFields_odd _ _

end Sys2Proof

namespace Sys2Proof.Machine

/-! ## Conversions and products (R171 to R173)

A value `v` stands in Montgomery form as `v * RADIX mod n`. -/

section
variable {n : Nat} {p : Bank}

theorem val_derived_pos (hp : p.Derived n) : 0 < val p.n := by
  have := hp.odd
  omega

/-- The factor `RADIX` can be cancelled, because the modulus is odd. -/
theorem modEq_of_mul_radix {a b : Nat} (hp : p.Derived n) (h : a * radix n ≡ b * radix n [MOD val p.n]) :
    a ≡ b [MOD val p.n] :=
  Nat.ModEq.cancel_right_of_coprime (coprime_radix hp.odd) h

/-- R170, for an operand below `n * RADIX` whose residue is known. -/
theorem holds_redc {t : Wide} {v : Nat} (hp : p.Derived n) (hl : t.1.length = n) (hh : t.2.length = n)
    (ht : wval n t < val p.n * radix n) (hv : wval n t ≡ v * radix n [MOD val p.n]) :
    Holds n (redc n p t) (v % val p.n) := by
  have hmod : val (redc n p t) ≡ v [MOD val p.n] := modEq_of_mul_radix hp ((val_redc_mul_radix hp hl hh).trans hv)
  exact ⟨length_redc n p t, by rw [← hmod, Nat.mod_eq_of_lt (val_redc_lt hp hl hh ht)]⟩

theorem wval_zext {x : Fixed} : wval n (x, fix n 0) = val x := by
  rw [wval, val_fix, Nat.zero_mod, Nat.zero_mul, Nat.zero_add]

/-- R171: into Montgomery form, from any operand. -/
theorem holds_toMonty (hp : p.Derived n) {x : Fixed} (hx : x.length = n) :
    Holds n (toMonty n p x) (val x * radix n % val p.n) := by
  obtain ⟨hr2len, hr2⟩ := hp.r2
  have hmul := wval_fxMul hx hr2len
  refine holds_redc hp (length_wide_fst _ _) (length_wide_snd _ _) ?_ ?_
  · rw [hmul, mul_comm (val p.n)]
    refine Nat.mul_lt_mul'' (val_lt_of_length hx) ?_
    rw [hr2]
    exact Nat.mod_lt _ (val_derived_pos hp)
  · rw [hmul, hr2, mul_assoc, ← sq]
    exact (Nat.mod_modEq _ _).mul_left _

/-- R173: the residue of a form by `RADIX^-1`. -/
theorem holds_normalize {x : Fixed} {v : Nat} (hp : p.Derived n) (hx : x.length = n)
    (hv : val x ≡ v * radix n [MOD val p.n]) : Holds n (normalize n p x) (v % val p.n) := by
  refine holds_redc hp hx (length_fix _ _) ?_ ?_ <;> rw [wval_zext]
  · exact (val_lt_of_length hx).trans_le (Nat.le_mul_of_pos_left _ (val_derived_pos hp))
  · exact hv

/-- R172: the product of two forms is the form of the product. -/
theorem holds_montyMul {x y : Fixed} {u v : Nat} (hp : p.Derived n) (hx : Holds n x (u * radix n % val p.n))
    (hy : Holds n y (v * radix n % val p.n)) : Holds n (montyMul n p x y) (u * v * radix n % val p.n) := by
  obtain ⟨hxlen, hxval⟩ := hx
  obtain ⟨hylen, hyval⟩ := hy
  have hlt : ∀ w, w % val p.n < val p.n := fun w => Nat.mod_lt _ (val_derived_pos hp)
  refine holds_redc hp (length_wide_fst _ _) (length_wide_snd _ _) ?_ ?_ <;> rw [wval_fxMul hxlen hylen, hxval, hyval]
  · exact Nat.mul_lt_mul'' (hlt _) ((hlt _).trans (hp.length ▸ val_lt p.n))
  · calc u * radix n % val p.n * (v * radix n % val p.n) ≡ u * radix n * (v * radix n) [MOD val p.n] :=
        (Nat.mod_modEq _ _).mul (Nat.mod_modEq _ _)
      _ = u * v * radix n * radix n := by ring

end

/-! ## The meanings: `NOPARAMS`, or one register write (R176 to R179, R195) -/

section
variable {s : State} (d a b : Reg)

theorem exec_redc (w : Pair) (h : s.status.mpv = true) :
    exec (.redc d w) s = .next (s.setReg d (redc s.words s.mp (s.pair w))) := if_neg (by simp [h])

theorem exec_tomont (h : s.status.mpv = true) :
    exec (.tomont d a) s = .next (s.setReg d (toMonty s.words s.mp (s.reg a))) := if_neg (by simp [h])

theorem exec_mmul (h : s.status.mpv = true) :
    exec (.mmul d a b) s = .next (s.setReg d (montyMul s.words s.mp (s.reg a) (s.reg b))) := if_neg (by simp [h])

theorem exec_frommont (h : s.status.mpv = true) :
    exec (.frommont d a) s = .next (s.setReg d (normalize s.words s.mp (s.reg a))) := if_neg (by simp [h])

theorem exec_mexpm (h : s.status.mpv = true) :
    exec (.mexpm d a b) s = .next (s.setReg d (mexpMonty s.words s.mp (s.reg a) (s.reg b))) := if_neg (by simp [h])

end

/-- Settles O39: `redc`'s congruence and bound at the operand pair. -/
theorem redcReducesModuloTheBank : Obligations.RedcReducesModuloTheBank := by
  unfold Obligations.RedcReducesModuloTheBank
  intro d a s hs
  refine ⟨decode_encode (.redc d a), fun h => if_pos h, fun h => ⟨_, exec_redc d a h, ?_⟩,
    fun w hop => exists_error_of_decode_redc_odd hop⟩
  have hp := hs.derived h
  have hl : (s.pair a).1.length = s.words := hs.regLength _
  have hh : (s.pair a).2.length = s.words := hs.regLength _
  rw [State.reg_setReg_self]
  exact ⟨rfl, length_redc _ _ _, val_redc_mul_radix hp hl hh, val_redc_lt hp hl hh, writes_setReg s d _⟩

/-- Settles O40: both are `redc` of an operand below `n * RADIX`. -/
theorem tomontAndFrommontConvert : Obligations.TomontAndFrommontConvert := by
  unfold Obligations.TomontAndFrommontConvert
  intro d a s hs
  have ha := hs.regLength a
  refine ⟨⟨decode_encode (.tomont d a), fun h => if_pos h,
      fun h => exists_next_of_setReg (exec_tomont d a h) (holds_toMonty (hs.derived h) ha)⟩,
    decode_encode (.frommont d a), fun h => if_pos h, fun h => ⟨_, exec_frommont d a h, ?_⟩⟩
  have hp := hs.derived h
  have hlt : wval s.words (s.reg a, fix s.words 0) < val s.mp.n * radix s.words := by
    rw [wval_zext]
    exact (val_lt_of_length ha).trans_le (Nat.le_mul_of_pos_left _ (val_derived_pos hp))
  have hmod := val_redc_mul_radix (t := (s.reg a, fix s.words 0)) hp ha (length_fix _ _)
  rw [wval_zext] at hmod
  rw [State.reg_setReg_self]
  exact ⟨length_redc _ _ _, hmod, val_redc_lt hp ha (length_fix _ _) hlt, writes_setReg s d _⟩

/-- Settles O41: `redc` of the exact product. -/
theorem mmulMultipliesInMontgomerySpace : Obligations.MmulMultipliesInMontgomerySpace := by
  unfold Obligations.MmulMultipliesInMontgomerySpace
  intro d a b s hs
  refine ⟨decode_encode (.mmul d a b), fun h => if_pos h, fun h => ⟨_, exec_mmul d a b h, ?_⟩⟩
  have hp := hs.derived h
  obtain ⟨hl, hh, hprod⟩ := wHolds_fxMul (hs.regLength a) (hs.regLength b)
  rw [State.reg_setReg_self, ← hprod]
  exact ⟨rfl, length_redc _ _ _, val_redc_mul_radix hp hl hh, val_redc_lt hp hl hh, writes_setReg s d _⟩

/-! ## Square and multiply (R191, R192) -/

/-- The exponent's bits above bit `i`, and then bit `i`. -/
theorem pow_div_two_pow (x e i : Nat) :
    x ^ (e / 2 ^ i) = x ^ (e / 2 ^ (i + 1)) * x ^ (e / 2 ^ (i + 1)) * (if e.testBit i then x else 1) := by
  have hsplit : e / 2 ^ i = e / 2 ^ (i + 1) + e / 2 ^ (i + 1) + e / 2 ^ i % 2 := by
    rw [pow_succ, ← Nat.div_div_eq_div_mul]
    omega
  rw [Nat.testBit_eq_decide_div_mod_eq]
  conv_lhs => rw [hsplit, pow_add, pow_add]
  obtain h | h := Nat.mod_two_eq_zero_or_one (e / 2 ^ i) <;> simp [h]

/-- The loop starts with no bit of the exponent read. -/
theorem div_two_pow_bitLen (e : Nat) : e / 2 ^ bitLen e = 0 := Nat.div_eq_of_lt (bitLen_le_iff.mp le_rfl)

section
variable {n : Nat} {base e m : Fixed}

/-- R191's invariant: with bits `i` and above read, the accumulator is the power by the exponent shifted right by `i`. -/
theorem holds_modExpLoop (hbase : base.length = n) (hm : m.length = n) (h0 : val m ≠ 0) {i : Nat} {acc : Fixed}
    (hacc : Holds n acc (val base ^ (val e / 2 ^ i) % val m)) :
    Holds n (modExpLoop n base e m i acc) (val base ^ val e % val m) := by
  induction i generalizing acc with
  | zero => simpa [modExpLoop] using hacc
  | succ i ih =>
    refine ih ?_
    obtain ⟨hlen, hval⟩ := hacc
    have hsq := holds_mulMod hlen hlen hm h0
    rw [hval, ← Nat.mul_mod] at hsq
    rw [pow_div_two_pow]
    split
    · have hmul := holds_mulMod hsq.1 hbase hm h0
      rwa [hsq.2, Nat.mod_mul_mod] at hmul
    · rwa [mul_one]

theorem holds_modExp (hn : 1 ≤ n) (hbase : base.length = n) (hm : m.length = n) (h0 : val m ≠ 0) :
    Holds n (modExp n base e m) (val base ^ val e % val m) := by
  refine holds_modExpLoop hbase hm h0 ?_
  rw [seqBitlen, div_two_pow_bitLen, pow_zero]
  obtain ⟨hlen, hone⟩ := holds_fix_one hn
  have hrem := (holds_fxDivrem hlen m).2
  rwa [hone] at hrem

end

section
variable {n : Nat} {p : Bank} {e bm : Fixed} {base : Nat}

/-- R192's invariant: R191's, in Montgomery form. -/
theorem holds_mexpLoop (hp : p.Derived n) (hbm : Holds n bm (base * radix n % val p.n)) {i : Nat} {acc : Fixed}
    (hacc : Holds n acc (base ^ (val e / 2 ^ i) * radix n % val p.n)) :
    Holds n (mexpLoop n p bm e i acc) (base ^ val e * radix n % val p.n) := by
  induction i generalizing acc with
  | zero => simpa [mexpLoop] using hacc
  | succ i ih =>
    refine ih ?_
    have hsq := holds_montyMul hp hacc hacc
    rw [pow_div_two_pow]
    split
    · exact holds_montyMul hp hsq hbm
    · rwa [mul_one]

theorem holds_mexpMonty (hn : 1 ≤ n) (hp : p.Derived n) {x : Fixed} (hx : x.length = n) (e : Fixed) :
    Holds n (mexpMonty n p x e) (val x ^ val e % val p.n) := by
  obtain ⟨honelen, hone⟩ := holds_fix_one hn
  have hstart : Holds n (toMonty n p (fix n 1)) (val x ^ (val e / 2 ^ seqBitlen e) * radix n % val p.n) := by
    have hform := holds_toMonty hp honelen
    rw [hone] at hform
    rwa [seqBitlen, div_two_pow_bitLen, pow_zero]
  obtain ⟨hlen, hval⟩ := holds_mexpLoop hp (holds_toMonty hp hx) hstart
  refine holds_normalize hp hlen ?_
  rw [hval]
  exact Nat.mod_modEq _ _

end

theorem exec_modexp_of_ne_zero {s : State} {c : Reg} (d a b : Reg) (h : val (s.reg c) ≠ 0) :
    exec (.modexp d a b c) s = .next (s.setReg d (modExp s.words (s.reg a) (s.reg b) (s.reg c))) := if_neg h

/-- Settles O43: the modulus is looked at first; then one register write of the power. -/
theorem modexpExponentiatesModulo : Obligations.ModexpExponentiatesModulo := by
  unfold Obligations.ModexpExponentiatesModulo
  intro d a b c s hs
  exact ⟨decode_encode (.modexp d a b c), fun h => if_pos h, fun h => exists_next_of_setReg
    (exec_modexp_of_ne_zero d a b h) (holds_modExp hs.minWidth (hs.regLength a) (hs.regLength c) h)⟩

/-- Settles O44: the loop in Montgomery space, and the result taken out of it. -/
theorem mexpmExponentiatesThroughMontgomerySpace : Obligations.MexpmExponentiatesThroughMontgomerySpace := by
  unfold Obligations.MexpmExponentiatesThroughMontgomerySpace
  intro d a b s hs
  exact ⟨decode_encode (.mexpm d a b), fun h => if_pos h, fun h => exists_next_of_setReg (exec_mexpm d a b h)
    (holds_mexpMonty hs.minWidth (hs.derived h) (hs.regLength a) (s.reg b))⟩

end Sys2Proof.Machine
end

section
/-! Proofs of the word-level adder and multiplier: the ripple chains (R90 to R93) and the schoolbook buffer (R110, R111)
compute the integer meanings, for every width. -/

namespace Sys2Proof.Machine

/-! ## Ripple chains (R90 to R93) -/

theorem fxAddWords_cons (x y : Word) (xs ys : Fixed) (c : Word) :
    fxAddWords (x :: xs) (y :: ys) c =
      ((addWithCarry x y c).1 :: (fxAddWords xs ys (addWithCarry x y c).2).1,
        (fxAddWords xs ys (addWithCarry x y c).2).2) := rfl

theorem fxSubWords_cons (x y : Word) (xs ys : Fixed) (c : Word) :
    fxSubWords (x :: xs) (y :: ys) c =
      ((subWithBorrow x y c).1 :: (fxSubWords xs ys (subWithBorrow x y c).2).1,
        (fxSubWords xs ys (subWithBorrow x y c).2).2) := rfl

/-- R90: the words and the carry out are the sum of the operands and the carry in. -/
theorem fxAddWords_exact {x y : Fixed} (h : x.length = y.length) (c : Word) :
    (fxAddWords x y c).1.length = x.length ∧
    val (fxAddWords x y c).1 + radix x.length * (fxAddWords x y c).2.toNat = val x + val y + c.toNat := by
  induction x generalizing y c with
  | nil => cases y <;> simp_all [fxAddWords]
  | cons a as ih =>
    cases y with
    | nil => simp at h
    | cons b bs =>
      obtain ⟨hlen, hval⟩ := ih (by simpa using h) (addWithCarry a b c).2
      have hcell := addWithCarry_exact a b c
      rw [fxAddWords_cons]
      dsimp only
      refine ⟨congrArg Nat.succ hlen, ?_⟩
      rw [val_cons, val_cons, val_cons, List.length_cons, radix_succ, Nat.mul_assoc]
      omega

theorem borrowOut_le_one (a b c : Word) : (subWithBorrow a b c).2.toNat ≤ 1 := by
  rw [subWithBorrow]
  dsimp only
  split <;> decide

theorem borrowIn_of_le_one {c : Word} (hc : c.toNat ≤ 1) : borrowIn c = c.toNat := by
  rw [borrowIn]
  split
  · next h => simp [h]
  · next h =>
    have := BitVec.toNat_ne.mp h
    simp only [BitVec.ofNat_eq_ofNat, BitVec.toNat_ofNat] at this
    omega

/-- R91: the words less the borrow out are the difference of the operands and the borrow in. -/
theorem fxSubWords_exact {x y : Fixed} (h : x.length = y.length) {c : Word} (hc : c.toNat ≤ 1) :
    (fxSubWords x y c).1.length = x.length ∧ (fxSubWords x y c).2.toNat ≤ 1 ∧
    (val (fxSubWords x y c).1 : Int) - radix x.length * (fxSubWords x y c).2.toNat = (val x : Int) - val y - c.toNat := by
  induction x generalizing y c with
  | nil => cases y <;> simp_all [fxSubWords]
  | cons a as ih =>
    cases y with
    | nil => simp at h
    | cons b bs =>
      obtain ⟨hlen, hle, hval⟩ := ih (by simpa using h) (borrowOut_le_one a b c)
      have hcell := subWithBorrow_exact a b c
      rw [borrowIn_of_le_one hc] at hcell
      rw [fxSubWords_cons]
      dsimp only
      refine ⟨congrArg Nat.succ hlen, hle, ?_⟩
      rw [val_cons, val_cons, val_cons, List.length_cons, radix_succ]
      push_cast
      rw [mul_assoc]
      omega

section
variable {n : Nat} {x y : Fixed}

theorem fxAddWords_eq (hx : x.length = n) (hy : y.length = n) (c : Word) :
    fxAddWords x y c = ((fxAdd n x y c.toNat).1, BitVec.ofNat 64 (fxAdd n x y c.toNat).2) := by
  obtain ⟨hlen, hval⟩ := fxAddWords_exact (hx.trans hy.symm) c
  rw [hx] at hlen hval
  have hlt := val_lt_of_length hlen
  rw [fxAdd, ← hval, Nat.add_mul_div_left _ _ (radix_pos n), Nat.div_eq_of_lt hlt, Nat.zero_add, BitVec.ofNat_toNat,
    BitVec.setWidth_eq]
  refine Prod.ext (val_injective (by simp [hlen]) ?_) rfl
  rw [val_fix, Nat.add_mul_mod_self_left, Nat.mod_eq_of_lt hlt]

theorem fxSubWords_eq (hx : x.length = n) (hy : y.length = n) {c : Word} (hc : c.toNat ≤ 1) :
    fxSubWords x y c = ((fxSub n x y c.toNat).1, BitVec.ofNat 64 (fxSub n x y c.toNat).2) := by
  obtain ⟨hlen, hle, hval⟩ := fxSubWords_exact (hx.trans hy.symm) hc
  rw [hx] at hlen hval
  have hlt := val_lt_of_length hlen
  refine Prod.ext (val_injective (by simp [hlen]) ?_) (BitVec.eq_of_toNat_eq ?_)
  · have hsub := val_fxSub n x y c.toNat
    rw [← hval, Int.sub_mul_emod_self_left, Int.emod_eq_of_lt (by omega) (by omega)] at hsub
    exact_mod_cast hsub.symm
  · rw [fxSub, ← hval]
    obtain hb | hb : (fxSubWords x y c).2.toNat = 0 ∨ (fxSubWords x y c).2.toNat = 1 := by omega
    · rw [hb, if_neg (by omega)]
      rfl
    · rw [hb, if_pos (by omega)]
      rfl

end

section
variable {n : Nat} {x y : Wide}

theorem wval_injective (hxl : x.1.length = n) (hxh : x.2.length = n) (hyl : y.1.length = n) (hyh : y.2.length = n)
    (h : wval n x = wval n y) : x = y := by
  refine Prod.ext (val_injective (hxl.trans hyl.symm) ?_) (val_injective (hxh.trans hyh.symm) ?_)
  · rw [← wval_fst hxl, ← wval_fst hyl, h]
  · rw [← wval_snd hxl, ← wval_snd hyl, h]

theorem eq_wide {v : Nat} (hxl : x.1.length = n) (hxh : x.2.length = n) (h : wval n x = v % radix n ^ 2) : x = wide n v :=
  wval_injective hxl hxh (length_wide_fst _ _) (length_wide_snd _ _) (h.trans (wval_wide n v).symm)

/-- R92: the carry out of the low half is the carry in of the high half. -/
theorem wideAddWords_eq (hxl : x.1.length = n) (hxh : x.2.length = n) (hyl : y.1.length = n) (hyh : y.2.length = n) :
    wideAddWords x y = ((wideAdd n x y).1, BitVec.ofNat 64 (wideAdd n x y).2) := by
  obtain ⟨hlolen, hlo⟩ := fxAddWords_exact (hxl.trans hyl.symm) 0
  obtain ⟨hhilen, hhi⟩ := fxAddWords_exact (hxh.trans hyh.symm) (fxAddWords x.1 y.1 0).2
  have hpair : wideAddWords x y =
      (((fxAddWords x.1 y.1 0).1, (fxAddWords x.2 y.2 (fxAddWords x.1 y.1 0).2).1),
        (fxAddWords x.2 y.2 (fxAddWords x.1 y.1 0).2).2) := rfl
  rw [hpair]
  generalize fxAddWords x.1 y.1 0 = lo at *
  generalize fxAddWords x.2 y.2 lo.2 = hi at *
  rw [hxl] at hlolen hlo
  rw [hxh] at hhilen hhi
  have hsum : wval n x + wval n y = wval n (lo.1, hi.1) + radix n ^ 2 * hi.2.toNat := by
    have h0 : (0 : Word).toNat = 0 := rfl
    rw [h0, add_zero] at hlo
    rw [wval, wval, wval]
    linear_combination -hlo - radix n * hhi
  have hlt := wval_lt (x := (lo.1, hi.1)) hlolen hhilen
  have hpos : 0 < radix n ^ 2 := Nat.pow_pos (radix_pos n)
  rw [wideAdd, hsum, Nat.add_mul_div_left _ _ hpos, Nat.div_eq_of_lt hlt, Nat.zero_add, BitVec.ofNat_toNat,
    BitVec.setWidth_eq]
  refine Prod.ext (eq_wide hlolen hhilen ?_) rfl
  rw [Nat.add_mul_mod_self_left, Nat.mod_eq_of_lt hlt]

/-- R93: the borrow out of the low half is the borrow in of the high half. -/
theorem wideSubWords_eq (hxl : x.1.length = n) (hxh : x.2.length = n) (hyl : y.1.length = n) (hyh : y.2.length = n) :
    wideSubWords x y = ((wideSub n x y).1, BitVec.ofNat 64 (wideSub n x y).2) := by
  obtain ⟨hlolen, hlole, hlo⟩ := fxSubWords_exact (hxl.trans hyl.symm) (c := 0) (by decide)
  obtain ⟨hhilen, hhile, hhi⟩ := fxSubWords_exact (hxh.trans hyh.symm) hlole
  have hpair : wideSubWords x y =
      (((fxSubWords x.1 y.1 0).1, (fxSubWords x.2 y.2 (fxSubWords x.1 y.1 0).2).1),
        (fxSubWords x.2 y.2 (fxSubWords x.1 y.1 0).2).2) := rfl
  rw [hpair]
  generalize fxSubWords x.1 y.1 0 = lo at *
  generalize fxSubWords x.2 y.2 lo.2 = hi at *
  rw [hxl] at hlolen hlo
  rw [hxh] at hhilen hhi
  have hdiff : (wval n x : Int) - wval n y = wval n (lo.1, hi.1) - ((radix n ^ 2 : Nat) : Int) * hi.2.toNat := by
    have h0 : (0 : Word).toNat = 0 := rfl
    rw [h0, Nat.cast_zero, sub_zero] at hlo
    rw [wval, wval, wval]
    push_cast
    linear_combination -hlo - radix n * hhi
  have hlt := wval_lt (x := (lo.1, hi.1)) hlolen hhilen
  refine Prod.ext (eq_wide hlolen hhilen ?_) (BitVec.eq_of_toNat_eq ?_)
  · rw [hdiff, Int.sub_mul_emod_self_left, Int.emod_eq_of_lt (by omega) (by omega), Int.toNat_natCast,
      Nat.mod_eq_of_lt hlt]
  · rw [wideSub]
    obtain hb | hb : hi.2.toNat = 0 ∨ hi.2.toNat = 1 := by omega
    · rw [hb] at hdiff ⊢
      rw [if_neg (by omega)]
      rfl
    · rw [hb] at hdiff ⊢
      rw [if_pos (by omega)]
      rfl

end

/-- Settles O46: the single chains by induction over the words, the double ones by two single ones. -/
theorem rippleChainsComputeSumAndDifference : Obligations.RippleChainsComputeSumAndDifference := by
  unfold Obligations.RippleChainsComputeSumAndDifference
  refine ⟨fun n x y cin hx hy hcin => ?_, fun n x y hxl hxh hyl hyh =>
    ⟨wideAddWords_eq hxl hxh hyl hyh, wideSubWords_eq hxl hxh hyl hyh⟩⟩
  have hc : (BitVec.ofNat 64 cin).toNat = cin := by rw [BitVec.toNat_ofNat]; omega
  have hadd := fxAddWords_eq hx hy (BitVec.ofNat 64 cin)
  have hsub := fxSubWords_eq hx hy (c := BitVec.ofNat 64 cin) (by omega)
  rw [hc] at hadd hsub
  exact ⟨hadd, hsub⟩

/-! ## The schoolbook buffer (R110) -/

/-- One row over a part `u` of the buffer, the zero word above it and the rest `zs`: the row adds the word's product and
leaves the rest. -/
theorem mulRowWords_exact {u ys : Fixed} (h : u.length = ys.length) (zs : Fixed) (x c : Word) :
    ∃ r, mulRowWords (u ++ 0 :: zs) x ys c = r ++ zs ∧ r.length = ys.length + 1 ∧
      val r = val u + x.toNat * val ys + c.toNat := by
  induction ys generalizing u c with
  | nil =>
    obtain rfl : u = [] := List.length_eq_zero_iff.mp h
    exact ⟨[c], rfl, rfl, by simp⟩
  | cons y ys ih =>
    cases u with
    | nil => simp at h
    | cons b bs =>
      obtain ⟨r, hr, hlen, hval⟩ := ih (by simpa using h) (mulAddWithCarry b x y c).2
      have hcell := mulAddWithCarry_exact b x y c
      refine ⟨(mulAddWithCarry b x y c).1 :: r, congrArg (_ :: ·) hr, congrArg Nat.succ hlen, ?_⟩
      rw [val_cons, val_cons, val_cons, hval]
      linear_combination hcell

/-- R110's outer loop: the buffer keeps a part `u` as long as the second factor, and one zero word for every row to come. -/
theorem mulRowsWords_exact {xs u ys : Fixed} (h : u.length = ys.length) :
    (mulRowsWords (u ++ List.replicate xs.length 0) xs ys).length = ys.length + xs.length ∧
    val (mulRowsWords (u ++ List.replicate xs.length 0) xs ys) = val u + val xs * val ys := by
  induction xs generalizing u with
  | nil => simp [mulRowsWords, h]
  | cons x xs ih =>
    obtain ⟨r, hr, hlen, hval⟩ := mulRowWords_exact h (List.replicate xs.length 0) x 0
    obtain ⟨b, u', rfl⟩ := List.exists_cons_of_length_eq_add_one hlen
    obtain ⟨hlen', hval'⟩ := ih (u := u') (by simpa using hlen)
    rw [List.length_cons, List.replicate_succ, mulRowsWords, hr, List.cons_append]
    dsimp only
    refine ⟨by rw [List.length_cons, hlen']; omega, ?_⟩
    have h0 : (0 : Word).toNat = 0 := rfl
    rw [val_cons, h0] at hval
    rw [val_cons, val_cons, hval']
    linear_combination hval

/-- Settles O47: row by row, from a buffer of zeros. -/
theorem schoolbookMultiplicationIsTheProduct : Obligations.SchoolbookMultiplicationIsTheProduct := by
  unfold Obligations.SchoolbookMultiplicationIsTheProduct
  intro n x y hx hy
  have hbuf : List.replicate (2 * n) (0 : Word) = List.replicate n 0 ++ List.replicate x.length 0 := by
    rw [← List.replicate_add, hx, two_mul]
  obtain ⟨hlen, hval⟩ := mulRowsWords_exact (xs := x) (u := List.replicate n 0) (ys := y) (by simp [hy])
  have hzero : val (List.replicate n (0 : Word)) = 0 := val_replicate_zero n
  rw [← hbuf] at hlen hval
  rw [hzero, Nat.zero_add] at hval
  obtain ⟨hl, hh, hwval⟩ := Holds.wideOfWords ⟨(by omega : (mulRowsWords _ x y).length = 2 * n), hval⟩
  exact wval_injective hl hh (length_wide_fst _ _) (length_wide_snd _ _) (hwval.trans (wval_fxMul hx hy).symm)

end Sys2Proof.Machine
end

section
/-! Proofs of the word-level shifts, comparison and leading-zero scan (R140, R141, R143, R144), over any number of words. -/

namespace Sys2Proof.Machine

/-! ## The words of a value -/

theorem toNat_wordAt (x : Fixed) (i : Nat) : (wordAt x i).toNat = val x / 2 ^ (64 * i) % 2 ^ 64 := by
  induction x generalizing i with
  | nil => simp [wordAt]
  | cons w ws ih =>
    cases i with
    | zero =>
      rw [wordAt, List.getD_cons_zero, val_cons]
      omega
    | succ i =>
      have hsucc : wordAt (w :: ws) (i + 1) = wordAt ws i := List.getD_cons_succ
      have hdiv : (w.toNat + 2 ^ 64 * val ws) / 2 ^ 64 = val ws := by omega
      rw [hsucc, ih, val_cons, Nat.mul_succ, Nat.add_comm (64 * i), Nat.pow_add, ← Nat.div_div_eq_div_mul, hdiv]

/-- The number above word `i` is word `i` and the number above word `i + 1`. -/
theorem val_div_two_pow_word (x : Fixed) (i : Nat) :
    val x / 2 ^ (64 * i) = (wordAt x i).toNat + 2 ^ 64 * (val x / 2 ^ (64 * (i + 1))) := by
  rw [toNat_wordAt, Nat.mul_succ, Nat.pow_add, ← Nat.div_div_eq_div_mul, Nat.mod_add_div]

theorem wordAt_of_length_le {x : Fixed} {i : Nat} (h : x.length ≤ i) : wordAt x i = 0 :=
  List.getD_eq_default _ _ h

/-- A value is known by its words. -/
theorem eq_fix_of_toNat_wordAt {l v : Nat} {x : Fixed} (hx : x.length = l)
    (h : ∀ i < l, (wordAt x i).toNat = v / 2 ^ (64 * i) % 2 ^ 64) : x = fix l v := by
  induction x generalizing l v with
  | nil =>
    subst hx
    rfl
  | cons w ws ih =>
    subst hx
    have hw := h 0 (Nat.succ_pos _)
    have hws : ws = fix ws.length (v / 2 ^ 64) := ih rfl fun i hi => by
      have hi' := h (i + 1) (Nat.succ_lt_succ hi)
      rwa [Nat.mul_succ, Nat.add_comm (64 * i), Nat.pow_add, ← Nat.div_div_eq_div_mul] at hi'
    rw [List.length_cons, fix, ← hws]
    congr 1
    apply BitVec.eq_of_toNat_eq
    simpa [wordAt] using hw

theorem wordAt_map_range {l i : Nat} (f : Nat → Word) (hi : i < l) : wordAt ((List.range l).map f) i = f i := by
  simp [wordAt, hi]

/-! ## Shifts (R140, R141) -/

/-- A window of one word on two words, `t` bits up. -/
theorem window_eq {lo hi t : Nat} (hlo : lo < 2 ^ 64) (ht : t ≤ 64) :
    (lo + 2 ^ 64 * hi) / 2 ^ t % 2 ^ 64 = lo / 2 ^ t + hi * 2 ^ (64 - t) % 2 ^ 64 := by
  have hpow : 2 ^ 64 = 2 ^ t * 2 ^ (64 - t) := by rw [← Nat.pow_add, Nat.add_sub_cancel' ht]
  have hlow : lo / 2 ^ t < 2 ^ (64 - t) := Nat.div_lt_of_lt_mul (by rwa [← hpow])
  have hwindow : (lo + 2 ^ 64 * hi) / 2 ^ t = lo / 2 ^ t + 2 ^ (64 - t) * hi := by
    rw [hpow, Nat.mul_assoc, Nat.add_mul_div_left _ _ (Nat.two_pow_pos t)]
  have hpow' : 2 ^ 64 = 2 ^ (64 - t) * 2 ^ t := by rw [hpow, Nat.mul_comm]
  rw [hwindow, hpow', Nat.mod_mul, Nat.add_mul_mod_self_left, Nat.mod_eq_of_lt hlow,
    Nat.add_mul_div_left _ _ (Nat.two_pow_pos _), Nat.div_eq_of_lt hlow, Nat.zero_add, Nat.mul_comm hi,
    Nat.mul_mod_mul_left]

/-- Below the whole-word shift the result is zero. -/
theorem toNat_shlWordAt_of_lt (x : Fixed) {k t i : Nat} (hi : i < k) :
    (shlWordAt x k t i).toNat = val x * 2 ^ (64 * k + t) / 2 ^ (64 * i) % 2 ^ 64 := by
  have hexp : 64 * k + t = 64 * i + (64 + (64 * (k - i - 1) + t)) := by omega
  rw [shlWordAt, if_neg (by omega), if_neg (by omega), hexp, Nat.pow_add, Nat.mul_left_comm,
    Nat.mul_div_cancel_left _ (Nat.two_pow_pos _), Nat.pow_add, Nat.mul_left_comm, Nat.mul_mod_right]
  rfl

/-- At the whole-word shift only word 0 comes in. -/
theorem toNat_shlWordAt_self (x : Fixed) (k t : Nat) :
    (shlWordAt x k t k).toNat = val x * 2 ^ (64 * k + t) / 2 ^ (64 * k) % 2 ^ 64 := by
  have hzero : ∀ w : Word, w + 0 = w := BitVec.add_zero
  rw [shlWordAt, if_pos le_rfl, if_neg (by omega), Nat.sub_self, Nat.pow_add, Nat.mul_left_comm,
    Nat.mul_div_cancel_left _ (Nat.two_pow_pos _), hzero, toNat_wordShl, toNat_wordAt, Nat.mul_zero, Nat.pow_zero,
    Nat.div_one, Nat.mod_mul_mod]

/-- Above it a word is a window on two words of the source. -/
theorem toNat_shlWordAt_of_gt (x : Fixed) {k t : Nat} (ht : t < 64) (j : Nat) :
    (shlWordAt x k t (k + (j + 1))).toNat = val x * 2 ^ (64 * k + t) / 2 ^ (64 * (k + (j + 1))) % 2 ^ 64 := by
  have hwindow : val x * 2 ^ (64 * k + t) / 2 ^ (64 * (k + (j + 1))) = val x / 2 ^ (64 * j) / 2 ^ (64 - t) := by
    have hexp : 64 * (k + (j + 1)) = 64 * k + t + (64 * j + (64 - t)) := by omega
    rw [hexp, Nat.pow_add 2 (64 * k + t), Nat.mul_comm (val x), Nat.mul_div_mul_left _ _ (Nat.two_pow_pos _),
      Nat.pow_add, Nat.div_div_eq_div_mul]
  have hj : k + (j + 1) - k - 1 = j := by omega
  have hj1 : k + (j + 1) - k = j + 1 := by omega
  have hlow : (if t > 0 ∧ k + (j + 1) ≥ k + 1 then BitVec.ofNat 64 ((wordAt x j).toNat / 2 ^ (64 - t)) else 0).toNat =
      (wordAt x j).toNat / 2 ^ (64 - t) := by
    have hlt := (wordAt x j).isLt
    split
    · rw [BitVec.toNat_ofNat, Nat.mod_eq_of_lt ((Nat.div_le_self _ _).trans_lt hlt)]
    · obtain rfl : t = 0 := by omega
      exact (Nat.div_eq_of_lt hlt).symm
  have hhigh : (wordAt x (j + 1)).toNat * 2 ^ t % 2 ^ 64 = val x / 2 ^ (64 * (j + 1)) * 2 ^ t % 2 ^ 64 := by
    rw [toNat_wordAt, Nat.mod_mul_mod]
  have hsum := window_eq (hi := val x / 2 ^ (64 * (j + 1))) (wordAt x j).isLt (Nat.sub_le 64 t)
  rw [← val_div_two_pow_word, Nat.sub_sub_self ht.le, ← hhigh] at hsum
  rw [hwindow, hsum, shlWordAt, if_pos (by omega), hj, hj1, BitVec.toNat_add, hlow, toNat_wordShl, Nat.add_comm]
  exact Nat.mod_eq_of_lt (hsum ▸ Nat.mod_lt _ (Nat.two_pow_pos 64))

theorem toNat_shlWordAt (x : Fixed) {k t : Nat} (ht : t < 64) (i : Nat) :
    (shlWordAt x k t i).toNat = val x * 2 ^ (64 * k + t) / 2 ^ (64 * i) % 2 ^ 64 := by
  obtain hlt | rfl | hgt := lt_trichotomy i k
  · exact toNat_shlWordAt_of_lt x hlt
  · exact toNat_shlWordAt_self x i t
  · obtain ⟨j, rfl⟩ := Nat.exists_eq_add_of_lt hgt
    exact toNat_shlWordAt_of_gt x ht j

theorem toNat_shrWordAt {l : Nat} {x : Fixed} (hx : x.length = l) {k t i : Nat} (ht : t < 64) (hi : i < l) :
    (shrWordAt l x k t i).toNat = val x / 2 ^ (64 * k + t) / 2 ^ (64 * i) % 2 ^ 64 := by
  have hwindow : val x / 2 ^ (64 * k + t) / 2 ^ (64 * i) = val x / 2 ^ (64 * (i + k)) / 2 ^ t := by
    rw [Nat.div_div_eq_div_mul, Nat.div_div_eq_div_mul, ← Nat.pow_add, ← Nat.pow_add]
    congr 2
    omega
  have hlow : (if i + k ≤ l - 1 then (wordShr (wordAt x (i + k)) t).1 else 0).toNat =
      (wordAt x (i + k)).toNat / 2 ^ t := by
    split
    · exact toNat_wordShr _ _
    · rw [wordAt_of_length_le (by omega)]
      exact (Nat.zero_div _).symm
  have hhigh : (if t > 0 ∧ i + k + 2 ≤ l then BitVec.ofNat 64 ((wordAt x (i + k + 1)).toNat * 2 ^ (64 - t)) else 0).toNat =
      val x / 2 ^ (64 * (i + k + 1)) * 2 ^ (64 - t) % 2 ^ 64 := by
    rw [← Nat.mod_mul_mod, ← toNat_wordAt]
    split
    · exact BitVec.toNat_ofNat _ _
    · next hnot =>
      obtain rfl | hend : t = 0 ∨ l ≤ i + k + 1 := by omega
      · exact (Nat.mul_mod_left _ _).symm
      · rw [wordAt_of_length_le (by omega)]
        exact (congrArg (· % 2 ^ 64) (Nat.zero_mul _)).symm
  have hsum := window_eq (hi := val x / 2 ^ (64 * (i + k + 1))) (wordAt x (i + k)).isLt ht.le
  rw [← val_div_two_pow_word] at hsum
  rw [hwindow, hsum, shrWordAt, BitVec.toNat_add, hlow, hhigh]
  exact Nat.mod_eq_of_lt (hsum ▸ Nat.mod_lt _ (Nat.two_pow_pos 64))

theorem seqShlWords_eq {l : Nat} {x : Fixed} (k : Nat) : seqShlWords l x k = seqShl l x k := by
  unfold seqShlWords seqShl
  split
  · exact (fix_zero l).symm
  · refine eq_fix_of_toNat_wordAt (by simp) fun i hi => ?_
    rw [wordAt_map_range _ hi, toNat_shlWordAt x (Nat.mod_lt _ (by decide)), Nat.div_add_mod]

theorem seqShrWords_eq {l : Nat} {x : Fixed} (hx : x.length = l) (k : Nat) : seqShrWords l x k = seqShr l x k := by
  unfold seqShrWords seqShr
  split
  · exact (fix_zero l).symm
  · refine eq_fix_of_toNat_wordAt (by simp) fun i hi => ?_
    rw [wordAt_map_range _ hi, toNat_shrWordAt hx (Nat.mod_lt _ (by decide)) hi, Nat.div_add_mod]

/-! ## Comparison (R143) -/

theorem cmpFromTop_append {a b : Fixed} (h : a.length = b.length) (x y : Word) :
    cmpFromTop (a ++ [x]) (b ++ [y]) = (cmpFromTop a b).then (cmpFromTop [x] [y]) := by
  induction a generalizing b with
  | nil =>
    obtain rfl : b = [] := List.length_eq_zero_iff.mp h.symm
    rfl
  | cons u us ih =>
    cases b with
    | nil => simp at h
    | cons v vs =>
      rw [List.cons_append, List.cons_append, cmpFromTop, cmpFromTop, ih (by simpa using h)]
      split
      · rfl
      · split <;> rfl

/-- The high words decide first. -/
theorem seqCmp_cons (x y : Word) (xs ys : Fixed) :
    seqCmp (x :: xs) (y :: ys) = (seqCmp xs ys).then (cmpFromTop [x] [y]) := by
  have hx := x.isLt
  have hy := y.isLt
  rw [seqCmp, seqCmp, cmpFromTop, val_cons, val_cons]
  obtain h | h | h := lt_trichotomy (val xs) (val ys)
  · rw [if_pos (by omega), if_pos h]
    rfl
  · rw [h, if_neg (lt_irrefl _), if_pos rfl]
    obtain hw | hw | hw := lt_trichotomy x.toNat y.toNat
    · rw [if_pos (by omega), if_pos hw]
      rfl
    · rw [if_neg (by omega), if_pos (by omega), if_neg (by omega), if_neg (by omega)]
      rfl
    · rw [if_neg (by omega), if_neg (by omega), if_neg (by omega), if_pos hw]
      rfl
  · rw [if_neg (by omega), if_neg (by omega), if_neg (by omega), if_neg (by omega)]
    rfl

theorem seqCmpWords_eq {x y : Fixed} (h : x.length = y.length) : seqCmpWords x y = seqCmp x y := by
  induction x generalizing y with
  | nil =>
    obtain rfl : y = [] := List.length_eq_zero_iff.mp h.symm
    rfl
  | cons a as ih =>
    cases y with
    | nil => simp at h
    | cons b bs =>
      rw [seqCmp_cons, ← ih (by simpa using h), seqCmpWords, List.reverse_cons, List.reverse_cons,
        cmpFromTop_append (by simpa using h), seqCmpWords]

/-! ## The leading-zero scan (R144) -/

theorem wordClz_lt {w : Word} (hw : w ≠ 0) : wordClz w < 64 := by
  have hpos : 0 < bitLen w.toNat := lt_bitLen_iff.mpr (Nat.pos_of_ne_zero (BitVec.toNat_ne.mp hw))
  rw [wordClz]
  omega

/-- A word below `a` is looked at only when every word of `a` is zero. -/
theorem lzFromTop_append (a : Fixed) (w : Word) :
    lzFromTop (a ++ [w]) = if lzFromTop a = 64 * a.length then 64 * a.length + wordClz w else lzFromTop a := by
  induction a with
  | nil =>
    by_cases hw : w = 0#64
    · subst hw
      rfl
    · simp [lzFromTop, hw]
  | cons v vs ih =>
    rw [List.cons_append, lzFromTop, lzFromTop, List.length_cons]
    by_cases hv : v = 0
    · rw [if_pos hv, if_pos hv, ih]
      split <;> split <;> omega
    · have := wordClz_lt hv
      rw [if_neg hv, if_neg hv, if_neg (by omega)]

theorem bitLen_add_word {w v : Nat} (hw : w < 2 ^ 64) (hv : v ≠ 0) : bitLen (w + 2 ^ 64 * v) = 64 + bitLen v := by
  have hpos : 0 < bitLen v := lt_bitLen_iff.mpr (Nat.pos_of_ne_zero hv)
  have hlt : v < 2 ^ bitLen v := bitLen_le_iff.mp le_rfl
  have hle : 2 ^ (bitLen v - 1) ≤ v := lt_bitLen_iff.mp (by omega)
  apply le_antisymm
  · rw [bitLen_le_iff, Nat.pow_add]
    omega
  · have hge : 64 + (bitLen v - 1) < bitLen (w + 2 ^ 64 * v) := by
      rw [lt_bitLen_iff, Nat.pow_add]
      omega
    omega

theorem seqLzWords_eq {l : Nat} {x : Fixed} (hx : x.length = l) : seqLzWords x = seqLz l x := by
  subst hx
  induction x with
  | nil => rfl
  | cons w ws ih =>
    have hbound : seqBitlen ws ≤ 64 * ws.length := seqBitlen_le rfl
    have hcons : seqBitlen (w :: ws) = bitLen (w.toNat + 2 ^ 64 * val ws) := rfl
    have hw := bitLen_toNat_le w
    rw [seqLzWords, seqLz] at ih
    rw [seqLzWords, List.reverse_cons, lzFromTop_append, ih, List.length_reverse, seqLz, List.length_cons, hcons]
    rw [seqBitlen] at hbound ⊢
    obtain hv | hv := eq_or_ne (val ws) 0
    · have hlow : w.toNat + 2 ^ 64 * 0 = w.toNat := rfl
      rw [hv, hlow, bitLen_zero, if_pos (by omega), wordClz]
      omega
    · have hpos : 0 < bitLen (val ws) := lt_bitLen_iff.mpr (Nat.pos_of_ne_zero hv)
      rw [bitLen_add_word w.isLt hv, if_neg (by omega)]
      omega

/-- Settles O49, function by function. -/
theorem wordLevelShiftsAndScansAreExact : Obligations.WordLevelShiftsAndScansAreExact := by
  unfold Obligations.WordLevelShiftsAndScansAreExact
  intro l x y hx hy
  exact ⟨fun k => ⟨seqShlWords_eq k, seqShrWords_eq hx k⟩, seqCmpWords_eq (hx.trans hy.symm), seqLzWords_eq hx⟩

end Sys2Proof.Machine
end

section
/-! Proof that bit-serial long division is Euclidean (R120 to R123). -/

namespace Sys2Proof.Machine

theorem Holds.eq_fix {n v : Nat} {x : Fixed} (h : Holds n x v) : x = fix n v := by
  obtain ⟨hlen, rfl⟩ := h
  exact (fix_val_of_length hlen).symm

/-! ## Setting a quotient bit -/

theorem val_set {x : Fixed} {k : Nat} (hk : k < x.length) (w : Word) :
    val (x.set k w) + 2 ^ (64 * k) * (wordAt x k).toNat = val x + 2 ^ (64 * k) * w.toNat := by
  induction x generalizing k with
  | nil => simp at hk
  | cons a as ih =>
    cases k with
    | zero =>
      rw [List.set_cons_zero, val_cons, val_cons, wordAt, List.getD_cons_zero]
      ring
    | succ k =>
      have hsucc : wordAt (a :: as) (k + 1) = wordAt as k := List.getD_cons_succ
      have hset := ih (k := k) (by simpa using hk)
      rw [List.set_cons_succ, val_cons, val_cons, hsucc, Nat.mul_succ, Nat.add_comm (64 * k), Nat.pow_add]
      linear_combination 2 ^ 64 * hset

/-- Bit `i` is added to a quotient whose bits up to `i` are zero. -/
theorem val_setBit {q : Fixed} {i : Nat} (hi : i < 64 * q.length) (hq : 2 ^ (i + 1) ∣ val q) :
    val (setBit q i) = val q + 2 ^ i := by
  have hbit : i % 64 < 64 := Nat.mod_lt _ (by decide)
  have hexp : 2 ^ i = 2 ^ (64 * (i / 64)) * 2 ^ (i % 64) := by rw [← Nat.pow_add, Nat.div_add_mod]
  have hdvd : 2 ^ (i % 64 + 1) ∣ (wordAt q (i / 64)).toNat := by
    obtain ⟨c, hc⟩ := hq
    have hexp' : 2 ^ (i + 1) = 2 ^ (64 * (i / 64)) * 2 ^ (i % 64 + 1) := by
      rw [← Nat.pow_add, ← Nat.add_assoc, Nat.div_add_mod]
    rw [toNat_wordAt, hc, hexp', Nat.mul_assoc, Nat.mul_div_cancel_left _ (Nat.two_pow_pos _)]
    exact (Nat.dvd_mod_iff (pow_dvd_pow 2 (by omega))).mpr (Nat.dvd_mul_right _ _)
  have hor : (wordAt q (i / 64) ||| BitVec.ofNat 64 (2 ^ (i % 64))).toNat =
      (wordAt q (i / 64)).toNat + 2 ^ (i % 64) := by
    obtain ⟨c, hc⟩ := hdvd
    have hlt : 2 ^ (i % 64) < 2 ^ 64 := Nat.pow_lt_pow_right (by decide) hbit
    have hlt' : 2 ^ (i % 64) < 2 ^ (i % 64 + 1) := Nat.pow_lt_pow_right (by decide) (Nat.lt_succ_self _)
    rw [BitVec.toNat_or, BitVec.toNat_ofNat, Nat.mod_eq_of_lt hlt, hc, Nat.two_pow_add_eq_or_of_lt hlt']
  have hset := val_set (x := q) (k := i / 64) (by omega) (wordAt q (i / 64) ||| BitVec.ofNat 64 (2 ^ (i % 64)))
  rw [hor, Nat.mul_add, ← hexp] at hset
  rw [setBit]
  omega

/-! ## The loop (R120) -/

/-- What holds of R120's running values when the quotient bits from `i` up are decided: they and the remainder make up the
dividend `x`, and the remainder is what the bits below `i` can still take. -/
structure DivInvariant (l dv x i : Nat) (run : DivRun) : Prop where
  qLength : run.q.length = l
  remLength : run.rem.length = l
  tLength : run.t.length = l
  dividend : val run.q * dv + val run.rem = x
  decided : 2 ^ i ∣ val run.q
  remLt : val run.rem < 2 ^ i * dv

theorem divStepWords_of_le {l i : Nat} {run : DivRun} (hrem : run.rem.length = l) (ht : run.t.length = l)
    (h : val run.t ≤ val run.rem) : divStepWords l i run =
      { q := setBit run.q i, rem := (fxSub l run.rem run.t 0).1, t := seqShrWords l run.t 1 } := by
  have hborrow : (fxSub l run.rem run.t 0).2 = 0 := if_neg (by simpa using h)
  have hsub := fxSubWords_eq hrem ht (c := 0) (by decide)
  have h0 : (0 : Word).toNat = 0 := rfl
  rw [h0, hborrow] at hsub
  rw [divStepWords, hsub]
  rfl

theorem divStepWords_of_lt {l i : Nat} {run : DivRun} (hrem : run.rem.length = l) (ht : run.t.length = l)
    (h : val run.rem < val run.t) : divStepWords l i run = { run with t := seqShrWords l run.t 1 } := by
  have hborrow : (fxSub l run.rem run.t 0).2 = 1 := (borrow_fxSub_eq_one ..).mpr h
  have hsub := fxSubWords_eq hrem ht (c := 0) (by decide)
  have h0 : (0 : Word).toNat = 0 := rfl
  rw [h0, hborrow] at hsub
  rw [divStepWords, hsub]
  rfl

theorem length_seqShrWords {l : Nat} {x : Fixed} (hx : x.length = l) (k : Nat) : (seqShrWords l x k).length = l := by
  rw [seqShrWords_eq hx, length_seqShr]

/-- One step decides bit `i`: the shifted divisor `2^i * dv` is taken off when it fits. -/
theorem DivInvariant.step {l dv x i : Nat} {run : DivRun} (h : DivInvariant l dv x (i + 1) run) (hi : i < 64 * l)
    (ht : val run.t = 2 ^ i * dv) :
    DivInvariant l dv x i (divStepWords l i run) ∧ val (divStepWords l i run).t = 2 ^ i * dv / 2 := by
  obtain ⟨hq, hrem, htlen, hdividend, hdecided, hremLt⟩ := h
  have hlen := length_seqShrWords htlen 1
  have hshift : val (seqShrWords l run.t 1) = 2 ^ i * dv / 2 := by
    rw [seqShrWords_eq htlen, val_seqShr htlen, ht, Nat.pow_one]
  have hbelow : 2 ^ i ∣ val run.q := (pow_dvd_pow 2 (Nat.le_succ i)).trans hdecided
  rw [Nat.pow_succ, Nat.mul_comm (2 ^ i), Nat.mul_assoc] at hremLt
  by_cases hle : val run.t ≤ val run.rem
  · have hval : val (setBit run.q i) = val run.q + 2 ^ i := val_setBit (by rwa [hq]) hdecided
    obtain ⟨hsublen, hsub⟩ := holds_fxSub_of_le hrem hle
    rw [divStepWords_of_le hrem htlen hle]
    refine ⟨⟨?_, hsublen, hlen, ?_, ?_, ?_⟩, hshift⟩
    · rwa [setBit, List.length_set]
    · rw [hval, hsub, ht, Nat.add_mul]
      omega
    · rw [hval]
      exact Nat.dvd_add hbelow dvd_rfl
    · rw [hsub, ht]
      omega
  · have hlt := Nat.lt_of_not_le hle
    rw [divStepWords_of_lt hrem htlen hlt]
    exact ⟨⟨hq, hrem, hlen, hdividend, hbelow, ht ▸ hlt⟩, hshift⟩

theorem DivInvariant.loop {l dv x i : Nat} {run : DivRun} (h : DivInvariant l dv x (i + 1) run) (hi : i < 64 * l)
    (ht : val run.t = 2 ^ i * dv) : DivInvariant l dv x 0 (divLoopWords l i run) := by
  induction i generalizing run with
  | zero => exact (h.step hi ht).1
  | succ i ih =>
    obtain ⟨hstep, htstep⟩ := h.step hi ht
    refine ih hstep (by omega) (htstep.trans ?_)
    rw [Nat.pow_succ, Nat.mul_right_comm, Nat.mul_div_cancel _ (by decide)]

/-- With every bit decided the pair is the Euclidean one, because there is only one. -/
theorem DivInvariant.eq_fxDivrem {l : Nat} {x y : Fixed} {run : DivRun} (h : DivInvariant l (val y) (val x) 0 run) :
    (run.q, run.rem) = fxDivrem l x y := by
  obtain ⟨hq, hrem, -, hdividend, -, hlt⟩ := h
  rw [Nat.pow_zero, Nat.one_mul] at hlt
  obtain ⟨hquot, hmod⟩ : val x / val y = val run.q ∧ val x % val y = val run.rem := by
    rw [Nat.div_mod_unique (by omega)]
    exact ⟨by rw [← hdividend]; ring, hlt⟩
  rw [fxDivrem, hquot, hmod, fix_val_of_length hq, fix_val_of_length hrem]

/-- Where the loop starts: the divisor shifted up until its top bit meets the dividend's. -/
theorem divInvariant_start {l : Nat} {x y : Fixed} (hx : x.length = l) (hy : y.length = l) (h0 : val y ≠ 0)
    (hle : seqLz l x ≤ seqLz l y) :
    DivInvariant l (val y) (val x) (seqLz l y - seqLz l x + 1)
      { q := List.replicate l 0, rem := x, t := seqShlWords l y (seqLz l y - seqLz l x) } ∧
    val (seqShlWords l y (seqLz l y - seqLz l x)) = 2 ^ (seqLz l y - seqLz l x) * val y ∧
    seqLz l y - seqLz l x < 64 * l := by
  have hbx : bitLen (val x) ≤ 64 * l := seqBitlen_le hx
  have hby : bitLen (val y) ≤ 64 * l := seqBitlen_le hy
  have hpos : 0 < bitLen (val y) := lt_bitLen_iff.mpr (Nat.pos_of_ne_zero h0)
  have hk : bitLen (val y) + (seqLz l y - seqLz l x) = bitLen (val x) := by
    rw [seqLz, seqLz, seqBitlen, seqBitlen] at *
    omega
  generalize seqLz l y - seqLz l x = k at *
  have hxlt : val x < 2 ^ bitLen (val x) := bitLen_le_iff.mp le_rfl
  have hylt : val y < 2 ^ bitLen (val y) := bitLen_le_iff.mp le_rfl
  have hyge : 2 ^ (bitLen (val y) - 1) ≤ val y := lt_bitLen_iff.mp (by omega)
  have hfits : val y * 2 ^ k < radix l := by
    calc val y * 2 ^ k < 2 ^ bitLen (val y) * 2 ^ k := Nat.mul_lt_mul_of_pos_right hylt (Nat.two_pow_pos k)
      _ = 2 ^ bitLen (val x) := by rw [← Nat.pow_add, hk]
      _ ≤ radix l := Nat.pow_le_pow_right (by decide) hbx
  have hrem : val x < 2 ^ (k + 1) * val y := by
    calc val x < 2 ^ bitLen (val x) := hxlt
      _ = 2 ^ (k + 1) * 2 ^ (bitLen (val y) - 1) := by rw [← Nat.pow_add]; congr 1; omega
      _ ≤ 2 ^ (k + 1) * val y := Nat.mul_le_mul_left _ hyge
  have hzero : val (List.replicate l (0 : Word)) = 0 := val_replicate_zero l
  refine ⟨⟨List.length_replicate, hx, ?_, ?_, ?_, hrem⟩, ?_, by omega⟩
  · rw [seqShlWords_eq, length_seqShl]
  · rw [hzero, Nat.zero_mul, Nat.zero_add]
  · rw [hzero]
    exact Nat.dvd_zero _
  · rw [seqShlWords_eq, val_seqShl, Nat.mod_eq_of_lt hfits, Nat.mul_comm]

/-- R120; a divisor of more bits than the dividend does not fit once, and the loop is not entered. -/
theorem seqDivremWords_eq {l : Nat} {x y : Fixed} (hx : x.length = l) (hy : y.length = l) (h0 : val y ≠ 0) :
    seqDivremWords l x y = fxDivrem l x y := by
  rw [seqDivremWords, seqLzWords_eq hx, seqLzWords_eq hy]
  dsimp only
  split
  · next hle =>
    obtain ⟨hstart, ht, hk⟩ := divInvariant_start hx hy h0 hle
    exact (hstart.loop hk ht).eq_fxDivrem
  · next hlt =>
    have hbits : bitLen (val x) < bitLen (val y) := by
      rw [seqLz, seqLz, seqBitlen, seqBitlen] at hlt
      omega
    have hless : val x < val y := (bitLen_le_iff.mp le_rfl).trans_le (lt_bitLen_iff.mp hbits)
    rw [fxDivrem, Nat.div_eq_of_lt hless, Nat.mod_eq_of_lt hless, fix_val_of_length hx, fix_zero]
    rfl

/-! ## Double width (R123) -/

theorem wideOfWords_fix (n v : Nat) : wideOfWords n (fix (2 * n) v) = wide n v := by
  obtain ⟨hl, hh, hval⟩ := Holds.wideOfWords ⟨length_fix (2 * n) v, val_fix (2 * n) v⟩
  exact eq_wide hl hh (by rw [hval, radix_two_mul])

theorem wideDivremWords_eq {n : Nat} {x : Wide} {m : Fixed} (hl : x.1.length = n) (hh : x.2.length = n)
    (hm : m.length = n) (h0 : val m ≠ 0) : wideDivremWords n x m = wideDivrem n x m := by
  have hext : val (m ++ List.replicate n 0) = val m := by
    have hzero : val (List.replicate n (0 : Word)) = 0 := val_replicate_zero n
    rw [val_append, hzero, Nat.mul_zero, Nat.add_zero]
  have hextlen : (m ++ List.replicate n (0 : Word)).length = 2 * n := by
    rw [List.length_append, hm, List.length_replicate, two_mul]
  have hrun := seqDivremWords_eq (length_wideWords hl hh) hextlen (by rwa [hext])
  rw [fxDivrem, val_wideWords hl, hext] at hrun
  have hrem : (fix (2 * n) (wval n x % val m)).take n = fix n (wval n x % val m) :=
    congrArg Prod.fst (wideOfWords_fix n (wval n x % val m))
  rw [wideDivremWords, hrun, wideDivrem, ← wideOfWords_fix, ← hrem]

/-- Settles O48: R120's loop over N words, and over the 2N words of a wide dividend. -/
theorem bitSerialDivisionIsEuclidean : Obligations.BitSerialDivisionIsEuclidean := by
  unfold Obligations.BitSerialDivisionIsEuclidean
  exact ⟨fun n x y hx hy h0 => seqDivremWords_eq hx hy h0, fun n x m hl hh hm h0 => wideDivremWords_eq hl hh hm h0⟩

end Sys2Proof.Machine
end

section
/-! Proofs of the laws over command sequences (R103, R130, R154, R180 to R182, R196): each command's outcome is the next one's
state, which is well formed again. -/

namespace Sys2Proof.Machine

theorem wf_of_exec {i : Instr} {s t : State} (hs : s.Wf) (h : exec i s = .next t) : t.Wf := (exec_ends h).wf hs

/-- A number has one fixed value of a width. -/
theorem Holds.unique {n v : Nat} {x y : Fixed} (hx : Holds n x v) (hy : Holds n y v) : x = y :=
  hx.eq_fix.trans hy.eq_fix.symm

theorem State.Wf.holds_reg {s : State} (hs : s.Wf) (r : Reg) : Holds s.words (s.reg r) (val (s.reg r)) :=
  ⟨hs.regLength r, rfl⟩

/-! ## Add and subtract (R103) -/

section
variable {r a b : Reg} (d : Reg) {s : State}

theorem subc_undoes_addc (hs : s.Wf) (hrb : r ≠ b) (h : val (s.reg a) + val (s.reg b) < radix s.words) :
    ∃ t u, exec (.addc r a b) s = .next t ∧ exec (.subc d r b) t = .next u ∧ u.reg d = s.reg a ∧
      u.status.fault = s.status.fault := by
  obtain ⟨t, ht, ⟨-, htval⟩, htw⟩ := exists_next_of_setReg_setC
    (exec_addc_of_lt r (hs.regLength a) (hs.regLength b) h) (holds_fxAdd_of_lt h)
  have htb : t.reg b = s.reg b := htw.regs b (by simpa using hrb.symm)
  have hle : val (t.reg b) ≤ val (t.reg r) := by rw [htb, htval]; omega
  obtain ⟨u, hu, hud, huw⟩ := exists_next_of_setReg_setC (exec_subc_of_le d hle)
    (holds_fxSub_of_le ((wf_of_exec hs ht).regLength r) hle)
  rw [htb, htval, Nat.add_sub_cancel, htw.words] at hud
  refine ⟨t, u, ht, hu, hud.unique (hs.holds_reg a), ?_⟩
  rw [huw.status, htw.status]

theorem subw_undoes_addw (hs : s.Wf) (hrb : r ≠ b) :
    ∃ t u, exec (.addw r a b) s = .next t ∧ exec (.subw d r b) t = .next u ∧ u.reg d = s.reg a := by
  obtain ⟨t, ht, ⟨-, htval⟩, htw⟩ := exists_next_of_setReg_setC (exec_addw r (hs.regLength a) (hs.regLength b))
    (holds_fxAdd ..)
  have htb : t.reg b = s.reg b := htw.regs b (by simpa using hrb.symm)
  obtain ⟨u, hu, hud, -⟩ := exists_next_of_setReg_setC (exec_subw d r b t) (holds_fxSub ..)
  have hback : (((val (s.reg a) + val (s.reg b)) % radix s.words : Nat) - (val (s.reg b) : Int)) % radix s.words =
      val (s.reg a) := by
    have hlt := val_lt_of_length (hs.regLength a)
    rw [Int.natCast_mod, Int.emod_sub_emod, Nat.cast_add, add_sub_cancel_right, Int.emod_eq_of_lt] <;> omega
  rw [htb, htval, htw.words, hback, Int.toNat_natCast] at hud
  exact ⟨t, u, ht, hu, hud.unique (hs.holds_reg a)⟩

end

/-- Settles O51: the second operand is still in its register. -/
theorem subtractUndoesAdd : Obligations.SubtractUndoesAdd := by
  unfold Obligations.SubtractUndoesAdd
  exact fun r d a b s hs hrb => ⟨subc_undoes_addc d hs hrb, subw_undoes_addw d hs hrb⟩

/-! ## The division identity (R130) -/

theorem exists_next_divrem {q r a b : Reg} {s : State} (hs : s.Wf) (hqr : q ≠ r) (hb : val (s.reg b) ≠ 0) :
    ∃ t, exec (.divrem q r a b) s = .next t ∧ val (t.reg q) = val (s.reg a) / val (s.reg b) ∧
      val (t.reg r) = val (s.reg a) % val (s.reg b) ∧ Writes s t [q, r] s.status := by
  obtain ⟨⟨-, hquot⟩, -, hrem⟩ := holds_fxDivrem (hs.regLength a) (s.reg b)
  refine ⟨_, exec_divrem_of_ne_zero hqr a hb, ?_, ?_, (writes_setReg s q _).setReg r _⟩
  · rw [State.reg_setReg_of_ne _ _ hqr, State.reg_setReg_self, hquot]
  · rw [State.reg_setReg_self, hrem]

/-- Settles O52: the product is at most the dividend and the sum is the dividend, so neither overflows. -/
theorem divisionIdentityHoldsInCommands : Obligations.DivisionIdentityHoldsInCommands := by
  unfold Obligations.DivisionIdentityHoldsInCommands
  intro q r a b p s hs hfault hb hqr hqb hrb hpr hpb
  have hdiv : val (s.reg a) / val (s.reg b) * val (s.reg b) + val (s.reg a) % val (s.reg b) = val (s.reg a) :=
    Nat.div_add_mod' _ _
  have hlt := val_lt_of_length (hs.regLength a)
  obtain ⟨s1, h1, hq1, hr1, hw1⟩ := exists_next_divrem (a := a) hs hqr hb
  have hs1 := wf_of_exec hs h1
  have hb1 : s1.reg b = s.reg b := hw1.regs b (by simp [hqb.symm, hrb.symm])
  have hprod : val (s1.reg q) * val (s1.reg b) < radix s1.words := by rw [hq1, hb1, hw1.words]; omega
  obtain ⟨s2, h2, ⟨-, hp2⟩, hw2⟩ := exists_next_of_setReg
    (exec_mulc_of_lt p (hs1.regLength q) (hs1.regLength b) hprod) (holds_fxMul_fst_of_lt hprod)
  have hs2 := wf_of_exec hs1 h2
  have hr2 : s2.reg r = s1.reg r := hw2.regs r (by simpa using hpr.symm)
  have hb2 : s2.reg b = s1.reg b := hw2.regs b (by simpa using hpb.symm)
  rw [hq1, hb1] at hp2
  have hsum : val (s2.reg p) + val (s2.reg r) < radix s2.words := by
    rw [hp2, hr2, hr1, hw2.words, hw1.words]; omega
  obtain ⟨s3, h3, hp3, hw3⟩ := exists_next_of_setReg_setC
    (exec_addc_of_lt p (hs2.regLength p) (hs2.regLength r) hsum) (holds_fxAdd_of_lt hsum)
  have hs3 := wf_of_exec hs2 h3
  have hr3 : s3.reg r = s2.reg r := hw3.regs r (by simpa using hpr.symm)
  have hb3 : s3.reg b = s2.reg b := hw3.regs b (by simpa using hpb.symm)
  rw [hp2, hr2, hr1, hdiv, hw2.words, hw1.words] at hp3
  refine ⟨s1, s2, s3, _, h1, h2, h3, exec_cmp (hs3.regLength r) (hs3.regLength b), hp3.unique (hs.holds_reg a),
    decide_eq_true ?_, ?_⟩
  · rw [hr3, hb3, hr2, hb2, hr1, hb1]
    exact Nat.mod_lt _ (Nat.pos_of_ne_zero hb)
  · dsimp only
    rw [hw3.status, hw2.status, hw1.status]
    exact hfault

/-! ## Shifts (R154) -/

/-- A value with `k` leading zeros times `2^k` still fits. -/
theorem mul_two_pow_lt_of_le_seqLz {l k : Nat} {x : Fixed} (hx : x.length = l) (hk : k ≤ seqLz l x) :
    val x * 2 ^ k < radix l := by
  have hbits : bitLen (val x) ≤ 64 * l := seqBitlen_le hx
  have hsum : bitLen (val x) + k ≤ 64 * l := by
    rw [seqLz, seqBitlen] at hk
    omega
  calc val x * 2 ^ k < 2 ^ bitLen (val x) * 2 ^ k :=
        Nat.mul_lt_mul_of_pos_right (bitLen_le_iff.mp le_rfl) (Nat.two_pow_pos k)
    _ = 2 ^ (bitLen (val x) + k) := (Nat.pow_add _ _ _).symm
    _ ≤ radix l := Nat.pow_le_pow_right (by decide) hsum

/-- Settles O53: shifting there and back recovers the source exactly when nothing is lost. -/
theorem shiftRoundTripsRecoverTheSource : Obligations.ShiftRoundTripsRecoverTheSource := by
  unfold Obligations.ShiftRoundTripsRecoverTheSource
  intro r d a k s hs
  have ha := hs.regLength a
  refine ⟨fun hk => ⟨_, _, exec_shlo r k ha, ?_, exec_shrw d r k _, ?_⟩, _, _, exec_shrw r a k s, exec_shlw d r k _, ?_⟩
  · exact decide_eq_false (Nat.not_le.mpr (mul_two_pow_lt_of_le_seqLz ha hk))
  · rw [State.reg_setReg_self, State.reg_setV, State.reg_setReg_self]
    exact (seqShr_seqShl_eq_iff ha _).mpr (mul_two_pow_lt_of_le_seqLz ha hk)
  · rw [State.reg_setReg_self, State.reg_setReg_self]
    exact seqShl_seqShr_eq_iff ha _

/-! ## Montgomery round trip and product (R180, R181) -/

/-- Settles O54: out of Montgomery form again. -/
theorem montgomeryRoundTripReduces : Obligations.MontgomeryRoundTripReduces := by
  unfold Obligations.MontgomeryRoundTripReduces
  intro r d a s hs h
  have hp := hs.derived h
  obtain ⟨hlen, hval⟩ := holds_toMonty hp (hs.regLength a)
  refine ⟨_, _, exec_tomont r a h, exec_frommont d r h, ?_⟩
  rw [State.reg_setReg_self, State.reg_setReg_self]
  refine holds_normalize hp hlen ?_
  rw [hval]
  exact Nat.mod_modEq _ _

/-- Settles O55: the two forms of the path are those of the values converted last into `x` and `y`. -/
theorem montgomeryMultiplyMatchesMulmod : Obligations.MontgomeryMultiplyMatchesMulmod := by
  unfold Obligations.MontgomeryMultiplyMatchesMulmod
  intro x y z d a b m s hs h hm
  have hp := hs.derived h
  have hmod : val (s.reg m) ≠ 0 := by
    rw [hm]
    exact (val_derived_pos hp).ne'
  set s1 := s.setReg x (toMonty s.words s.mp (s.reg a)) with hs1
  set s2 := s1.setReg y (toMonty s.words s.mp (s1.reg b)) with hs2
  set s3 := s2.setReg z (montyMul s.words s.mp (s2.reg x) (s2.reg y)) with hs3
  have hs1wf := wf_of_exec hs (exec_tomont x a h)
  have hformB := holds_toMonty hp (hs1wf.regLength b)
  have hy : Holds s.words (s2.reg y) (val (s1.reg b) * radix s.words % val s.mp.n) := by
    rw [hs2, State.reg_setReg_self]
    exact hformB
  have hx : Holds s.words (s2.reg x)
      ((if x = y then val (s1.reg b) else val (s.reg a)) * radix s.words % val s.mp.n) := by
    rw [hs2, State.reg_setReg]
    split
    · exact hformB
    · rw [hs1, State.reg_setReg_self]
      exact holds_toMonty hp (hs.regLength a)
  obtain ⟨hzlen, hz⟩ := holds_montyMul hp hx hy
  have hd : Holds s.words (normalize s.words s.mp (s3.reg z))
      ((if x = y then val (s1.reg b) else val (s.reg a)) * val (s1.reg b) % val s.mp.n) := by
    rw [hs3, State.reg_setReg_self]
    refine holds_normalize hp hzlen ?_
    rw [hz]
    exact Nat.mod_modEq _ _
  refine ⟨s1, s2, s3, _, _, exec_tomont x a h, exec_tomont y b h, exec_mmul z x y h, exec_frommont d z h,
    exec_mulmod_of_ne_zero d a b hmod, fun hxb hxy => ?_, ?_⟩
  · have hs1b : s1.reg b = s.reg b := State.reg_setReg_of_ne _ _ hxb.symm
    rw [if_neg hxy, hs1b, ← hm] at hd
    rw [State.reg_setReg_self s3 d, State.reg_setReg_self s d, ← hm]
    exact ⟨hd.unique (holds_mulMod (hs.regLength a) (hs.regLength b) (hs.regLength m) hmod), hd.2⟩
  · rw [State.reg_setReg_self]
    exact hd.2

/-! ## The inverse times its source (R182) -/

/-- Shifting up and down by `64*l - k` keeps the low `k` bits. -/
theorem val_seqShr_seqShl {l k : Nat} (x : Fixed) (hk : k ≤ 64 * l) :
    val (seqShr l (seqShl l x (64 * l - k)) (64 * l - k)) = val x % 2 ^ k := by
  have hradix : radix l = 2 ^ k * 2 ^ (64 * l - k) := by rw [radix, ← Nat.pow_add, Nat.add_sub_cancel' hk]
  rw [val_seqShr (length_seqShl ..), val_seqShl, hradix, Nat.mul_mod_mul_right,
    Nat.mul_div_cancel _ (Nat.two_pow_pos _)]

/-- Settles O56: the low `k` bits of the wrapped product are those of the exact one, because `2^k` divides `RADIX`. -/
theorem inverseTimesSourceIsOneInCommands : Obligations.InverseTimesSourceIsOneInCommands := by
  unfold Obligations.InverseTimesSourceIsOneInCommands
  intro d a r k s hs had h1 h2 hodd
  obtain ⟨x, hx, hlen, -, hinv⟩ := exists_inv2k hodd h1 h2
  have hcount : (BitVec.ofNat 16 (64 * s.words - k.toNat)).toNat = 64 * s.words - k.toNat := by
    have hmax : s.words ≤ 1023 := hs.maxWidth
    rw [BitVec.toNat_ofNat]
    omega
  have hs1a : ((s.setReg d x).setNr false).reg a = s.reg a := State.reg_setReg_of_ne s x had
  have hs1d : ((s.setReg d x).setNr false).reg d = x := State.reg_setReg_self s d x
  have hwords : ((s.setReg d x).setNr false).words = s.words := rfl
  refine ⟨_, _, _, _, exec_inv2k_of_some h1 h2 hx, exec_mulw r a d _, exec_shlw r r _ _, exec_shrw r r _ _, ?_⟩
  simp only [State.reg_setReg_self, State.setReg_words, hwords, hs1a, hs1d, hcount]
  rw [val_seqShr_seqShl _ h2, (holds_fxMul_fst ..).2, radix, Nat.mod_mod_of_dvd _ (pow_dvd_pow 2 h2), hinv]

/-! ## The two exponentiation pipelines (R196) -/

/-- Settles O57: both values are the power modulo the bank's modulus. -/
theorem theTwoExponentiationPipelinesAgree : Obligations.TheTwoExponentiationPipelinesAgree := by
  unfold Obligations.TheTwoExponentiationPipelinesAgree
  intro d a b m s hs h hm
  have hp := hs.derived h
  have h0 : val (s.reg m) ≠ 0 := by
    rw [hm]
    exact (val_derived_pos hp).ne'
  have hmexp := holds_mexpMonty hs.minWidth hp (hs.regLength a) (s.reg b)
  have hmod := holds_modExp (e := s.reg b) hs.minWidth (hs.regLength a) (hs.regLength m) h0
  rw [← hm] at hmexp ⊢
  refine ⟨_, _, exec_mexpm d a b h, exec_modexp_of_ne_zero d a b h0, ?_⟩
  rw [State.reg_setReg_self, State.reg_setReg_self]
  exact ⟨hmexp.unique hmod, hmexp⟩

end Sys2Proof.Machine
end

section
/-! Proofs of the host software: the three gcd algorithms (R206 to R208, R211), the modular inverse (R209) and decimal text
(R212, R214, R216). -/

namespace Sys2Proof.Machine

/-! ## Euclid (R206) -/

theorem val_gcdLoop {n fuel : Nat} {a b : Fixed} (ha : a.length = n) (hb : b.length = n) (hfuel : val b < fuel) :
    val (gcdLoop n fuel a b) = Nat.gcd (val a) (val b) := by
  induction fuel generalizing a b with
  | zero => omega
  | succ fuel ih =>
    rw [gcdLoop]
    split
    · next h0 => rw [h0, Nat.gcd_zero_right]
    · next h0 =>
      obtain ⟨-, hlen, hrem⟩ := holds_fxDivrem ha b
      have hlt : val a % val b < val b := Nat.mod_lt _ (Nat.pos_of_ne_zero h0)
      rw [ih hb hlen (by omega), hrem, Nat.gcd_comm, ← Nat.gcd_rec, Nat.gcd_comm]

/-! ## Binary gcd (R207) -/

theorem tzLoop_spec {fuel v : Nat} (h0 : v ≠ 0) (hv : v < 2 ^ fuel) :
    ∃ o, v = 2 ^ tzLoop fuel v * o ∧ o % 2 = 1 := by
  induction fuel generalizing v with
  | zero => omega
  | succ fuel ih =>
    rw [tzLoop]
    split
    · next hodd => exact ⟨v, by simp, hodd⟩
    · next heven =>
      obtain ⟨o, ho, hodd⟩ := ih (v := v / 2) (by omega) (by rw [Nat.pow_succ] at hv; omega)
      refine ⟨o, ?_, hodd⟩
      rw [Nat.add_comm, Nat.pow_succ, Nat.mul_right_comm, ← ho]
      omega

theorem stripTz_spec {n : Nat} {x : Fixed} (hx : x.length = n) (h0 : val x ≠ 0) :
    (stripTz n x).length = n ∧ val x = 2 ^ tz x * val (stripTz n x) ∧ val (stripTz n x) % 2 = 1 := by
  obtain ⟨o, ho, hodd⟩ := tzLoop_spec h0 (bitLen_le_iff.mp (le_refl (bitLen (val x))))
  have htz : tzLoop (bitLen (val x)) (val x) = tz x := rfl
  have hval : val (stripTz n x) = o := by
    rw [stripTz, val_seqShr hx, Nat.div_eq_of_eq_mul_right (Nat.two_pow_pos _) (htz ▸ ho)]
  rw [hval]
  exact ⟨length_seqShr .., htz ▸ ho, hodd⟩

/-- A power of two is no common factor with an odd number. -/
theorem gcd_two_pow_mul {k a b : Nat} (hb : b % 2 = 1) : Nat.gcd (2 ^ k * a) b = Nat.gcd a b :=
  Nat.Coprime.gcd_mul_left_cancel a (Nat.Coprime.pow_left k (Nat.coprime_two_left.mpr (Nat.odd_iff.mpr hb)))

/-- One step: the difference of two odd numbers, stripped. -/
theorem stripTz_fxSub_spec {n : Nat} {u v : Fixed} (hu : u.length = n) (hv : val v % 2 = 1) (hlt : val v < val u) :
    (stripTz n (fxSub n u v 0).1).length = n ∧ val (stripTz n (fxSub n u v 0).1) % 2 = 1 ∧
    val (stripTz n (fxSub n u v 0).1) < val u ∧
    Nat.gcd (val (stripTz n (fxSub n u v 0).1)) (val v) = Nat.gcd (val u) (val v) := by
  obtain ⟨hlen, hsub⟩ := holds_fxSub_of_le hu hlt.le
  obtain ⟨hslen, hsval, hodd⟩ := stripTz_spec hlen (by omega)
  rw [hsub] at hsval
  have hle : val (stripTz n (fxSub n u v 0).1) ≤ val u - val v := by
    rw [hsval]
    exact Nat.le_mul_of_pos_left _ (Nat.two_pow_pos _)
  refine ⟨hslen, hodd, by omega, ?_⟩
  rw [← gcd_two_pow_mul (k := tz (fxSub n u v 0).1) hv, ← hsval, Nat.gcd_sub_self_left hlt.le]

theorem val_bgcdLoop {n fuel : Nat} {u v : Fixed} (hu : u.length = n) (hv : v.length = n) (hu1 : val u % 2 = 1)
    (hv1 : val v % 2 = 1) (hfuel : val u + val v ≤ fuel) : val (bgcdLoop n fuel u v) = Nat.gcd (val u) (val v) := by
  induction fuel generalizing u v with
  | zero => omega
  | succ fuel ih =>
    rw [bgcdLoop]
    obtain hlt | heq | hgt := lt_trichotomy (val u) (val v)
    · rw [(seqCmp_eq_lt u v).mpr hlt]
      obtain ⟨hlen, hodd, hless, hgcd⟩ := stripTz_fxSub_spec hv hu1 hlt
      exact (ih hu hlen hu1 hodd (by omega)).trans (by rw [Nat.gcd_comm, hgcd, Nat.gcd_comm])
    · rw [(seqCmp_eq_eq u v).mpr heq]
      exact (heq ▸ (Nat.gcd_self _).symm : val u = Nat.gcd (val u) (val v))
    · have hcmp : seqCmp u v = .gt := by
        rw [seqCmp, if_neg (by omega), if_neg (by omega)]
      rw [hcmp]
      obtain ⟨hlen, hodd, hless, hgcd⟩ := stripTz_fxSub_spec hu hv1 hgt
      exact (ih hlen hv hodd hv1 (by omega)).trans hgcd

/-- The common power of two is the smaller one. -/
theorem gcd_two_pow_mul_two_pow_mul {j k a b : Nat} (ha : a % 2 = 1) (hb : b % 2 = 1) :
    Nat.gcd (2 ^ j * a) (2 ^ k * b) = 2 ^ min j k * Nat.gcd a b := by
  obtain h | h := le_total j k
  · rw [min_eq_left h, ← Nat.add_sub_cancel' h, Nat.pow_add, Nat.mul_assoc, Nat.gcd_mul_left, Nat.gcd_comm a,
      gcd_two_pow_mul ha, Nat.gcd_comm]
  · rw [min_eq_right h, ← Nat.add_sub_cancel' h, Nat.pow_add, Nat.mul_assoc, Nat.gcd_mul_left, gcd_two_pow_mul hb]

theorem val_bgcd {n : Nat} {a b : Fixed} (ha : a.length = n) (hb : b.length = n) :
    val (bgcd n a b) = Nat.gcd (val a) (val b) := by
  rw [bgcd]
  split
  · next h => rw [h, Nat.gcd_zero_left]
  split
  · next h => rw [h, Nat.gcd_zero_right]
  next ha0 hb0 =>
  obtain ⟨halen, haval, haodd⟩ := stripTz_spec ha ha0
  obtain ⟨hblen, hbval, hbodd⟩ := stripTz_spec hb hb0
  have hale : val (stripTz n a) ≤ val a := by
    conv_rhs => rw [haval]
    exact Nat.le_mul_of_pos_left _ (Nat.two_pow_pos _)
  have hble : val (stripTz n b) ≤ val b := by
    conv_rhs => rw [hbval]
    exact Nat.le_mul_of_pos_left _ (Nat.two_pow_pos _)
  have hgcd : Nat.gcd (val a) (val b) = 2 ^ min (tz a) (tz b) * Nat.gcd (val (stripTz n a)) (val (stripTz n b)) := by
    rw [← gcd_two_pow_mul_two_pow_mul haodd hbodd, ← haval, ← hbval]
  have hlt : Nat.gcd (val a) (val b) < radix n :=
    (Nat.gcd_le_left _ (Nat.pos_of_ne_zero ha0)).trans_lt (val_lt_of_length ha)
  rw [val_seqShl, val_bgcdLoop halen hblen haodd hbodd (by omega), Nat.mul_comm, ← hgcd, Nat.mod_eq_of_lt hlt]

/-! ## Extended Euclid (R208) -/

/-- Each remainder is its combination of the operands. -/
theorem extEuclidLoop_spec {a b : Int} {fuel r0 r1 : Nat} {x0 x1 y0 y1 : Int} (h0 : a * x0 + b * y0 = r0)
    (h1 : a * x1 + b * y1 = r1) (hfuel : r1 < fuel) :
    (extEuclidLoop fuel r0 r1 x0 x1 y0 y1).1 = Nat.gcd r0 r1 ∧
    a * (extEuclidLoop fuel r0 r1 x0 x1 y0 y1).2.1 + b * (extEuclidLoop fuel r0 r1 x0 x1 y0 y1).2.2 = Nat.gcd r0 r1 := by
  induction fuel generalizing r0 r1 x0 x1 y0 y1 with
  | zero => omega
  | succ fuel ih =>
    rw [extEuclidLoop]
    split
    · next hr =>
      subst hr
      rw [Nat.gcd_zero_right]
      exact ⟨rfl, h0⟩
    · next hr =>
      have hdiv : ((r0 % r1 : Nat) : Int) = r0 - (r0 / r1 : Nat) * r1 := by
        have := Nat.div_add_mod' r0 r1
        zify at this
        push_cast
        linarith
      have hlt : r0 % r1 < r1 := Nat.mod_lt _ (Nat.pos_of_ne_zero hr)
      have hgcd : Nat.gcd r1 (r0 % r1) = Nat.gcd r0 r1 := by rw [Nat.gcd_comm, ← Nat.gcd_rec, Nat.gcd_comm]
      rw [← hgcd]
      refine ih h1 ?_ (by omega)
      rw [hdiv]
      linear_combination h0 - (r0 / r1 : Nat) * h1

/-- Settles O59, algorithm by algorithm. -/
theorem theThreeGcdAlgorithmsAgree : Obligations.TheThreeGcdAlgorithmsAgree := by
  unfold Obligations.TheThreeGcdAlgorithmsAgree
  intro n a b ha hb
  obtain ⟨hgcd, hbezout⟩ := extEuclidLoop_spec (a := val a) (b := val b) (r0 := val a) (r1 := val b) (x0 := 1) (x1 := 0)
    (y0 := 0) (y1 := 1) (by ring) (by ring) (Nat.lt_succ_self _)
  exact ⟨val_gcdLoop ha hb (Nat.lt_succ_self _), val_bgcd ha hb, hgcd, hbezout⟩

end Sys2Proof.Machine
end

section
/-! Proofs of the modular inverse for a general modulus (R209) and of the decimal round trip (R212, R214, R216). -/

namespace Sys2Proof.Machine

/-! ## The modular inverse (R209) -/

section
variable {n : Nat} {m : Fixed}

/-- R209: the step subtracts modulo `m`; when the subtraction wraps, adding the modulus wraps it back. -/
theorem modInvStep_spec {t0 p : Fixed} (hm : m.length = n) (ht0 : t0.length = n) (hp : val p < val m) :
    (modInvStep n m t0 p).length = n ∧ val (modInvStep n m t0 p) + val p ≡ val t0 [MOD val m] := by
  have hlt0 := val_lt_of_length ht0
  have hltm := val_lt_of_length hm
  rw [modInvStep]
  split
  · next hcmp =>
    rw [seqCmp_eq_lt] at hcmp
    have hsub : val (fxSub n t0 p 0).1 = val t0 + radix n - val p := by
      have h := val_fxSub n t0 p 0
      rw [← Int.add_emod_right, Int.emod_eq_of_lt] at h <;> omega
    have hadd := (holds_fxAdd n (fxSub n t0 p 0).1 m).2
    have hwrap : (val t0 + radix n - val p + val m) % radix n = val t0 + val m - val p := by
      rw [show val t0 + radix n - val p + val m = val t0 + val m - val p + radix n by omega, Nat.add_mod_right,
        Nat.mod_eq_of_lt (by omega)]
    rw [hsub, hwrap] at hadd
    refine ⟨length_fxAdd .., ?_⟩
    rw [hadd, Nat.sub_add_cancel (by omega)]
    exact Nat.add_mod_right _ _
  · next hcmp =>
    rw [seqCmp_eq_lt, not_lt] at hcmp
    obtain ⟨hlen, hval⟩ := holds_fxSub_of_le ht0 hcmp
    exact ⟨hlen, by rw [hval, Nat.sub_add_cancel hcmp]⟩

/-- R209: the next coefficient, for the next remainder. -/
theorem modInv_coefficient {A M r0 r1 t0 t1 t2 : Nat} (hc0 : A * t0 ≡ r0 [MOD M]) (hc1 : A * t1 ≡ r1 [MOD M])
    (hstep : t2 + r0 / r1 * t1 % M ≡ t0 [MOD M]) : A * t2 ≡ r0 % r1 [MOD M] := by
  refine Nat.ModEq.add_right_cancel' (r0 / r1 * r1) ?_
  calc A * t2 + r0 / r1 * r1 ≡ A * t2 + r0 / r1 * (A * t1) [MOD M] := (hc1.symm.mul_left _).add_left _
    _ = A * (t2 + r0 / r1 * t1) := by ring
    _ ≡ A * (t2 + r0 / r1 * t1 % M) [MOD M] := ((Nat.mod_modEq _ _).symm.add_left _).mul_left _
    _ ≡ A * t0 [MOD M] := hstep.mul_left _
    _ ≡ r0 [MOD M] := hc0
    _ = r0 % r1 + r0 / r1 * r1 := (Nat.mod_add_div' _ _).symm

/-- R209's invariant: each remainder is its coefficient's multiple of the operand `A`, modulo `m`. -/
theorem modInvLoop_spec {A fuel : Nat} {r0 r1 t0 t1 : Fixed} (hm : m.length = n) (h0 : val m ≠ 0) (hr0 : r0.length = n)
    (hr1 : r1.length = n) (ht0 : t0.length = n) (ht1 : t1.length = n) (hc0 : A * val t0 ≡ val r0 [MOD val m])
    (hc1 : A * val t1 ≡ val r1 [MOD val m]) (hfuel : val r1 < fuel) :
    (Nat.gcd (val r0) (val r1) = 1 →
      ∃ t, modInvLoop n m fuel r0 r1 t0 t1 = .value t ∧ t.length = n ∧ A * val t ≡ 1 [MOD val m]) ∧
    (Nat.gcd (val r0) (val r1) ≠ 1 → modInvLoop n m fuel r0 r1 t0 t1 = .noResult) := by
  induction fuel generalizing r0 r1 t0 t1 with
  | zero => omega
  | succ fuel ih =>
    rw [modInvLoop]
    by_cases hend : val r1 = 0
    · rw [if_pos hend, hend, Nat.gcd_zero_right]
      exact ⟨fun h1 => ⟨t0, if_pos h1, ht0, h1 ▸ hc0⟩, fun h1 => if_neg h1⟩
    · rw [if_neg hend, if_neg h0]
      obtain ⟨⟨hqlen, hq⟩, hremlen, hrem⟩ := holds_fxDivrem hr0 r1
      have hpval := val_mulMod hqlen ht1 hm h0
      obtain ⟨hslen, hstep⟩ := modInvStep_spec (p := mulMod n (fxDivrem n r0 r1).1 t1 m) hm ht0
        (hpval ▸ Nat.mod_lt _ (Nat.pos_of_ne_zero h0))
      have hgcd : Nat.gcd (val r1) (val r0 % val r1) = Nat.gcd (val r0) (val r1) := by
        rw [Nat.gcd_comm, ← Nat.gcd_rec, Nat.gcd_comm]
      have hlt : val r0 % val r1 < val r1 := Nat.mod_lt _ (Nat.pos_of_ne_zero hend)
      generalize modInvStep n m t0 (mulMod n (fxDivrem n r0 r1).1 t1 m) = t2 at *
      rw [hpval, hq] at hstep
      have hc2 := modInv_coefficient hc0 hc1 hstep
      rw [← hrem] at hc2 hlt hgcd
      rw [← hgcd]
      exact ih hr1 hremlen ht1 hslen hc1 hc2 (by omega)

end

/-- Settles O58: the loop ends in an inverse exactly when the gcd is 1; the guards of a zero modulus are read off. -/
theorem modInvReturnsTheInverseOrNone : Obligations.ModInvReturnsTheInverseOrNone := by
  unfold Obligations.ModInvReturnsTheInverseOrNone
  intro n a m hn ha hm
  obtain ⟨honelen, hone⟩ := holds_fix_one hn
  have hloop (h0 : val m ≠ 0) := modInvLoop_spec (A := val a) (t0 := fix n 0) (t1 := fix n 1) hm h0 hm ha (length_fix _ _)
    honelen (by rw [val_fix, Nat.zero_mod, Nat.mul_zero]; exact (Nat.mod_self _).symm) (by rw [hone, Nat.mul_one])
    (Nat.lt_succ_self (val a))
  refine ⟨fun h0 hgcd => ?_, fun h0 hgcd => ?_, fun h0 ha0 => ?_, fun h0 ha0 => ?_⟩
  · obtain ⟨t, ht, htlen, hinv⟩ := (hloop h0).1 (by rwa [Nat.gcd_comm])
    obtain ⟨-, hlen, hval⟩ := holds_fxDivrem htlen m
    refine ⟨_, modInv_of_loop ht, hlen, ?_, ?_⟩
    · rw [hval]
      exact Nat.mod_lt _ (Nat.pos_of_ne_zero h0)
    · rw [hval, Nat.mul_mod_mod]
      exact hinv
  · exact modInv_of_no_result ((hloop h0).2 (by rwa [Nat.gcd_comm]))
  · rw [modInv, modInvLoop_of_zero_modulus h0 ha0]
  · exact modInv_of_no_result (by simp [modInvLoop, h0, ha0])

/-! ## Decimal text (R212, R214) -/

theorem digitValue_digitChar : ∀ d < 10, digitValue (digitChar d) = some d := by decide

section
variable {n : Nat}

theorem holds_fix_small (hn : 1 ≤ n) {v : Nat} (hv : v ≤ 10) : Holds n (fix n v) v := by
  refine holds_fix (lt_of_le_of_lt hv ?_)
  calc 10 < 2 ^ 64 := by decide
    _ ≤ radix n := Nat.pow_le_pow_right (by decide) (by omega)

/-- R214: one digit that does not overflow. -/
theorem parseLoop_cons (hn : 1 ≤ n) {q : Fixed} (hq : q.length = n) {d : Nat} (hd : d < 10)
    (hfits : val q * 10 + d < radix n) (rest : List Char) :
    parseLoop n (digitChar d :: rest) q = parseLoop n rest (fix n (val q * 10 + d)) := by
  obtain ⟨htenlen, hten⟩ := holds_fix_small hn le_rfl
  obtain ⟨hdlen, hdval⟩ := holds_fix_small hn hd.le
  have hprod : val q * val (fix n 10) < radix n := by rw [hten]; omega
  obtain ⟨hmullen, hmul⟩ := holds_fxMul_fst_of_lt hprod
  have hsum : val (fxMul n q (fix n 10)).1 + val (fix n d) < radix n := by rw [hmul, hten, hdval]; exact hfits
  have hnocarry := (carry_fxAdd_eq_one hmullen hdlen).not.mpr (Nat.not_le.mpr hsum)
  have hnohigh := (val_fxMul_snd_ne_zero_iff hq htenlen).not.mpr (Nat.not_le.mpr hprod)
  have hacc := (holds_fxAdd_of_lt hsum).eq_fix
  rw [hmul, hten, hdval] at hacc
  simp only [parseLoop, digitValue_digitChar d hd, if_neg hnohigh, if_neg hnocarry, hacc]

/-- R212: the digits of a nonzero value are its last digit and the digits of its tenth. -/
theorem decimalDigits_succ (hn : 1 ≤ n) {x : Fixed} (hx : x.length = n) (h0 : val x ≠ 0) (fuel : Nat) :
    decimalDigits n (fuel + 1) x = digitChar (val x % 10) :: decimalDigits n fuel (fix n (val x / 10)) := by
  obtain ⟨-, hten⟩ := holds_fix_small hn le_rfl
  obtain ⟨hq, -, hr⟩ := holds_fxDivrem hx (fix n 10)
  have hq := hq.eq_fix
  rw [hten] at hq hr
  rw [decimalDigits, if_neg h0, hq, hr]

theorem holds_fix_div {x : Fixed} (hx : x.length = n) (k : Nat) : Holds n (fix n (val x / k)) (val x / k) :=
  holds_fix ((Nat.div_le_self _ _).trans_lt (val_lt_of_length hx))

/-- The digits of `x`, read from the first, leave `x` in the accumulator. -/
theorem parseLoop_decimalDigits (hn : 1 ≤ n) {fuel : Nat} {x : Fixed} (hx : x.length = n) (hfuel : val x ≤ fuel)
    (rest : List Char) : parseLoop n ((decimalDigits n fuel x).reverse ++ rest) (fix n 0) = parseLoop n rest x := by
  induction fuel generalizing x rest with
  | zero =>
    have hzero : x = fix n 0 := Holds.eq_fix ⟨hx, by omega⟩
    rw [hzero]
    rfl
  | succ fuel ih =>
    by_cases h0 : val x = 0
    · have hzero : x = fix n 0 := Holds.eq_fix ⟨hx, h0⟩
      rw [decimalDigits, if_pos h0, hzero]
      rfl
    · obtain ⟨hlen, hval⟩ := holds_fix_div hx 10
      have hdigits : val x / 10 * 10 + val x % 10 = val x := Nat.div_add_mod' _ _
      rw [decimalDigits_succ hn hx h0, List.reverse_cons, List.append_assoc, List.singleton_append,
        ih hlen (by omega), parseLoop_cons hn hlen (Nat.mod_lt _ (by decide)), hval, hdigits, fix_val_of_length hx]
      rw [hval, hdigits]
      exact val_lt_of_length hx

theorem digitValue_ne_none_of_mem (hn : 1 ≤ n) {fuel : Nat} {x : Fixed} (hx : x.length = n) :
    ∀ ch ∈ decimalDigits n fuel x, digitValue ch ≠ none := by
  induction fuel generalizing x with
  | zero => simp [decimalDigits]
  | succ fuel ih =>
    by_cases h0 : val x = 0
    · simp [decimalDigits, h0]
    · rw [decimalDigits_succ hn hx h0, List.forall_mem_cons, digitValue_digitChar _ (Nat.mod_lt _ (by decide))]
      exact ⟨Option.some_ne_none _, ih (length_fix _ _)⟩

theorem decimalDigits_ne_nil (hn : 1 ≤ n) {x : Fixed} (hx : x.length = n) (h0 : val x ≠ 0) :
    decimalDigits n (val x) x ≠ [] := by
  obtain ⟨fuel, hfuel⟩ := Nat.exists_eq_succ_of_ne_zero h0
  rw [hfuel, decimalDigits_succ hn hx h0]
  exact List.cons_ne_nil _ _

theorem parseDecimal_toDecimal (hn : 1 ≤ n) {x : Fixed} (hx : x.length = n) :
    parseDecimal n (toDecimal n x) = .value x := by
  rw [toDecimal]
  split
  · next h0 =>
    have hzero : x = fix n 0 := Holds.eq_fix ⟨hx, h0⟩
    have hval : val (fix n 0) = 0 := hzero ▸ h0
    have hparse := parseLoop_cons (d := 0) hn (length_fix n 0) (by decide) (by rw [hval]; exact radix_pos n) []
    rw [hval] at hparse
    rw [parseDecimal_of_digits (by simp) (by simp [digitValue]), hzero]
    exact hparse
  · next h0 =>
    rw [parseDecimal_of_digits (by simpa using decimalDigits_ne_nil hn hx h0)
      (by simpa using digitValue_ne_none_of_mem hn hx)]
    simpa [parseLoop] using parseLoop_decimalDigits hn hx le_rfl []

end

/-- Settles O60: digit by digit, with no overflow, because every leading part of the digits is at most the value. -/
theorem parsingTheDecimalFormGivesTheValue : Obligations.ParsingTheDecimalFormGivesTheValue := by
  unfold Obligations.ParsingTheDecimalFormGivesTheValue
  exact fun n x hn hx => parseDecimal_toDecimal hn hx

end Sys2Proof.Machine
end
